-- ==== Sys2Proof/Word.lean ====
section
/-! DEFINITION. The block's two unsigned word widths (R8, R9, R300). -/

namespace Sys2Proof

/-- A byte: an unsigned 8-bit value (R9). -/
abbrev Byte := BitVec 8

/-- One 32-bit word of the register port: an operand, a result, a length, a packed colour (R8). -/
abbrev Word := BitVec 32

end Sys2Proof
end

