-- ==== Sys2Proof/Syntax.lean ====
section
/-! DEFINITION. The command set CHRC-1 as syntax: one constructor per row of spec/opcode_table.json (R104). A field
is an unsigned number taken as it stands (R103); its type is exactly what its bits can hold, 3 bits for `idx`, `row`
and `col`, 4 bits for `n` and `ch` (R101). -/

namespace Sys2Proof

inductive Instr where
  /-- `GETBIT idx`, R124. -/
  | getbit (idx : Fin 8)
  /-- `SETBIT idx`, R125. -/
  | setbit (idx : Fin 8)
  /-- `GETBITS idx, n`, R126. -/
  | getbits (idx : Fin 8) (n : Fin 16)
  /-- `SETBITS idx, n`, R127. -/
  | setbits (idx : Fin 8) (n : Fin 16)
  /-- `DECPIX row, col`, R151. -/
  | decpix (row : Fin 8) (col : Fin 8)
  /-- `DECROW row`, R152. -/
  | decrow (row : Fin 8)
  /-- `DECTILE`, R153. -/
  | dectile
  /-- `ENCROW`, R154. -/
  | encrow
  /-- `ENCTILE`, R155. -/
  | enctile
  /-- `TOIDX`, R181. -/
  | toidx
  /-- `TORGBA`, R182. -/
  | torgba
  /-- `TOCHR`, R183. -/
  | tochr
  /-- `REQH`, R202. -/
  | reqh
  /-- `DEFPAL`, R220. -/
  | defpal
  /-- `PALCOMMIT`, R221. -/
  | palcommit
  /-- `LOOKUP`, R222. -/
  | lookup
  /-- `FIND`, R223. -/
  | find
  /-- `COLCH ch`, R224. -/
  | colch (ch : Fin 16)
  /-- `PIX2IDX ch`, R225. -/
  | pix2idx (ch : Fin 16)
  /-- `IDX2COL`, R226. -/
  | idx2col
deriving DecidableEq, Repr

end Sys2Proof
end

