-- ==== Sys2Proof/WellFormed.lean ====
section
/-! DEFINITION. Well-formed commands: the range checks on operand fields beyond what a field's width gives (R103,
check 2 of R262). A command that fails them still decodes; its meaning raises `F_OPERAND`. -/

namespace Sys2Proof

/-- `n` in 1..8 and `idx + n ≤ 8` (R103, R126, R127). -/
def Instr.fieldInRange (idx : Fin 8) (n : Fin 16) : Bool :=
  1 ≤ n.val && n.val ≤ 8 && idx.val + n.val ≤ 8

/-- `ch` is 1, 3 or 4 (R103, R224, R225). -/
def Instr.channelsInRange (ch : Fin 16) : Bool :=
  ch.val == 1 || ch.val == 3 || ch.val == 4

/-- Every operand field is in its range (R103). -/
def Instr.wellFormed : Instr → Bool
  | .getbit _ => true
  | .setbit _ => true
  | .getbits idx n => Instr.fieldInRange idx n
  | .setbits idx n => Instr.fieldInRange idx n
  | .decpix _ _ => true
  | .decrow _ => true
  | .dectile => true
  | .encrow => true
  | .enctile => true
  | .toidx => true
  | .torgba => true
  | .tochr => true
  | .reqh => true
  | .defpal => true
  | .palcommit => true
  | .lookup => true
  | .find => true
  | .colch ch => Instr.channelsInRange ch
  | .pix2idx ch => Instr.channelsInRange ch
  | .idx2col => true

end Sys2Proof
end

