-- ==== Sys2Proof/Decode.lean ====
section
/-! DEFINITION. Command encoding (30_encoding.md): the opcode map of R104 as a list of rows, the decoder on every
32-bit word, and the encoder of R103. -/

namespace Sys2Proof

/-- Field `F0`, bits 10:8: a bit index or a tile row (R101). -/
def fieldF0 (w : Word) : Fin 8 := ⟨w.toNat / 2 ^ 8 % 8, Nat.mod_lt _ (by decide)⟩

/-- Field `F1`, bits 13:11: a tile column (R101). -/
def fieldF1 (w : Word) : Fin 8 := ⟨w.toNat / 2 ^ 11 % 8, Nat.mod_lt _ (by decide)⟩

/-- Field `F2`, bits 17:14: a field width or a channel count (R101). -/
def fieldF2 (w : Word) : Fin 16 := ⟨w.toNat / 2 ^ 14 % 16, Nat.mod_lt _ (by decide)⟩

/-- One row of the opcode map (R104): the bits that must match, their values, and the command read from a word that
has them. -/
structure CommandRow where
  mask : Word
  pattern : Word
  build : Word → Instr

/-- The word is the command of the row (R104): `(w & mask) = match`. -/
def CommandRow.accepts (r : CommandRow) (w : Word) : Bool := w &&& r.mask == r.pattern

/-- Rows of the BitPacking group, formats B and BN (R102, R104). -/
def bitPackingRows : List CommandRow :=
  [ { mask := 0xFFFFF8FF, pattern := 0x00000010, build := fun w => .getbit (fieldF0 w) },
    { mask := 0xFFFFF8FF, pattern := 0x00000011, build := fun w => .setbit (fieldF0 w) },
    { mask := 0xFFFC38FF, pattern := 0x00000012, build := fun w => .getbits (fieldF0 w) (fieldF2 w) },
    { mask := 0xFFFC38FF, pattern := 0x00000013, build := fun w => .setbits (fieldF0 w) (fieldF2 w) } ]

/-- Rows of the TileCodec group, formats RC, R and N (R102, R104). -/
def tileCodecRows : List CommandRow :=
  [ { mask := 0xFFFFC0FF, pattern := 0x00000020, build := fun w => .decpix (fieldF0 w) (fieldF1 w) },
    { mask := 0xFFFFF8FF, pattern := 0x00000021, build := fun w => .decrow (fieldF0 w) },
    { mask := 0xFFFFFFFF, pattern := 0x00000022, build := fun _ => .dectile },
    { mask := 0xFFFFFFFF, pattern := 0x00000023, build := fun _ => .encrow },
    { mask := 0xFFFFFFFF, pattern := 0x00000024, build := fun _ => .enctile } ]

/-- Rows of the PlaneStream and CanvasLayout groups, format N (R102, R104). -/
def streamRows : List CommandRow :=
  [ { mask := 0xFFFFFFFF, pattern := 0x00000030, build := fun _ => .toidx },
    { mask := 0xFFFFFFFF, pattern := 0x00000031, build := fun _ => .torgba },
    { mask := 0xFFFFFFFF, pattern := 0x00000032, build := fun _ => .tochr },
    { mask := 0xFFFFFFFF, pattern := 0x00000040, build := fun _ => .reqh } ]

/-- Rows of the Palette and ColorConversion group, formats N and C (R102, R104). -/
def paletteRows : List CommandRow :=
  [ { mask := 0xFFFFFFFF, pattern := 0x00000050, build := fun _ => .defpal },
    { mask := 0xFFFFFFFF, pattern := 0x00000051, build := fun _ => .palcommit },
    { mask := 0xFFFFFFFF, pattern := 0x00000052, build := fun _ => .lookup },
    { mask := 0xFFFFFFFF, pattern := 0x00000053, build := fun _ => .find },
    { mask := 0xFFFC3FFF, pattern := 0x00000054, build := fun w => .colch (fieldF2 w) },
    { mask := 0xFFFC3FFF, pattern := 0x00000055, build := fun w => .pix2idx (fieldF2 w) },
    { mask := 0xFFFFFFFF, pattern := 0x00000056, build := fun _ => .idx2col } ]

/-- The opcode map (R104). -/
def commandTable : List CommandRow := bitPackingRows ++ tileCodecRows ++ streamRows ++ paletteRows

/-- Why a word is illegal (R105). -/
inductive IllegalWord where
  /-- The `OP` value is in no row (0x00 and 0xFF among them). -/
  | unlistedOperation
  /-- A listed `OP` with a nonzero bit in `Z` or in a field its format does not use. -/
  | unusedBitSet
deriving DecidableEq, Repr

/-- What the decoder answers. -/
inductive Decoded where
  | command (i : Instr)
  | illegal (why : IllegalWord)
deriving DecidableEq, Repr

/-- The command of a word, or why it has none (R104, R105). A word that matches a row decodes whatever its operand
fields hold; R103's ranges are checked by the command's meaning. -/
def decode (w : Word) : Decoded :=
  match commandTable.find? (fun r => r.accepts w) with
  | some r => .command (r.build w)
  | none =>
    .illegal (if commandTable.any (fun r => r.pattern &&& 0xFF == w &&& 0xFF) then .unusedBitSet else .unlistedOperation)

/-- The command word to assemble (R103): `OP | (F0 << 8) | (F1 << 11) | (F2 << 14)`. -/
def assemble (op f0 f1 f2 : Nat) : Word :=
  BitVec.ofNat 32 (op ||| f0 <<< 8 ||| f1 <<< 11 ||| f2 <<< 14)

/-- The word of a command (R103, R104). -/
def encode : Instr → Word
  | .getbit idx => assemble 0x10 idx.val 0 0
  | .setbit idx => assemble 0x11 idx.val 0 0
  | .getbits idx n => assemble 0x12 idx.val 0 n.val
  | .setbits idx n => assemble 0x13 idx.val 0 n.val
  | .decpix row col => assemble 0x20 row.val col.val 0
  | .decrow row => assemble 0x21 row.val 0 0
  | .dectile => assemble 0x22 0 0 0
  | .encrow => assemble 0x23 0 0 0
  | .enctile => assemble 0x24 0 0 0
  | .toidx => assemble 0x30 0 0 0
  | .torgba => assemble 0x31 0 0 0
  | .tochr => assemble 0x32 0 0 0
  | .reqh => assemble 0x40 0 0 0
  | .defpal => assemble 0x50 0 0 0
  | .palcommit => assemble 0x51 0 0 0
  | .lookup => assemble 0x52 0 0 0
  | .find => assemble 0x53 0 0 0
  | .colch ch => assemble 0x54 0 0 ch.val
  | .pix2idx ch => assemble 0x55 0 0 ch.val
  | .idx2col => assemble 0x56 0 0 0

/-- The one word of a command given as a number whose bits above `nbits` are zero (bit 0 is the least significant
bit of the word, R101; there is one word and no byte order, R100, R106). -/
def commandWord (nbits w : Nat) : Word := BitVec.ofNat 32 (w % 2 ^ nbits)

/-- What the decoder reads from that word. -/
def decodeTableWord (nbits w : Nat) : Option Instr :=
  match decode (commandWord nbits w) with
  | .command i => some i
  | .illegal _ => none

end Sys2Proof
end

