-- ==== Sys2Proof/Config.lean ====
section
/-! DEFINITION. What an implementation fixes (the capacities of R8), the parameters the spec decides a default for
(U8, U9, D34), and the free values (U14). -/

namespace Sys2Proof

/-- The four OPEN parameters of R8 and U15: the capacity in bytes of each external memory, each at most
`2^32 − 1`. A state carries them (log 6); no step changes them. -/
structure Config where
  chrcap : Word
  pixcap : Word
  rawcap : Word
  colcap : Word
deriving DecidableEq, Repr

/-- DESIGN CHOICE (log 6): the capacities of State.reset, the largest R8 allows. -/
def Config.largest : Config :=
  { chrcap := 0xFFFFFFFF, pixcap := 0xFFFFFFFF, rawcap := 0xFFFFFFFF, colcap := 0xFFFFFFFF }

/-- The increment of the default palette at depth 3 (parameter U8, default of decision D14; log 9). -/
def Config.rampStep3 : Nat := 36

/-- Lowest bit of the red channel in a packed colour (parameter U9, default of decision D12; log 10). -/
def Config.redBit : Nat := 24

/-- Lowest bit of the green channel in a packed colour (U9, D12; log 10). -/
def Config.greenBit : Nat := 16

/-- Lowest bit of the blue channel in a packed colour (U9, D12; log 10). -/
def Config.blueBit : Nat := 8

/-- Lowest bit of the alpha channel in a packed colour (U9, D12; log 10). -/
def Config.alphaBit : Nat := 0

/-- Place of the red byte among the 4 bytes of a colour in `COLMEM` (parameter of decision D34; log 11). -/
def Config.redByte : Nat := 0

/-- Place of the green byte (D34; log 11). -/
def Config.greenByte : Nat := 1

/-- Place of the blue byte (D34; log 11). -/
def Config.blueByte : Nat := 2

/-- Place of the alpha byte (D34; log 11). -/
def Config.alphaByte : Nat := 3

/-- Free value: the byte a reset input leaves in a buffer element, numbered by the counter `fresh` (R51, R280,
U14 "any value"; log 5). It has no body. -/
opaque Config.freeByte : Nat → Byte

/-- Free value: the 32-bit word a reset input leaves in an element of `CSCAN` or `PAL` (R51, R280, U14; log 5). -/
opaque Config.freeWord : Nat → Word

end Sys2Proof
end

