-- ==== Sys2Proof/Machine/State.lean ====
section
/-! DEFINITION. The state of the block (10_state.md), as plain data, and its value after reset (R51). -/

namespace Sys2Proof.Machine

/-- The engine state `ENG` (R23). -/
inductive Eng where
  | idle
  | run
  | wait
  | fault
deriving DecidableEq, Repr

/-- `LAYOUT` (R26): 0 is Planar, 1 is Interleaved. -/
inductive Layout where
  | planar
  | interleaved
deriving DecidableEq, Repr

/-- `STATUS.OUTKIND` (R24): which buffer holds the units of the current or most recent stream command. -/
inductive OutKind where
  | none
  | scan
  | cscan
  | tile
deriving DecidableEq, Repr

/-- The causes of a fault (R251). -/
inductive Cause where
  | illcmd
  | operand
  | config
  | bounds
  | palidx
  | busy
deriving DecidableEq, Repr

/-- The four external memories (R45). -/
inductive Space where
  | chrmem
  | pixmem
  | rawmem
  | colmem
deriving DecidableEq, Repr

/-- A colour: four unsigned 8-bit channels (R210). -/
structure Color where
  r : Byte
  g : Byte
  b : Byte
  a : Byte
deriving DecidableEq, Repr

/-- The events of the output trace (R11, R46). -/
inductive Event where
  /-- One scanline of 128 indices. -/
  | scanline (indices : List Byte)
  /-- One scanline of 128 colours. -/
  | rgbaScanline (colours : List Color)
  /-- One tile of `bpp × 8` bytes. -/
  | tileBytes (bytes : List Byte)
  /-- `Diag(ValidationFailure(width, height))` (R260). -/
  | validationFailure (width height : Word)
  /-- `Diag(PaletteMiss(pixel, color))` (R260); the pixel number counts from 0. -/
  | paletteMiss (pixel : Nat) (colour : Color)
deriving DecidableEq, Repr

/-- What the world outside the engine does next (R6, R49, R50, R262, R280; log 1). -/
inductive HostMove where
  /-- A register-port write of a word to an offset (R50); a command when the offset is `CMD`'s (R35), an acknowledge
  when it is `ACK`'s (R36). -/
  | write (offset : Word) (value : Word)
  /-- A register-port read of an offset (R49). -/
  | read (offset : Word)
  /-- A byte write to an external memory, by the host's own means (R45). -/
  | memWrite (space : Space) (offset : Nat) (value : Byte)
  /-- A byte read of an external memory, by the host's own means (R45). -/
  | memRead (space : Space) (offset : Nat)
  /-- The platform asserts the reset input (R280). -/
  | reset
  /-- The host lets the engine take its next step, if one is enabled (R185, R262). -/
  | engine
deriving DecidableEq, Repr

/-- An external memory: (offset, byte) pairs, offsets strictly rising, no pair holding what an unlisted offset reads
as. -/
abbrev Memory := List Host.Cell

/-- DESIGN CHOICE (log 4, unsafe): what an offset that is not listed reads as; R51 leaves it unspecified. -/
def unlistedByte : Byte := 0

/-- The canonical form of a memory. -/
abbrev Memory.wf (m : Memory) : Prop :=
  m.Pairwise (fun c d => c.1 < d.1) ∧ ∀ c ∈ m, c.2 ≠ unlistedByte

/-- Why the machine stops. The block's own faults (R251) are NOT stops: they are next states with `ENG = FAULT`. -/
inductive Fault where
  /-- A host access to an external memory at or above the memory's capacity, where R8 and R45 say there is no byte;
  raised by the moves `memWrite` and `memRead` only (log 7). Safe: the spec has no such access. -/
  | noSuchByte (space : Space) (offset : Nat)
deriving DecidableEq, Repr

/-- Why a move or a command has no meaning. -/
inductive Refusal where
  /-- A command the model gives no meaning to; no arm of exec answers with it. Safe. -/
  | notModelled (mnemonic : String)
  /-- A host write to an external memory while `ENG` is not `IDLE`: "the model has no such host move" (R84, R286,
  U12; log 8); raised by the move `memWrite` only. Safe for every statement, which then speaks of no such host. -/
  | hostMemoryWriteOutsideIdle
deriving DecidableEq, Repr

/-- The whole state of the block (R20), and the model's own four fields at the end. -/
structure State where
  /-- `ENG`, which also is `STATUS` bits `BUSY`, `FAULT` and `OUTV` (R23, R24). -/
  eng : Eng
  /-- `STATUS.VERR` (R24). -/
  verr : Bool
  /-- `STATUS.NOTFOUND` (R24). -/
  notfound : Bool
  /-- `STATUS.OUTKIND` (R24). -/
  outkind : OutKind
  /-- `CAUSE` (R34). -/
  cause : BitVec 8
  /-- `FINFO` (R34). -/
  finfo : Word
  /-- `BPP` (R25). -/
  bpp : BitVec 4
  /-- `LAYOUT` (R26). -/
  layout : Layout
  /-- `PALSIZE`, 0..256 (R27). -/
  palsize : Fin 257
  /-- `MISSCNT` (R28). -/
  misscnt : Word
  /-- `OUTCNT` (R37). -/
  outcnt : Word
  /-- `CHRLEN` (R29). -/
  chrlen : Word
  /-- `PIXLEN` (R30). -/
  pixlen : Word
  /-- `RAWLEN` (R31). -/
  rawlen : Word
  /-- `COLLEN` (R32). -/
  collen : Word
  /-- `WIDTH` (R33). -/
  width : Word
  /-- `HEIGHT` (R33). -/
  height : Word
  /-- `A0` (R21). -/
  a0 : Word
  /-- `A1` (R21). -/
  a1 : Word
  /-- `R0` (R22). -/
  r0 : Word
  /-- `TILE` (R38). -/
  tile : Vector Byte 64
  /-- `GRID` (R39); the element of row `r` and column `c` is `8r + c`. -/
  grid : Vector Byte 64
  /-- `ROW` (R40). -/
  row : Vector Byte 8
  /-- `PLANE` (R41). -/
  plane : Vector Byte 8
  /-- `SCAN` (R42). -/
  scan : Vector Byte 128
  /-- `CSCAN` (R43), packed colours. -/
  cscan : Vector Word 128
  /-- `PAL` (R44), packed colours. -/
  pal : Vector Word 256
  /-- `CHRMEM` (R45). -/
  chrmem : Memory
  /-- `PIXMEM` (R45). -/
  pixmem : Memory
  /-- `RAWMEM` (R45). -/
  rawmem : Memory
  /-- `COLMEM` (R45). -/
  colmem : Memory
  /-- `OUT` (R46), oldest event first. -/
  out : List Event
  /-- The model's own: the capacities (R8, U15; log 6). -/
  cfg : Config
  /-- The model's own: the moves still to come, the next one first (log 1). -/
  host : List HostMove
  /-- The model's own: the values the host has read, oldest first (log 12). -/
  reads : List Word
  /-- The model's own: the number of the next free value (log 5). -/
  fresh : Nat
deriving DecidableEq, Repr

/-- The block after reset (R51). The buffers, which R51 leaves unspecified, hold the value of log 3, and the external
memories list nothing (log 4). -/
def State.reset : State where
  eng := .idle
  verr := false
  notfound := false
  outkind := .none
  cause := 0
  finfo := 0
  bpp := 0
  layout := .planar
  palsize := 0
  misscnt := 0
  outcnt := 0
  chrlen := 0
  pixlen := 0
  rawlen := 0
  collen := 0
  width := 0
  height := 0
  a0 := 0
  a1 := 0
  r0 := 0
  tile := Vector.replicate 64 0
  grid := Vector.replicate 64 0
  row := Vector.replicate 8 0
  plane := Vector.replicate 8 0
  scan := Vector.replicate 128 0
  cscan := Vector.replicate 128 0
  pal := Vector.replicate 256 0
  chrmem := []
  pixmem := []
  rawmem := []
  colmem := []
  out := []
  cfg := Config.largest
  host := []
  reads := []
  fresh := 0

end Sys2Proof.Machine
end

