-- ==== Sys2Proof/Machine/Ops.lean ====
section
/-! DEFINITION. The named operations over memory and registers that the meanings share: byte memory, the writes of
registers and buffers, the output trace, fault entry (R255) and the reset input (R280). -/

namespace Sys2Proof.Machine

/-! ### Numbers (R9, R300) -/

/-- `zext_32` or `trunc_32` of a natural (R9). -/
def word (n : Nat) : Word := BitVec.ofNat 32 n

/-- `trunc_8` of a natural (R9). -/
def byte (n : Nat) : Byte := BitVec.ofNat 8 n

/-- `ceil(a / b) = (a + b − 1) div b`, for `b > 0` (R9, R302). -/
def ceilDiv (a b : Nat) : Nat := (a + b - 1) / b

/-- The sum of `f 0 .. f (n − 1)`. -/
def sumBelow : Nat → (Nat → Nat) → Nat
  | 0, _ => 0
  | n + 1, f => sumBelow n f + f n

/-- The array of `f 0 .. f (n − 1)`. Irreducible, so that two states are never compared element by element; the law is
`tabulate_get`. -/
@[irreducible] def tabulate {α : Type} {n : Nat} (f : Fin n → α) : Vector α n := Vector.ofFn f

/-! ### External memories (R45, R79) -/

/-- `MemRead` (R10): the byte at an offset. -/
def Memory.read : Memory → Nat → Byte
  | [], _ => unlistedByte
  | (a, b) :: m, k => if a = k then b else Memory.read m k

/-- `MemWrite` (R10): store a byte at an offset, keeping the canonical form. -/
def Memory.write : Memory → Nat → Byte → Memory
  | [], k, v => if v = unlistedByte then [] else [(k, v)]
  | (a, b) :: m, k, v =>
    if k < a then (if v = unlistedByte then (a, b) :: m else (k, v) :: (a, b) :: m)
    else if k = a then (if v = unlistedByte then m else (k, v) :: m)
    else (a, b) :: Memory.write m k v

/-- The number a fault records for a space (R80, R251). -/
def Space.code : Space → Nat
  | .chrmem => 1
  | .pixmem => 2
  | .rawmem => 3
  | .colmem => 4

/-- The memory of a space (R45). -/
def State.memory (s : State) : Space → Memory
  | .chrmem => s.chrmem
  | .pixmem => s.pixmem
  | .rawmem => s.rawmem
  | .colmem => s.colmem

/-- The capacity in bytes of a space (R8, R45). -/
def State.capacity (s : State) : Space → Nat
  | .chrmem => s.cfg.chrcap.toNat
  | .pixmem => s.cfg.pixcap.toNat
  | .rawmem => s.cfg.rawcap.toNat
  | .colmem => s.cfg.colcap.toNat

/-- Store one byte in a space (R10, R45). -/
def State.writeByte (s : State) (space : Space) (offset : Nat) (v : Byte) : State :=
  match space with
  | .chrmem => { s with chrmem := s.chrmem.write offset v }
  | .pixmem => { s with pixmem := s.pixmem.write offset v }
  | .rawmem => { s with rawmem := s.rawmem.write offset v }
  | .colmem => { s with colmem := s.colmem.write offset v }

/-! ### Registers and buffers the engine writes (R48, column "engine writes") -/

/-- `R0 <- v` (R22). -/
def State.setR0 (s : State) (v : Word) : State := { s with r0 := v }

/-- Write every element of `ROW` (R40). -/
def State.setRow (s : State) (f : Fin 8 → Byte) : State := { s with row := tabulate f }

/-- Write every element of `GRID` (R39). -/
def State.setGrid (s : State) (f : Fin 64 → Byte) : State := { s with grid := tabulate f }

/-- Write the first `n` elements of `TILE`, leaving the others (R38, decision D32). -/
def State.setTile (s : State) (n : Nat) (f : Fin 64 → Byte) : State :=
  { s with tile := tabulate fun k => if k.val < n then f k else s.tile[k] }

/-- Write the first `n` elements of `PLANE`, leaving the others (R41, decision D32). -/
def State.setPlane (s : State) (n : Nat) (f : Fin 8 → Byte) : State :=
  { s with plane := tabulate fun p => if p.val < n then f p else s.plane[p] }

/-- Write every element of `SCAN` (R42). -/
def State.setScan (s : State) (f : Fin 128 → Byte) : State := { s with scan := tabulate f }

/-- Write the first `n` elements of `CSCAN`, leaving the others (R43, R182). -/
def State.setCscan (s : State) (n : Nat) (f : Fin 128 → Word) : State :=
  { s with cscan := tabulate fun x => if x.val < n then f x else s.cscan[x] }

/-- Write the first `n` entries of `PAL`, leaving the others (R44, R220). -/
def State.setPal (s : State) (n : Nat) (f : Fin 256 → Word) : State :=
  { s with pal := tabulate fun i => if i.val < n then f i else s.pal[i] }

/-- `PALSIZE <- n` (R27). -/
def State.setPalsize (s : State) (n : Fin 257) : State := { s with palsize := n }

/-- `ENG <- e` (R23). -/
def State.setEng (s : State) (e : Eng) : State := { s with eng := e }

/-- `emit X` (R10, R46): the event joins the end of `OUT`. -/
def State.emit (s : State) (e : Event) : State := { s with out := s.out ++ [e] }

/-! ### Faults (R251, R255) -/

/-- The number of a cause in `CAUSE` (R251). -/
def Cause.code : Cause → BitVec 8
  | .illcmd => 1
  | .operand => 2
  | .config => 3
  | .bounds => 4
  | .palidx => 5
  | .busy => 6

/-- `raise Fault(cause, info)`, fault entry (R255): `CAUSE`, `FINFO` and `ENG` change and nothing else does. No
register saves anything, no mode changes and no handler runs. -/
def State.raiseFault (s : State) (c : Cause) (info : Nat) : State :=
  { s with cause := c.code, finfo := word info, eng := .fault }

/-! ### The only exit from a fault (R263): the reset input (R280) -/

/-- How many free values a reset input uses: the elements of the seven buffers. -/
def resetFreeValues : Nat := 64 + 64 + 8 + 8 + 128 + 128 + 256

/-- The reset input (R280, R51): every register at its reset value, `OUT` empty, the external memories untouched, and
every buffer element a free value ("any value", U14; log 5). The moves to come and the values already read are the
host's; the capacities are parameters. -/
def State.resetInput (s : State) : State :=
  { State.reset with
    tile := tabulate fun k => Config.freeByte (s.fresh + k.val)
    grid := tabulate fun k => Config.freeByte (s.fresh + 64 + k.val)
    row := tabulate fun k => Config.freeByte (s.fresh + 128 + k.val)
    plane := tabulate fun k => Config.freeByte (s.fresh + 136 + k.val)
    scan := tabulate fun k => Config.freeByte (s.fresh + 144 + k.val)
    cscan := tabulate fun k => Config.freeWord (s.fresh + 272 + k.val)
    pal := tabulate fun k => Config.freeWord (s.fresh + 400 + k.val)
    chrmem := s.chrmem
    pixmem := s.pixmem
    rawmem := s.rawmem
    colmem := s.colmem
    cfg := s.cfg
    host := s.host
    reads := s.reads
    fresh := s.fresh + resetFreeValues }

end Sys2Proof.Machine
end

