-- ==== Sys2Proof/Machine/Flags.lean ====
section
/-! DEFINITION. The status register (R24): its word, what clears and sets its flags. -/

namespace Sys2Proof.Machine

/-- `STATUS.BUSY`: 1 iff `ENG` is `RUN` or `WAIT` (R24). -/
def State.busy (s : State) : Bool := s.eng == .run || s.eng == .wait

/-- `STATUS.FAULT`: 1 iff `ENG` is `FAULT` (R24). -/
def State.faulted (s : State) : Bool := s.eng == .fault

/-- `STATUS.OUTV`: 1 iff `ENG` is `WAIT` (R24). -/
def State.outv (s : State) : Bool := s.eng == .wait

/-- The number of `OUTKIND` (R24). -/
def OutKind.code : OutKind → Nat
  | .none => 0
  | .scan => 1
  | .cscan => 2
  | .tile => 3

/-- The word `STATUS` reads as (R24): bits 31:7 are zero. -/
def State.statusWord (s : State) : Word :=
  word (s.busy.toNat + s.faulted.toNat <<< 1 + s.outv.toNat <<< 2 + s.verr.toNat <<< 3 + s.notfound.toNat <<< 4
    + s.outkind.code <<< 5)

/-- Acceptance of a command (R24, R100): `VERR` and `NOTFOUND` are cleared. -/
def State.accept (s : State) : State := { s with verr := false, notfound := false }

/-- `NOTFOUND <- 1` (R223). -/
def State.setNotfound (s : State) : State := { s with notfound := true }

/-- `VERR <- 1` (R183). -/
def State.setVerr (s : State) : State := { s with verr := true }

/-- A stream command that has passed its `F_CONFIG` check (R181 to R183, check 4 of R262): `OUTKIND <- kind;
OUTCNT <- 0`. -/
def State.beginStream (s : State) (kind : OutKind) : State := { s with outkind := kind, outcnt := 0 }

end Sys2Proof.Machine
end

