-- ==== Sys2Proof/Machine/Operands.lean ====
section
/-! DEFINITION. Operand forms: the operand registers (R21), the range checks of operand fields (R103, check 2 of
R262), and the configuration check (check 3 of R262). -/

namespace Sys2Proof.Machine

/-- `A0[7:0]`, the byte a BitPacking command works on (R21). -/
def State.byteOperand (s : State) : Nat := s.a0.toNat % 2 ^ 8

/-- Byte `k` of `A0`, element `k` of the channel slice of `COLCH` (R224): `A0[8k+7 : 8k]`. -/
def State.channelOperand (s : State) (k : Nat) : Byte := byte (s.a0.toNat >>> (8 * k))

/-- The field of `n` bits at bit `idx` stays inside a byte (R126, R127). -/
def fieldInByte (idx : Fin 8) (n : Fin 16) : Bool :=
  !(n.val < 1 || n.val > 8 || idx.val + n.val > 8)

/-- A channel count the commands take (R224, R225). -/
inductive Channels where
  | one
  | three
  | four
deriving DecidableEq, Repr

/-- The channel count of field `ch`; none where `F_OPERAND` is raised (R224, R225). -/
def channelsOfField (ch : Fin 16) : Option Channels :=
  match ch.val with
  | 1 => some .one
  | 3 => some .three
  | 4 => some .four
  | _ => none

/-- Bytes per pixel (R76). -/
def Channels.count : Channels → Nat
  | .one => 1
  | .three => 3
  | .four => 4

/-- `raise Fault(F_OPERAND, w)`, where `w` is the command's own word; before acceptance (R100, R252). -/
def State.raiseOperand (s : State) (i : Instr) : State := s.raiseFault .operand (encode i).toNat

/-- `bpp ∈ {2, 3, 4, 8}` (R2, R7). -/
def depthSupported (bpp : Nat) : Bool := bpp == 2 || bpp == 3 || bpp == 4 || bpp == 8

/-- The depth the next command uses (R25). -/
def State.depth (s : State) : Nat := s.bpp.toNat

/-- `if BPP not in {2,3,4,8}: raise Fault(F_CONFIG, BPP)`, and otherwise the rest of the command (R253). -/
def State.withDepth (s : State) (rest : State → State) : State :=
  if depthSupported s.depth then rest s else s.raiseFault .config s.depth

end Sys2Proof.Machine
end

