-- ==== Sys2Proof/Machine/CanvasLayout.lean ====
section
/-! DEFINITION. CanvasLayout (43_canvaslayout.md): the required height and `REQH`. -/

namespace Sys2Proof.Machine

/-- Bytes of one full tile-row, `rowBytes(bpp)` (R7, R170, R200). -/
def rowBytes (bpp : Nat) : Nat := 128 * bpp

/-- `requiredHeight(n, bpp)` (R200), on unbounded naturals. -/
def requiredHeight (n bpp : Nat) : Nat := 8 * ceilDiv n (rowBytes bpp)

/-- `REQH` (R202). -/
def execReqh (s : State) : Host.Outcome State Fault Refusal :=
  .next (s.accept.withDepth fun s => s.setR0 (word (requiredHeight s.a0.toNat s.depth)))

end Sys2Proof.Machine
end

