-- ==== Sys2Proof/Machine/Palette.lean ====
section
/-! DEFINITION. Palette and ColorConversion (44_palette_color.md): colours, the default ramp, both lookups, and
`DEFPAL`, `PALCOMMIT`, `LOOKUP`, `FIND`, `COLCH`, `PIX2IDX`, `IDX2COL`. -/

namespace Sys2Proof.Machine

/-! ### Colours (R210 to R212) -/

/-- `pack` (R211), at the channel order of parameter U9. -/
def Color.pack (c : Color) : Word :=
  word (c.r.toNat <<< Config.redBit ||| c.g.toNat <<< Config.greenBit ||| c.b.toNat <<< Config.blueBit
    ||| c.a.toNat <<< Config.alphaBit)

/-- `unpack` (R211), at the channel order of parameter U9. -/
def Color.unpack (w : Word) : Color where
  r := byte (w.toNat >>> Config.redBit)
  g := byte (w.toNat >>> Config.greenBit)
  b := byte (w.toNat >>> Config.blueBit)
  a := byte (w.toNat >>> Config.alphaBit)

/-- The channel-count rule (R212), for the counts the commands take: `raw` gives the channel bytes. -/
def Channels.colour (raw : Nat → Byte) : Channels → Color
  | .one => { r := raw 0, g := raw 0, b := raw 0, a := 255 }
  | .three => { r := raw 0, g := raw 1, b := raw 2, a := 255 }
  | .four => { r := raw 0, g := raw 1, b := raw 2, a := raw 3 }

/-- Which channel-count rule a slice of a given length falls under (R212); none for lengths 0 and 2, which have no
meaning (U13). -/
def channelsOfLength : Nat → Option Channels
  | 0 => none
  | 1 => some .one
  | 2 => none
  | 3 => some .three
  | _ => some .four

/-- `colorFromChannels(raw)` (R212), the pure function on a slice of any length. -/
def colorFromChannels (raw : List Byte) : Option Color :=
  (channelsOfLength raw.length).map fun ch => ch.colour fun k => raw.getD k 0

/-! ### The palette (R213 to R217) -/

/-- Entries of a palette at a supported depth, `palSize(bpp)` (R7, R213). -/
def palSize (bpp : Nat) : Nat := 2 ^ bpp

/-- `step(bpp)` (R214); depth 3 is parameter U8. -/
def rampStep (bpp : Nat) : Nat := if bpp = 3 then Config.rampStep3 else 255 / (2 ^ bpp - 1)

/-- Entry `i` of `defaultPalette(bpp)` (R214). -/
def defaultColour (bpp i : Nat) : Color where
  r := byte (i * rampStep bpp)
  g := byte (i * rampStep bpp)
  b := byte (i * rampStep bpp)
  a := 255

/-- The palette, `PAL[0 .. PALSIZE)` (R44, R213). -/
def State.palette (s : State) : List Word := s.pal.toList.take s.palsize.val

/-- `lookupByIndex(i)` (R216): the entry, or none where the guard faults. -/
def State.lookupByIndex (s : State) (i : Nat) : Option Word := s.palette[i]?

/-- `findIndex(color)` (R217): the lowest index whose entry equals the colour; none is NotFound. -/
def findIndex (colour : Word) : List Word → Option Nat
  | [] => none
  | w :: ws => if w = colour then some 0 else (findIndex colour ws).map (· + 1)

/-- `PALSIZE` of a depth: `2^bpp` for a supported depth, 0 for any other (R27, R213, R214). -/
def installedSize (bpp : Nat) : Fin 257 := if depthSupported bpp then Fin.ofNat 257 (palSize bpp) else 0

/-! ### Commands -/

/-- `defaultPalette(BPP)` installed (R214, R220): an unsupported depth leaves `PAL` and empties the palette. -/
def State.installDefault (s : State) : State :=
  if depthSupported s.depth then
    (s.setPal (palSize s.depth) fun i => (defaultColour s.depth i.val).pack).setPalsize (installedSize s.depth)
  else s.setPalsize (installedSize s.depth)

/-- `DEFPAL` (R220). -/
def execDefpal (s : State) : Host.Outcome State Fault Refusal :=
  .next s.accept.installDefault

/-- `PALCOMMIT` (R221). -/
def execPalcommit (s : State) : Host.Outcome State Fault Refusal :=
  .next (s.accept.withDepth fun s => s.setPalsize (installedSize s.depth))

/-- `LOOKUP` (R222). -/
def execLookup (s : State) : Host.Outcome State Fault Refusal :=
  let s := s.accept
  match s.lookupByIndex s.a0.toNat with
  | some w => .next (s.setR0 w)
  | none => .next (s.raiseFault .palidx s.a0.toNat)

/-- `FIND` (R223): NotFound is a result, not a fault. -/
def execFind (s : State) : Host.Outcome State Fault Refusal :=
  let s := s.accept
  match findIndex s.a0 s.palette with
  | some i => .next (s.setR0 (word i))
  | none => .next (s.setNotfound.setR0 0xFFFFFFFF)

/-- `COLCH ch` (R224). -/
def execColch (ch : Fin 16) (s : State) : Host.Outcome State Fault Refusal :=
  match channelsOfField ch with
  | some n => .next (s.accept.setR0 (n.colour s.channelOperand).pack)
  | none => .next (s.raiseOperand (.colch ch))

/-- The colour of pixel `k` of the raw colour buffer (R76, R225). -/
def State.rawColour (s : State) (ch : Channels) (k : Nat) : Color :=
  ch.colour fun j => s.rawmem.read (k * ch.count + j)

/-- A palette miss at pixel `k` (R218, R225): one event and one count. -/
def State.recordMiss (s : State) (k : Nat) (c : Color) : State :=
  { s.emit (.paletteMiss k c) with misscnt := s.misscnt + 1 }

/-- One pixel of `PIX2IDX` (R225): a miss is recorded and stores index 0. -/
def State.convertPixel (s : State) (ch : Channels) (k : Nat) : State :=
  match findIndex (s.rawColour ch k).pack s.palette with
  | some i => s.writeByte .pixmem k (byte i)
  | none => (s.recordMiss k (s.rawColour ch k)).writeByte .pixmem k 0

/-- Pixels `k .. k + n − 1`, ascending (R225). -/
def State.convertPixels (ch : Channels) : Nat → Nat → State → State
  | 0, _, s => s
  | n + 1, k, s => State.convertPixels ch n (k + 1) (s.convertPixel ch k)

/-- `PIX2IDX` after its operand check and acceptance (R225). -/
def State.pixelsToIndexed (s : State) (ch : Channels) : State :=
  let s := { s with misscnt := 0 }
  if s.capacity .rawmem < s.rawlen.toNat then s.raiseFault .bounds (Space.code .rawmem)
  else
    let np := s.rawlen.toNat / ch.count
    if s.capacity .pixmem < np then s.raiseFault .bounds (Space.code .pixmem)
    else { State.convertPixels ch np 0 s with pixlen := word np }

/-- `PIX2IDX ch` (R225). -/
def execPix2idx (ch : Fin 16) (s : State) : Host.Outcome State Fault Refusal :=
  match channelsOfField ch with
  | some n => .next (s.accept.pixelsToIndexed n)
  | none => .next (s.raiseOperand (.pix2idx ch))

/-- The four bytes of a colour at pixel `k` of `COLMEM`, in ascending order (R73, R226). -/
def State.storeColour (s : State) (k : Nat) (c : Color) : State :=
  (((s.writeByte .colmem (4 * k + Config.redByte) c.r).writeByte .colmem (4 * k + Config.greenByte) c.g).writeByte
    .colmem (4 * k + Config.blueByte) c.b).writeByte .colmem (4 * k + Config.alphaByte) c.a

/-- Pixels `k .. k + n − 1` of `IDX2COL`, then `COLLEN` (R226): the first index not below `PALSIZE` faults, the
pixels before it stay written and `COLLEN` is not. -/
def State.convertIndices : Nat → Nat → State → State
  | 0, k, s => { s with collen := word (4 * k) }
  | n + 1, k, s =>
    match s.lookupByIndex (s.pixmem.read k).toNat with
    | some w => State.convertIndices n (k + 1) (s.storeColour k (Color.unpack w))
    | none => s.raiseFault .palidx (s.pixmem.read k).toNat

/-- `IDX2COL` after acceptance (R226). -/
def State.indexedToColors (s : State) : State :=
  if s.capacity .pixmem < s.pixlen.toNat then s.raiseFault .bounds (Space.code .pixmem)
  else if s.capacity .colmem < 4 * s.pixlen.toNat then s.raiseFault .bounds (Space.code .colmem)
  else State.convertIndices s.pixlen.toNat 0 s

/-- `IDX2COL` (R226). -/
def execIdx2col (s : State) : Host.Outcome State Fault Refusal :=
  .next s.accept.indexedToColors

end Sys2Proof.Machine
end

