-- ==== Sys2Proof/Machine/BitPacking.lean ====
section
/-! DEFINITION. BitPacking (40_bitpacking.md): the four pure functions and `GETBIT`, `SETBIT`, `GETBITS`, `SETBITS`. -/

namespace Sys2Proof.Machine

/-- `~_8 v` (R9, R303). -/
def notByte (v : Nat) : Nat := 255 - v

/-- `getBit(v, i)` (R121). -/
def getBit (v i : Nat) : Nat := v >>> i &&& 1

/-- `setBit(v, i, b)` (R121). -/
def setBit (v i b : Nat) : Nat := (v &&& notByte (1 <<< i)) ||| (b &&& 1) <<< i

/-- The mask `(1 << n) − 1` (R120). -/
def fieldMask (n : Nat) : Nat := 1 <<< n - 1

/-- `getBits(v, i, n)` (R122). -/
def getBits (v i n : Nat) : Nat := v >>> i &&& fieldMask n

/-- `setBits(v, i, n, x)` (R123). -/
def setBits (v i n x : Nat) : Nat :=
  ((v &&& notByte (fieldMask n <<< i % 2 ^ 8)) ||| (x &&& fieldMask n) <<< i) % 2 ^ 8

/-- `GETBIT idx` (R124). -/
def execGetbit (idx : Fin 8) (s : State) : Host.Outcome State Fault Refusal :=
  .next (s.accept.setR0 (word (getBit s.byteOperand idx)))

/-- `SETBIT idx` (R125): only bit 0 of `A1` is used. -/
def execSetbit (idx : Fin 8) (s : State) : Host.Outcome State Fault Refusal :=
  .next (s.accept.setR0 (word (setBit s.byteOperand idx (s.a1.toNat % 2))))

/-- `GETBITS idx, n` (R126). -/
def execGetbits (idx : Fin 8) (n : Fin 16) (s : State) : Host.Outcome State Fault Refusal :=
  if fieldInByte idx n then .next (s.accept.setR0 (word (getBits s.byteOperand idx n)))
  else .next (s.raiseOperand (.getbits idx n))

/-- `SETBITS idx, n` (R127): bits of `A1` at or above `n` are ignored. -/
def execSetbits (idx : Fin 8) (n : Fin 16) (s : State) : Host.Outcome State Fault Refusal :=
  if fieldInByte idx n then .next (s.accept.setR0 (word (setBits s.byteOperand idx n s.a1.toNat)))
  else .next (s.raiseOperand (.setbits idx n))

end Sys2Proof.Machine
end

