-- ==== Sys2Proof/Machine/TileCodec.lean ====
section
/-! DEFINITION. TileCodec (41_tilecodec.md): layout offsets, decode, encode, and `DECPIX`, `DECROW`, `DECTILE`,
`ENCROW`, `ENCTILE`. The pure functions take any depth; `row` and `col` are `Fin 8`, so that the case R150 gives no
meaning to cannot be written. -/

namespace Sys2Proof.Machine

/-- `off(p, y, bpp, layout)`: the place in a tile of the row-byte of plane `p` and row `y` (R141, R142). -/
def planeOffset (p y bpp : Nat) : Layout → Nat
  | .planar => y + 8 * p
  | .interleaved =>
    if bpp % 2 = 1 ∧ p + 1 = bpp then bpp / 2 * 16 + y
    else p / 2 * 16 + 2 * y + p % 2

/-- Bytes of one packed tile, `tileBytes(bpp)` (R7, R170). -/
def tileBytes (bpp : Nat) : Nat := bpp * 8

/-- `decodePixel(t, row, col, bpp, layout)` (R144), of a tile given by its bytes. -/
def decodePixel (t : Nat → Byte) (row col : Fin 8) (bpp : Nat) (layout : Layout) : Nat :=
  sumBelow bpp fun p => getBit (t (planeOffset p row bpp layout)).toNat (7 - col.val) <<< p

/-- `encodeRow(px, bpp)[p]` (R147), of a row given by its 8 pixels. -/
def encodeRow (px : Fin 8 → Byte) (p : Nat) : Nat :=
  sumBelow 8 fun c => getBit (px (Fin.ofNat 8 c)).toNat p <<< (7 - c)

/-- The (row, plane) pairs in the order `encodeTile` scatters them (R148). -/
def scatterOrder (bpp : Nat) : List (Fin 8 × Nat) :=
  (List.finRange 8).flatMap fun y => (List.range bpp).map fun p => (y, p)

/-- `encodeTile(g, bpp, layout)` (R148): every row-byte scattered to its place, by the rule decode reads it back
with. -/
def encodeTile (g : Fin 8 → Fin 8 → Byte) (bpp : Nat) (layout : Layout) : List Byte :=
  (scatterOrder bpp).foldl (fun t yp => t.set (planeOffset yp.2 yp.1 bpp layout) (byte (encodeRow (g yp.1) yp.2)))
    (List.replicate (tileBytes bpp) 0)

/-- Byte `k` of `TILE`. -/
def State.tileByte (s : State) (k : Nat) : Byte := if h : k < 64 then s.tile[k] else 0

/-- `GRID[r][c] = GRID[8r + c]` (R39). -/
def State.gridAt (s : State) (r c : Fin 8) : Byte := s.grid[8 * r.val + c.val]

/-- Row of the element `k` of `GRID` (R39). -/
def gridRow (k : Fin 64) : Fin 8 := ⟨k.val / 8, by omega⟩

/-- Column of the element `k` of `GRID` (R39). -/
def gridCol (k : Fin 64) : Fin 8 := ⟨k.val % 8, by omega⟩

/-- `TILE[k] <- t[k]` for `k` below `BPP × 8`, where `t = encodeTile(GRID, BPP, LAYOUT)` (R155, R183). -/
def State.encodeGrid (s : State) : State :=
  s.setTile (tileBytes s.depth) fun k => (encodeTile s.gridAt s.depth s.layout).getD k.val 0

/-- `DECPIX row, col` (R151). -/
def execDecpix (row col : Fin 8) (s : State) : Host.Outcome State Fault Refusal :=
  .next (s.accept.withDepth fun s => s.setR0 (word (decodePixel s.tileByte row col s.depth s.layout)))

/-- `DECROW row` (R152). -/
def execDecrow (row : Fin 8) (s : State) : Host.Outcome State Fault Refusal :=
  .next (s.accept.withDepth fun s => s.setRow fun c => byte (decodePixel s.tileByte row c s.depth s.layout))

/-- `DECTILE` (R153). -/
def execDectile (s : State) : Host.Outcome State Fault Refusal :=
  .next (s.accept.withDepth fun s =>
    s.setGrid fun k => byte (decodePixel s.tileByte (gridRow k) (gridCol k) s.depth s.layout))

/-- `ENCROW` (R154): elements of `PLANE` at or above `BPP` stay, and `LAYOUT` is not read. -/
def execEncrow (s : State) : Host.Outcome State Fault Refusal :=
  .next (s.accept.withDepth fun s => s.setPlane s.depth fun p => byte (encodeRow (fun c => s.row[c]) p))

/-- `ENCTILE` (R155): elements of `TILE` at or above `BPP × 8` stay. -/
def execEnctile (s : State) : Host.Outcome State Fault Refusal :=
  .next (s.accept.withDepth fun s => s.encodeGrid)

end Sys2Proof.Machine
end

