-- ==== Sys2Proof/Machine/PlaneStream.lean ====
section
/-! DEFINITION. PlaneStream (42_planestream.md): the pure functions of both directions, `TOIDX`, `TORGBA`, `TOCHR`,
and the controller that builds one unit and waits (R185, R186). -/

namespace Sys2Proof.Machine

/-! ### Decode direction (R170 to R174) -/

/-- `avail(T)`: bytes of the segment of tile-row `T` in a buffer of `len` bytes (R171). -/
def availableBytes (len T bpp : Nat) : Nat := min (rowBytes bpp) (len - T * rowBytes bpp)

/-- `numTiles(T)`: real tiles of tile-row `T` (R172). -/
def numTiles (len T bpp : Nat) : Nat := availableBytes len T bpp / tileBytes bpp

/-- Element `x = 8s + c` of `scanline(buf, len, T, y, bpp, layout)` (R173): slot `s`, column `c`. -/
def scanlineIndex (buf : Nat → Byte) (len T : Nat) (y : Fin 8) (bpp : Nat) (layout : Layout) (x : Nat) : Nat :=
  if x / 8 < numTiles len T bpp then
    decodePixel (fun k => buf (T * rowBytes bpp + x / 8 * tileBytes bpp + k)) y (Fin.ofNat 8 x) bpp layout
  else 0

/-- `NT` tile-rows of 8 scanlines (R171, R174). -/
def scanlineCount (len bpp : Nat) : Nat := 8 * ceilDiv len (rowBytes bpp)

/-- Unit `k` of the decode direction: tile-row `k div 8`, scanline `k mod 8` (R23, R174). -/
def unitScanline (buf : Nat → Byte) (len k bpp : Nat) (layout : Layout) (x : Nat) : Nat :=
  scanlineIndex buf len (k / 8) (Fin.ofNat 8 k) bpp layout x

/-! ### Encode direction (R177 to R179) -/

/-- `width % 8 == 0 && height % 8 == 0` (R177). -/
def dimensionsValid (width height : Nat) : Bool := width % 8 == 0 && height % 8 == 0

/-- Offset in a row-major image of the pixel of row `r`, column `c` of the tile at tile-row `ty`, tile column `tx`
(R178). -/
def pixelOffset (width ty tx : Nat) (r c : Fin 8) : Nat := (8 * ty + r.val) * width + 8 * tx + c.val

/-- `tw × th` tiles (R179). -/
def tileCount (width height : Nat) : Nat := width / 8 * (height / 8)

/-! ### Start of a stream command (R181 to R183) -/

/-- `TOIDX` and `TORGBA` past the `F_CONFIG` check (R181, R182). DESIGN CHOICE (log 21, unsafe): with `CHRLEN = 0` too
the start leaves `ENG = RUN`, and the engine step of R185 completes the command. -/
def State.startDecode (s : State) (kind : OutKind) : State :=
  let s := s.beginStream kind
  if s.capacity .chrmem < s.chrlen.toNat then s.raiseFault .bounds (Space.code .chrmem) else s.setEng .run

/-- `TOCHR` past the `F_CONFIG` check (R183): validation, then the bounds, products on unbounded naturals. DESIGN CHOICE
(log 21, unsafe): with no tile to encode too the start leaves `ENG = RUN`. -/
def State.startEncode (s : State) : State :=
  let s := s.beginStream .tile
  if dimensionsValid s.width.toNat s.height.toNat then
    if s.pixlen.toNat < s.width.toNat * s.height.toNat ∨ s.capacity .pixmem < s.pixlen.toNat then
      s.raiseFault .bounds (Space.code .pixmem)
    else s.setEng .run
  else s.setVerr.emit (.validationFailure s.width s.height)

/-- `TOIDX` (R181). -/
def execToidx (s : State) : Host.Outcome State Fault Refusal :=
  .next (s.accept.withDepth fun s => s.startDecode .scan)

/-- `TORGBA` (R182). -/
def execTorgba (s : State) : Host.Outcome State Fault Refusal :=
  .next (s.accept.withDepth fun s => s.startDecode .cscan)

/-- `TOCHR` (R183). -/
def execTochr (s : State) : Host.Outcome State Fault Refusal :=
  .next (s.accept.withDepth fun s => s.startEncode)

/-! ### Units (R181 to R183) -/

/-- `SCAN[x] <- scanline(CHRMEM, CHRLEN, T, y, BPP, LAYOUT)[x]` for the unit `OUTCNT` (R181, R182). -/
def State.buildScanline (s : State) : State :=
  s.setScan fun x => byte (unitScanline s.chrmem.read s.chrlen.toNat s.outcnt.toNat s.depth s.layout x.val)

/-- `TOIDX`'s unit (R181). -/
def State.unitIdx (s : State) : State :=
  let s := s.buildScanline
  s.emit (.scanline s.scan.toList)

/-- The lowest element of `SCAN` whose index is not below `PALSIZE` (R182). -/
def State.firstBadIndex (s : State) : Option (Fin 128) :=
  (List.finRange 128).find? fun x => !(s.scan[x].toNat < s.palsize.val)

/-- `CSCAN[x] <- PAL[SCAN[x]]` for `x < n` (R182). -/
def State.colourScanline (s : State) (n : Nat) : State :=
  s.setCscan n fun x => (s.lookupByIndex s.scan[x].toNat).getD 0

/-- `TORGBA`'s unit (R182): the first index not below `PALSIZE` faults, with the elements before it converted. -/
def State.unitRgba (s : State) : State :=
  let s := s.buildScanline
  match s.firstBadIndex with
  | some x => (s.colourScanline x.val).raiseFault .palidx s.scan[x].toNat
  | none =>
    let s := s.colourScanline 128
    s.emit (.rgbaScanline (s.cscan.toList.map Color.unpack))

/-- `GRID[8r + c] <- MemRead(PIXMEM, (8×ty + r) × WIDTH + 8×tx + c)` for the unit `OUTCNT` (R183). -/
def State.loadBlock (s : State) : State :=
  let tw := s.width.toNat / 8
  s.setGrid fun k =>
    s.pixmem.read (pixelOffset s.width.toNat (s.outcnt.toNat / tw) (s.outcnt.toNat % tw) (gridRow k) (gridCol k))

/-- `TOCHR`'s unit (R183). -/
def State.unitChr (s : State) : State :=
  let s := s.loadBlock.encodeGrid
  s.emit (.tileBytes (s.tile.toList.take (tileBytes s.depth)))

/-- `unit(OUTCNT)` of the command named by `OUTKIND` (R185). No stream command runs with `OUTKIND` none. -/
def State.buildUnit (s : State) : State :=
  match s.outkind with
  | .none => s
  | .scan => s.unitIdx
  | .cscan => s.unitRgba
  | .tile => s.unitChr

/-- `N`, recomputed from the registers at each step (R185). -/
def State.unitTotal (s : State) : Nat :=
  match s.outkind with
  | .none => 0
  | .scan => scanlineCount s.chrlen.toNat s.depth
  | .cscan => scanlineCount s.chrlen.toNat s.depth
  | .tile => tileCount s.width.toNat s.height.toNat

/-! ### The controller (R185, R186) -/

/-- After `unit(OUTCNT)`: `OUTCNT <- OUTCNT + 1; ENG <- WAIT`, unless the unit raised a fault (R182, R185, R255). -/
def State.finishUnit (s : State) : State :=
  if s.eng = .fault then s else { s with outcnt := s.outcnt + 1, eng := .wait }

/-- The engine's turn (R185): with `ENG = RUN`, a unit or the completion; in any other state no engine step is
enabled and nothing changes. -/
def State.engineTurn (s : State) : State :=
  match s.eng with
  | .run =>
    if s.outcnt.toNat < s.unitTotal then s.buildUnit.finishUnit
    else if s.outcnt.toNat = s.unitTotal then s.setEng .idle
    else s
  | .idle => s
  | .wait => s
  | .fault => s

/-- A write to `ACK` (R36, R186): in `WAIT` the pending unit is acknowledged; in any other state nothing changes. -/
def State.acknowledge (s : State) : State :=
  match s.eng with
  | .wait => s.setEng .run
  | .idle => s
  | .run => s
  | .fault => s

end Sys2Proof.Machine
end

