-- ==== Sys2Proof/Machine/Dispatch.lean ====
section
/-! DEFINITION. One arm per command of the opcode map (R104). -/

namespace Sys2Proof.Machine

def exec (i : Instr) (s : State) : Host.Outcome State Fault Refusal :=
  match i with
  | .getbit idx => Sys2Proof.Machine.execGetbit idx s
  | .setbit idx => Sys2Proof.Machine.execSetbit idx s
  | .getbits idx n => Sys2Proof.Machine.execGetbits idx n s
  | .setbits idx n => Sys2Proof.Machine.execSetbits idx n s
  | .decpix row col => Sys2Proof.Machine.execDecpix row col s
  | .decrow row => Sys2Proof.Machine.execDecrow row s
  | .dectile => Sys2Proof.Machine.execDectile s
  | .encrow => Sys2Proof.Machine.execEncrow s
  | .enctile => Sys2Proof.Machine.execEnctile s
  | .toidx => Sys2Proof.Machine.execToidx s
  | .torgba => Sys2Proof.Machine.execTorgba s
  | .tochr => Sys2Proof.Machine.execTochr s
  | .reqh => Sys2Proof.Machine.execReqh s
  | .defpal => Sys2Proof.Machine.execDefpal s
  | .palcommit => Sys2Proof.Machine.execPalcommit s
  | .lookup => Sys2Proof.Machine.execLookup s
  | .find => Sys2Proof.Machine.execFind s
  | .colch ch => Sys2Proof.Machine.execColch ch s
  | .pix2idx ch => Sys2Proof.Machine.execPix2idx ch s
  | .idx2col => Sys2Proof.Machine.execIdx2col s

end Sys2Proof.Machine
end

