-- ==== Sys2Proof/Machine/Port.lean ====
section
/-! DEFINITION. The register port (R48 to R50), the issue of a command (R100), and the moves of the host and the
platform (R35, R36, R45, R257, R280). -/

namespace Sys2Proof.Machine

/-- The entries of the register map (R48). -/
inductive PortEntry where
  | cmd
  | status
  | ack
  | cause
  | finfo
  | bpp
  | layout
  | palsize
  | misscnt
  | outcnt
  | chrlen
  | pixlen
  | rawlen
  | collen
  | width
  | height
  | a0
  | a1
  | r0
  | tile (k : Fin 64)
  | grid (j : Fin 64)
  | row (c : Fin 8)
  | plane (p : Fin 8)
  | scan (x : Fin 128)
  | cscan (x : Fin 128)
  | pal (i : Fin 256)
deriving DecidableEq, Repr

/-- The register entry of a word offset below 0x100 (R48); `n` is the offset divided by 4. -/
def registerEntry : Nat → Option PortEntry
  | 0x00 => some .cmd
  | 0x01 => some .status
  | 0x02 => some .ack
  | 0x03 => some .cause
  | 0x04 => some .finfo
  | 0x05 => some .bpp
  | 0x06 => some .layout
  | 0x07 => some .palsize
  | 0x08 => some .misscnt
  | 0x09 => some .outcnt
  | 0x0A => some .chrlen
  | 0x0B => some .pixlen
  | 0x0C => some .rawlen
  | 0x0D => some .collen
  | 0x0E => some .width
  | 0x0F => some .height
  | 0x10 => some .a0
  | 0x11 => some .a1
  | 0x12 => some .r0
  | _ => none

/-- The entry at an offset (R48): none for an unmapped offset and for one that is not a multiple of 4 (R49, R50). -/
def portEntry (offset : Word) : Option PortEntry :=
  let o := offset.toNat
  let n := o / 4
  if o % 4 ≠ 0 then none
  else if o < 0x100 then registerEntry n
  else if o < 0x200 then some (.tile (Fin.ofNat 64 (n - 0x40)))
  else if o < 0x300 then some (.grid (Fin.ofNat 64 (n - 0x80)))
  else if o < 0x320 then some (.row (Fin.ofNat 8 (n - 0xC0)))
  else if o < 0x340 then some (.plane (Fin.ofNat 8 (n - 0xC8)))
  else if o < 0x400 then none
  else if o < 0x600 then some (.scan (Fin.ofNat 128 (n - 0x100)))
  else if o < 0x800 then some (.cscan (Fin.ofNat 128 (n - 0x180)))
  else if o < 0xC00 then some (.pal (Fin.ofNat 256 (n - 0x200)))
  else none

/-- `zext_32` of a byte (R50). -/
def zextByte (b : Byte) : Word := word b.toNat

/-- The number of `LAYOUT` (R26). -/
def Layout.code : Layout → Nat
  | .planar => 0
  | .interleaved => 1

/-- `LAYOUT` from the low bit of a word (R26, R50). -/
def Layout.ofWord (w : Word) : Layout := if w.toNat % 2 = 0 then .planar else .interleaved

/-- The value an entry reads as (R49, R50); the write-only `CMD` and `ACK` read 0. -/
def State.readEntry (s : State) : PortEntry → Word
  | .cmd => 0
  | .status => s.statusWord
  | .ack => 0
  | .cause => word s.cause.toNat
  | .finfo => s.finfo
  | .bpp => word s.bpp.toNat
  | .layout => word s.layout.code
  | .palsize => word s.palsize.val
  | .misscnt => s.misscnt
  | .outcnt => s.outcnt
  | .chrlen => s.chrlen
  | .pixlen => s.pixlen
  | .rawlen => s.rawlen
  | .collen => s.collen
  | .width => s.width
  | .height => s.height
  | .a0 => s.a0
  | .a1 => s.a1
  | .r0 => s.r0
  | .tile k => zextByte s.tile[k]
  | .grid j => zextByte s.grid[j]
  | .row c => zextByte s.row[c]
  | .plane p => zextByte s.plane[p]
  | .scan x => zextByte s.scan[x]
  | .cscan x => s.cscan[x]
  | .pal i => s.pal[i]

/-- A host read of the port (R49): 0 at an unmapped or misaligned offset. -/
def State.readPort (s : State) (offset : Word) : Word :=
  match portEntry offset with
  | some e => s.readEntry e
  | none => 0

/-- A host write that an idle engine admits (R50): the entry takes `trunc_N(w)`; a read-only entry ignores it. `CMD`
and `ACK` hold no value. -/
def State.storeEntry (s : State) (w : Word) : PortEntry → State
  | .cmd => s
  | .status => s
  | .ack => s
  | .cause => s
  | .finfo => s
  | .bpp => { s with bpp := BitVec.ofNat 4 w.toNat }
  | .layout => { s with layout := Layout.ofWord w }
  | .palsize => s
  | .misscnt => s
  | .outcnt => s
  | .chrlen => { s with chrlen := w }
  | .pixlen => { s with pixlen := w }
  | .rawlen => { s with rawlen := w }
  | .collen => s
  | .width => { s with width := w }
  | .height => { s with height := w }
  | .a0 => { s with a0 := w }
  | .a1 => { s with a1 := w }
  | .r0 => s
  | .tile k => { s with tile := s.tile.set k (byte w.toNat) }
  | .grid j => { s with grid := s.grid.set j (byte w.toNat) }
  | .row c => { s with row := s.row.set c (byte w.toNat) }
  | .plane _ => s
  | .scan _ => s
  | .cscan _ => s
  | .pal i => { s with pal := s.pal.set i w }

/-- Issue of a command word on an idle engine (R100): decode, or `Fault(F_ILLCMD, w)`; the later checks are the
command's. -/
def issue (w : Word) (s : State) : Host.Outcome State Fault Refusal :=
  match decode w with
  | .command i => exec i s
  | .illegal _ => .next (s.raiseFault .illcmd w.toNat)

/-- A host write of the port while the engine is idle (R35, R50). -/
def writeIdle (offset w : Word) (s : State) : Host.Outcome State Fault Refusal :=
  match portEntry offset with
  | some .cmd => issue w s
  | some e => .next (s.storeEntry w e)
  | none => .next s

/-- A host write of the port while a stream command is in progress (R36, R257): `ACK` acknowledges, anything else is
`F_BUSY` and does not take effect. -/
def writeBusy (offset : Word) (s : State) : Host.Outcome State Fault Refusal :=
  match portEntry offset with
  | some .ack => .next s.acknowledge
  | _ => .next (s.raiseFault .busy offset.toNat)

/-- A host write of the port (check 0 of R262). In `FAULT` every write is ignored (R50, R258). -/
def writePort (offset w : Word) (s : State) : Host.Outcome State Fault Refusal :=
  match s.eng with
  | .idle => writeIdle offset w s
  | .run => writeBusy offset s
  | .wait => writeBusy offset s
  | .fault => .next s

/-- A host write of a byte of an external memory (R45, R84, R286), `COLMEM` among them (log 17). -/
def hostWriteByte (space : Space) (offset : Nat) (v : Byte) (s : State) : Host.Outcome State Fault Refusal :=
  if s.eng ≠ .idle then .refused .hostMemoryWriteOutsideIdle
  else if offset < s.capacity space then .next (s.writeByte space offset v)
  else .fault (.noSuchByte space offset)

/-- What a host read leaves: the value joins the end of the values read (log 12); the block is unchanged (R49). -/
def State.record (s : State) (w : Word) : State := { s with reads := s.reads ++ [w] }

/-- A host read of a byte of an external memory (R45, R49). -/
def hostReadByte (space : Space) (offset : Nat) (s : State) : Host.Outcome State Fault Refusal :=
  if offset < s.capacity space then .next (s.record (zextByte ((s.memory space).read offset)))
  else .fault (.noSuchByte space offset)

/-- One move of the world outside the engine (R6, R262). -/
def takeMove (m : HostMove) (s : State) : Host.Outcome State Fault Refusal :=
  match m with
  | .write offset w => writePort offset w s
  | .read offset => .next (s.record (s.readPort offset))
  | .memWrite space offset v => hostWriteByte space offset v s
  | .memRead space offset => hostReadByte space offset s
  | .reset => .next s.resetInput
  | .engine => .next s.engineTurn

end Sys2Proof.Machine
end

