-- ==== Sys2Proof/Machine/Step.lean ====
section
/-! DEFINITION. One step of the machine: the next move of the host or the platform if one is waiting, else the
engine's turn (R5, R6, R262; log 1). A move that waits behind the write of a stream command comes before the engine's
next step, so that a host can see `BUSY = 1` of a command with no unit (log 21). -/

namespace Sys2Proof.Machine

def step (s : State) : Host.Outcome State Fault Refusal :=
  match s.host with
  | m :: rest => takeMove m { s with host := rest }
  | [] => .next s.engineTurn

/-- The state in which the very next step issues that command word: the engine idle, and a write of the word to `CMD`
(offset 0, R35) the next move (log 2). -/
def State.withFetchWord (s : State) (nbits w : Nat) : State :=
  { s with eng := .idle, host := .write 0 (commandWord nbits w) :: s.host }

end Sys2Proof.Machine
end

