-- ==== Sys2Proof/Safety.lean ====
section
/-! DEFINITION. What counts as a safe state of the block: the invariant that reset has and every step keeps. -/

namespace Sys2Proof.Machine

/-- The events the engine can emit: a scanline of 128 values (R42, R43), a tile of a supported depth (R11), a
validation failure of dimensions that are not both multiples of 8 (R177), any palette miss (R260). -/
def Event.legal : Event → Prop
  | .scanline v => v.length = 128
  | .rgbaScanline v => v.length = 128
  | .tileBytes t => ∃ bpp, depthSupported bpp ∧ t.length = bpp * 8
  | .validationFailure w h => ¬(w.toNat % 8 = 0 ∧ h.toNat % 8 = 0)
  | .paletteMiss _ _ => True

/-- The start checks of the stream command named by `OUTKIND`, which hold as long as it runs: the registers it reads
cannot change (R47, R181 to R183). -/
def State.streamReady (s : State) : Prop :=
  depthSupported s.depth ∧
    match s.outkind with
    | .none => False
    | .scan => s.chrlen.toNat ≤ s.capacity .chrmem
    | .cscan => s.chrlen.toNat ≤ s.capacity .chrmem
    | .tile => s.width.toNat % 8 = 0 ∧ s.height.toNat % 8 = 0 ∧
        s.width.toNat * s.height.toNat ≤ s.pixlen.toNat ∧ s.pixlen.toNat ≤ s.capacity .pixmem

/-- The memory of a space is in canonical form and lists nothing at or above its capacity (R45). -/
def State.memorySafe (s : State) (space : Space) : Prop :=
  (s.memory space).wf ∧ ∀ c ∈ s.memory space, c.1 < s.capacity space

/-- The invariant of the block. -/
structure State.Inv (s : State) : Prop where
  /-- Every external memory is canonical and inside its capacity (R45). -/
  memories : ∀ space, s.memorySafe space
  /-- `PALSIZE` is the empty palette's size or that of a supported depth (R27, R213). -/
  palsize : s.palsize.val ∈ [0, 4, 8, 16, 256]
  /-- `CAUSE = 0` means no fault has been raised since reset (R34, R258). -/
  cause : s.cause ≠ 0 ↔ s.eng = .fault
  /-- `CAUSE` is a code of R251. -/
  causeCode : s.cause.toNat ≤ 6
  /-- While a stream command is in progress its start checks hold (R47). -/
  stream : s.busy → s.streamReady
  /-- While a stream command is in progress `OUTCNT` is at most the number of its units (R37, R185). -/
  count : s.busy → s.outcnt.toNat ≤ s.unitTotal
  /-- A pending unit has been counted (R185). -/
  pending : s.outv → 0 < s.outcnt.toNat
  /-- `VERR`: the last accepted command was a `TOCHR` that emitted nothing and does not run (R24, R177). -/
  verr : s.verr → s.outkind = .tile ∧ s.outcnt = 0 ∧ s.busy = false
  /-- `NOTFOUND`: `R0` still holds what `FIND` left there (R223), and nothing runs. -/
  notfound : s.notfound → s.r0 = 0xFFFFFFFF ∧ s.busy = false
  /-- `VERR` and `NOTFOUND` describe one and the same last accepted command (R24). -/
  flags : ¬(s.verr ∧ s.notfound)
  /-- `OUT` holds only events the engine can emit (R46). -/
  events : ∀ e ∈ s.out, e.legal

end Sys2Proof.Machine
end

