-- ==== Sys2Proof/Certificates/Slice0/Obligations.lean ====
section
/-! DEFINITION. The statements for the provers. Each says which rule of spec/ it formalises. Where a statement says
that a command answers a next state, the next state is written as the old state with the fields the rules name, so
that everything else is its frame. -/

open Sys2Proof Sys2Proof.Machine

namespace Sys2Proof.Rules

/-- `bpp ∈ {2, 3, 4, 8}` (R2, R7). -/
abbrev supported (bpp : Nat) : Prop := bpp = 2 ∨ bpp = 3 ∨ bpp = 4 ∨ bpp = 8

/-- The state after acceptance and `raise Fault(cause, info)` (R100, R255): what `F_CONFIG` and `F_BOUNDS` and
`F_PALIDX` leave of a state that nothing else has changed. -/
abbrev faulted (s : State) (cause : BitVec 8) (info : Nat) : State :=
  { s with verr := false, notfound := false, eng := .fault, cause := cause, finfo := BitVec.ofNat 32 info }

/-- The state after `raise Fault(F_OPERAND, w)`, before acceptance (R252). -/
abbrev operandFault (s : State) (w : Nat) : State :=
  { s with eng := .fault, cause := 2, finfo := BitVec.ofNat 32 w }

/-- The commands that read `BPP` and require a supported depth (R251, row `F_CONFIG`). -/
abbrev needsDepth : Instr → Prop
  | .decpix _ _ | .decrow _ | .dectile | .encrow | .enctile | .toidx | .torgba | .tochr | .reqh | .palcommit => True
  | .getbit _ | .setbit _ | .getbits _ _ | .setbits _ _ | .defpal | .lookup | .find | .colch _ | .pix2idx _
  | .idx2col => False

/-- The stream commands (R13). -/
abbrev isStream : Instr → Prop
  | .toidx | .torgba | .tochr => True
  | .getbit _ | .setbit _ | .getbits _ _ | .setbits _ _ | .decpix _ _ | .decrow _ | .dectile | .encrow | .enctile
  | .reqh | .defpal | .palcommit | .lookup | .find | .colch _ | .pix2idx _ | .idx2col => False

/-- `v` is the scanline of unit `OUTCNT` (R171 to R173): tile-row `T = OUTCNT div 8`, scanline `y = OUTCNT mod 8`;
in a real slot bit `p` of the index at column `c` is bit `7 − c` of the row-byte of plane `p`; elsewhere it is 0. -/
def isScanline (s : State) (v : Vector Byte 128) : Prop :=
  ∀ (slot : Fin 16) (c : Fin 8) (p : Nat),
    v[8 * slot.val + c.val].getLsbD p =
      (decide (slot.val < min (128 * s.bpp.toNat) (s.chrlen.toNat - s.outcnt.toNat / 8 * (128 * s.bpp.toNat))
          / (8 * s.bpp.toNat))
        && decide (p < s.bpp.toNat)
        && (s.chrmem.read (s.outcnt.toNat / 8 * (128 * s.bpp.toNat) + slot.val * (8 * s.bpp.toNat)
              + planeOffset p (s.outcnt.toNat % 8) s.bpp.toNat s.layout)).getLsbD (7 - c.val))

/-- The number of scanlines of a stream, `8 × ceil(CHRLEN / (128 × BPP))` (R181). -/
abbrev scanlines (s : State) : Nat := 8 * ((s.chrlen.toNat + 128 * s.bpp.toNat - 1) / (128 * s.bpp.toNat))

/-- The number of tiles, `(WIDTH div 8) × (HEIGHT div 8)` (R183). -/
abbrev tiles (s : State) : Nat := s.width.toNat / 8 * (s.height.toNat / 8)

/-- `t` holds, in its first `BPP × 8` bytes, the tile of the grid `g` (R147, R148), and `old` elsewhere. -/
def isTileOf (bpp : Nat) (layout : Layout) (g t old : Vector Byte 64) : Prop :=
  (∀ (p : Nat) (r c : Fin 8) (k : Fin 64), p < bpp → k.val = planeOffset p r.val bpp layout →
    t[k].getLsbD (7 - c.val) = g[8 * r.val + c.val].getLsbD p) ∧
  ∀ k : Fin 64, bpp * 8 ≤ k.val → t[k] = old[k]

/-- `g` holds the 8×8 block of pixels of tile `k` in row-major order of tiles (R178): tile-row `k div tw`, tile column
`k mod tw`, where `tw = WIDTH div 8`. -/
def isBlock (s : State) (k : Nat) (g : Vector Byte 64) : Prop :=
  ∀ r c : Fin 8, g[8 * r.val + c.val] =
    s.pixmem.read ((8 * (k / (s.width.toNat / 8)) + r.val) * s.width.toNat + 8 * (k % (s.width.toNat / 8)) + c.val)

/-- The colour of raw pixel `k` at `ch` channels per pixel (R76, R212). -/
def rawPixel (s : State) (ch k : Nat) : Color :=
  if ch = 1 then ⟨s.rawmem.read k, s.rawmem.read k, s.rawmem.read k, 255⟩
  else if ch = 3 then ⟨s.rawmem.read (3 * k), s.rawmem.read (3 * k + 1), s.rawmem.read (3 * k + 2), 255⟩
  else ⟨s.rawmem.read (4 * k), s.rawmem.read (4 * k + 1), s.rawmem.read (4 * k + 2), s.rawmem.read (4 * k + 3)⟩

/-- The lowest index below `PALSIZE` whose entry is the colour `r, g, b, a` from the top byte down (R211, R217). -/
def lowestIndex (s : State) (c : Color) : Option Nat :=
  (List.range s.palsize.val).find? fun i => s.pal.toList[i]? == some (c.r ++ c.g ++ c.b ++ c.a)

/-- The palette misses of a `PIX2IDX` of `np` pixels, in pixel order (R225). -/
def misses (s : State) (ch np : Nat) : List Event :=
  (List.range np).filterMap fun k =>
    if lowestIndex s (rawPixel s ch k) = none then some (.paletteMiss k (rawPixel s ch k)) else none

/-- The width of the entry at an offset, if the host can write it (R48, columns "width" and "host"). -/
def writableWidth (o : Nat) : Option Nat :=
  if o % 4 ≠ 0 then none
  else if o = 0x14 then some 4
  else if o = 0x18 then some 1
  else if o = 0x28 ∨ o = 0x2C ∨ o = 0x30 ∨ o = 0x38 ∨ o = 0x3C ∨ o = 0x40 ∨ o = 0x44 then some 32
  else if 0x100 ≤ o ∧ o < 0x320 then some 8
  else if 0x800 ≤ o ∧ o < 0xC00 then some 32
  else none

/-- `t` is `s` with the writable entry at offset `o` holding `trunc_N(w)` and nothing else changed (R48, R50), entry by
entry. -/
def storedAt (s : State) (o : Nat) (w : Word) (t : State) : Prop :=
  (o = 0x14 → t = { s with bpp := BitVec.ofNat 4 (w.toNat % 2 ^ 4) }) ∧
  (o = 0x18 → t = { s with layout := if w.toNat % 2 = 0 then .planar else .interleaved }) ∧
  (o = 0x28 → t = { s with chrlen := w }) ∧
  (o = 0x2C → t = { s with pixlen := w }) ∧
  (o = 0x30 → t = { s with rawlen := w }) ∧
  (o = 0x38 → t = { s with width := w }) ∧
  (o = 0x3C → t = { s with height := w }) ∧
  (o = 0x40 → t = { s with a0 := w }) ∧
  (o = 0x44 → t = { s with a1 := w }) ∧
  (∀ k : Fin 64, o = 0x100 + 4 * k.val → t = { s with tile := s.tile.set k (BitVec.ofNat 8 (w.toNat % 2 ^ 8)) }) ∧
  (∀ j : Fin 64, o = 0x200 + 4 * j.val → t = { s with grid := s.grid.set j (BitVec.ofNat 8 (w.toNat % 2 ^ 8)) }) ∧
  (∀ c : Fin 8, o = 0x300 + 4 * c.val → t = { s with row := s.row.set c (BitVec.ofNat 8 (w.toNat % 2 ^ 8)) }) ∧
  (∀ i : Fin 256, o = 0x800 + 4 * i.val → t = { s with pal := s.pal.set i w })

/-- `w` is the word `STATUS` reads as, bit by bit (R24). -/
def isStatus (s : State) (w : Word) : Prop :=
  w.getLsbD 0 = decide (s.eng = .run ∨ s.eng = .wait) ∧ w.getLsbD 1 = decide (s.eng = .fault) ∧
  w.getLsbD 2 = decide (s.eng = .wait) ∧ w.getLsbD 3 = s.verr ∧ w.getLsbD 4 = s.notfound ∧
  (w.extractLsb' 5 2).toNat = (match s.outkind with | .none => 0 | .scan => 1 | .cscan => 2 | .tile => 3) ∧
  w.toNat < 2 ^ 7

/-- `v` is what a host read of offset `o` returns (R48 to R50): `zext_32` of the entry there, or 0 where no entry
stands, where the offset is not a multiple of 4, and for the write-only `CMD` and `ACK`. -/
def readAs (s : State) (o : Nat) (v : Word) : Prop :=
  (o = 0x04 → isStatus s v) ∧
  (o = 0x0C → v.toNat = s.cause.toNat) ∧
  (o = 0x10 → v = s.finfo) ∧
  (o = 0x14 → v.toNat = s.bpp.toNat) ∧
  (o = 0x18 → v.toNat = (match s.layout with | .planar => 0 | .interleaved => 1)) ∧
  (o = 0x1C → v.toNat = s.palsize.val) ∧
  (o = 0x20 → v = s.misscnt) ∧
  (o = 0x24 → v = s.outcnt) ∧
  (o = 0x28 → v = s.chrlen) ∧
  (o = 0x2C → v = s.pixlen) ∧
  (o = 0x30 → v = s.rawlen) ∧
  (o = 0x34 → v = s.collen) ∧
  (o = 0x38 → v = s.width) ∧
  (o = 0x3C → v = s.height) ∧
  (o = 0x40 → v = s.a0) ∧
  (o = 0x44 → v = s.a1) ∧
  (o = 0x48 → v = s.r0) ∧
  (∀ k : Fin 64, o = 0x100 + 4 * k.val → v.toNat = s.tile[k].toNat) ∧
  (∀ j : Fin 64, o = 0x200 + 4 * j.val → v.toNat = s.grid[j].toNat) ∧
  (∀ c : Fin 8, o = 0x300 + 4 * c.val → v.toNat = s.row[c].toNat) ∧
  (∀ p : Fin 8, o = 0x320 + 4 * p.val → v.toNat = s.plane[p].toNat) ∧
  (∀ x : Fin 128, o = 0x400 + 4 * x.val → v.toNat = s.scan[x].toNat) ∧
  (∀ x : Fin 128, o = 0x600 + 4 * x.val → v = s.cscan[x]) ∧
  (∀ i : Fin 256, o = 0x800 + 4 * i.val → v = s.pal[i]) ∧
  (o = 0 ∨ o = 8 ∨ o % 4 ≠ 0 ∨ 0xC00 ≤ o ∨ (0x4C ≤ o ∧ o < 0x100) ∨ (0x340 ≤ o ∧ o < 0x400) → v = 0)

/-- The engine's turn is next and `rest` are the moves left after it: the host lets the engine take its step while
other moves wait, or no move is waiting (log 1). -/
abbrev engineNext (s : State) (rest : List HostMove) : Prop :=
  s.host = .engine :: rest ∨ (s.host = [] ∧ rest = [])

/-- The moves of a host that acknowledges each of `n` units and then lets the engine finish (R186). -/
def acknowledgeAll (n : Nat) : List HostMove :=
  (List.replicate n [HostMove.engine, .write 8 0]).flatten ++ [.engine]

end Sys2Proof.Rules

open Sys2Proof.Rules

/-! ### Encoding (30_encoding.md) -/

/-- R103, R104: the words of R107 and 95_test_vectors.md decode to the commands the spec assembles them from. -/
def Obligations.SpecWordsDecode : Prop :=
  decode 0x00010212 = .command (.getbits 2 4) ∧ decode 0x00000610 = .command (.getbit 6) ∧
  decode 0x00002B20 = .command (.decpix 3 5) ∧ decode 0x00000521 = .command (.decrow 5) ∧
  decode 0x00000030 = .command .toidx ∧ decode 0x00000040 = .command .reqh ∧
  decode 0x0000C054 = .command (.colch 3) ∧ decode 0x00010055 = .command (.pix2idx 4)

/-- R104, R105: a word is a command's iff it is that command's assembled word, whatever its operand fields hold; so
decode of encode is the command, no word has two commands, and no bit of a word is dropped. -/
def Obligations.DecodeInvertsEncode : Prop :=
  ∀ (w : Word) (i : Instr), decode w = .command i ↔ w = encode i

/-- R105: the two ways a word is illegal: an `OP` no command has, or a listed `OP` with a bit its format does not
use. -/
def Obligations.IllegalWordsAreNamed : Prop :=
  ∀ w : Word, (∀ i : Instr, w ≠ encode i) →
    ((∃ i : Instr, w &&& 0xFF = encode i &&& 0xFF) → decode w = .illegal .unusedBitSet) ∧
    ((∀ i : Instr, w &&& 0xFF ≠ encode i &&& 0xFF) → decode w = .illegal .unlistedOperation)

/-! ### Issue (R35, R100, R262) -/

/-- R35, R100: with `ENG = IDLE`, a host write to `CMD` of a word that decodes runs exactly that command, on the state
without the move. -/
def Obligations.CmdWriteRunsDecodedCommand : Prop :=
  ∀ (s : State) (w : Word) (i : Instr) (rest : List HostMove),
    s.host = .write 0 w :: rest → s.eng = .idle → decode w = .command i → step s = exec i { s with host := rest }

/-- The host's own placement of a word makes the very next step run it (log 2, the model's choice of how a program
comes to run). -/
def Obligations.PlacedWordRunsNext : Prop :=
  ∀ (s : State) (nbits w : Nat) (i : Instr), decodeTableWord nbits w = some i →
    step (s.withFetchWord nbits w) = exec i { s with eng := .idle }

/-- R105, R252: an illegal word raises `Fault(F_ILLCMD, w)` and changes nothing else. -/
def Obligations.IllegalWordFaults : Prop :=
  ∀ (s : State) (w : Word) (rest : List HostMove),
    s.host = .write 0 w :: rest → s.eng = .idle → (∀ i : Instr, w ≠ encode i) →
      step s = .next { s with host := rest, eng := .fault, cause := 1, finfo := w }

/-- R253: every command of R251's `F_CONFIG` row, at an unsupported depth, raises `F_CONFIG` with the depth, and
nothing but the flags cleared at acceptance has changed. -/
def Obligations.UnsupportedDepthFaults : Prop :=
  ∀ (i : Instr) (s : State), needsDepth i → ¬supported s.bpp.toNat →
    exec i s = .next (faulted s 3 s.bpp.toNat)

/-- R24, R100, R252: acceptance clears `VERR` and `NOTFOUND`, which only `TOCHR` and `FIND` set again; a command whose
operand fields are out of range is not accepted and leaves both. -/
def Obligations.AcceptanceClearsResultFlags : Prop :=
  ∀ (i : Instr) (s t : State), exec i s = .next t →
    (i.wellFormed = true → (t.verr = true → i = .tochr) ∧ (t.notfound = true → i = .find)) ∧
    (i.wellFormed = false → t.verr = s.verr ∧ t.notfound = s.notfound ∧ t.cause = 2 ∧ t.finfo = encode i)

/-- No command ends a run: each answers a next state in every state, a fault of the block being a next state (R255,
R259). -/
def Obligations.EveryCommandAnswersNextState : Prop :=
  ∀ (i : Instr) (s : State), ∃ t, exec i s = .next t

/-! ### BitPacking (40_bitpacking.md) -/

/-- R124. -/
def Obligations.GetbitReadsOneBit : Prop :=
  ∀ (idx : Fin 8) (s : State),
    decode (BitVec.ofNat 32 (0x10 + idx.val * 2 ^ 8)) = .command (.getbit idx) ∧
    exec (.getbit idx) s =
      .next { s with verr := false, notfound := false, r0 := if s.a0.getLsbD idx.val then 1 else 0 }

/-- R125: the byte `A0[7:0]` with bit `idx` replaced by `A1[0]`; the result's other bits are the byte's. -/
def Obligations.SetbitWritesOneBit : Prop :=
  ∀ (idx : Fin 8) (s : State),
    decode (BitVec.ofNat 32 (0x11 + idx.val * 2 ^ 8)) = .command (.setbit idx) ∧
    ∃ r : Word, exec (.setbit idx) s = .next { s with verr := false, notfound := false, r0 := r } ∧
      ∀ j, r.getLsbD j = if j = idx.val then s.a1.getLsbD 0 else (decide (j < 8) && s.a0.getLsbD j)

/-- R126: the field of `n` bits at bit `idx`, or `F_OPERAND` for a field outside 1..8 or outside the byte. -/
def Obligations.GetbitsReadsField : Prop :=
  ∀ (idx : Fin 8) (n : Fin 16) (s : State),
    decode (BitVec.ofNat 32 (0x12 + idx.val * 2 ^ 8 + n.val * 2 ^ 14)) = .command (.getbits idx n) ∧
    (1 ≤ n.val ∧ n.val ≤ 8 ∧ idx.val + n.val ≤ 8 →
      ∃ r : Word, exec (.getbits idx n) s = .next { s with verr := false, notfound := false, r0 := r } ∧
        ∀ j, r.getLsbD j = (decide (j < n.val) && s.a0.getLsbD (idx.val + j))) ∧
    (¬(1 ≤ n.val ∧ n.val ≤ 8 ∧ idx.val + n.val ≤ 8) →
      exec (.getbits idx n) s = .next (operandFault s (0x12 + idx.val * 2 ^ 8 + n.val * 2 ^ 14)))

/-- R127: the byte with its field of `n` bits at bit `idx` replaced by the low `n` bits of `A1`, or `F_OPERAND`. -/
def Obligations.SetbitsWritesField : Prop :=
  ∀ (idx : Fin 8) (n : Fin 16) (s : State),
    decode (BitVec.ofNat 32 (0x13 + idx.val * 2 ^ 8 + n.val * 2 ^ 14)) = .command (.setbits idx n) ∧
    (1 ≤ n.val ∧ n.val ≤ 8 ∧ idx.val + n.val ≤ 8 →
      ∃ r : Word, exec (.setbits idx n) s = .next { s with verr := false, notfound := false, r0 := r } ∧
        ∀ j, r.getLsbD j = if idx.val ≤ j ∧ j < idx.val + n.val then s.a1.getLsbD (j - idx.val)
          else (decide (j < 8) && s.a0.getLsbD j)) ∧
    (¬(1 ≤ n.val ∧ n.val ≤ 8 ∧ idx.val + n.val ≤ 8) →
      exec (.setbits idx n) s = .next (operandFault s (0x13 + idx.val * 2 ^ 8 + n.val * 2 ^ 14)))

/-- R128, laws (a) to (d). -/
def Obligations.BitFieldLaws : Prop :=
  ∀ v i n x : Nat, v < 256 → i + n ≤ 8 → 1 ≤ n →
    getBits (setBits v i n x) i n = x % 2 ^ n ∧
    setBits v i n (getBits v i n) = v ∧
    (∀ j, ¬(i ≤ j ∧ j < i + n) → getBit (setBits v i n x) j = getBit v j) ∧
    getBit v i < 256 ∧ setBit v i x < 256 ∧ getBits v i n < 256 ∧ setBits v i n x < 256

/-! ### TileCodec (41_tilecodec.md) -/

/-- R141, R142, R143: the two layout formulas, and the place of a row-byte as a bijection from planes and rows onto
the bytes of the tile. -/
def Obligations.LayoutPlacesRowBytes : Prop :=
  ∀ bpp, 1 ≤ bpp →
    (∀ p y, p < bpp → y < 8 →
      planeOffset p y bpp .planar = y + 8 * p ∧
      planeOffset p y bpp .interleaved =
        if bpp % 2 = 1 ∧ p = bpp - 1 then bpp / 2 * 16 + y else p / 2 * 16 + 2 * y + p % 2) ∧
    ∀ layout, (∀ p y, p < bpp → y < 8 → planeOffset p y bpp layout < bpp * 8) ∧
      ∀ k, k < bpp * 8 → ∃ p y, (p < bpp ∧ y < 8 ∧ planeOffset p y bpp layout = k) ∧
        ∀ q z, q < bpp → z < 8 → planeOffset q z bpp layout = k → q = p ∧ z = y

/-- R151, with R144: bit `p` of the result is bit `7 − col` of the row-byte of plane `p` and row `row` of `TILE`. -/
def Obligations.DecpixDecodesOnePixel : Prop :=
  ∀ (row col : Fin 8) (s : State),
    decode (BitVec.ofNat 32 (0x20 + row.val * 2 ^ 8 + col.val * 2 ^ 11)) = .command (.decpix row col) ∧
    (supported s.bpp.toNat →
      ∃ r : Word, exec (.decpix row col) s = .next { s with verr := false, notfound := false, r0 := r } ∧
        r.toNat < 2 ^ s.bpp.toNat ∧
        ∀ (p : Nat) (k : Fin 64), p < s.bpp.toNat → k.val = planeOffset p row.val s.bpp.toNat s.layout →
          r.getLsbD p = s.tile[k].getLsbD (7 - col.val)) ∧
    (¬supported s.bpp.toNat → exec (.decpix row col) s = .next (faulted s 3 s.bpp.toNat))

/-- R152: `ROW` receives the eight pixels of the row, and nothing else is written. -/
def Obligations.DecrowFillsRow : Prop :=
  ∀ (row : Fin 8) (s : State),
    decode (BitVec.ofNat 32 (0x21 + row.val * 2 ^ 8)) = .command (.decrow row) ∧
    (supported s.bpp.toNat →
      ∃ v : Vector Byte 8, exec (.decrow row) s = .next { s with verr := false, notfound := false, row := v } ∧
        ∀ c : Fin 8, v[c].toNat < 2 ^ s.bpp.toNat ∧
          ∀ (p : Nat) (k : Fin 64), p < s.bpp.toNat → k.val = planeOffset p row.val s.bpp.toNat s.layout →
            v[c].getLsbD p = s.tile[k].getLsbD (7 - c.val)) ∧
    (¬supported s.bpp.toNat → exec (.decrow row) s = .next (faulted s 3 s.bpp.toNat))

/-- R153: `GRID` receives the 64 pixels of the tile, and nothing else is written. -/
def Obligations.DectileFillsGrid : Prop :=
  ∀ s : State,
    decode 0x22 = .command .dectile ∧
    (supported s.bpp.toNat →
      ∃ g : Vector Byte 64, exec .dectile s = .next { s with verr := false, notfound := false, grid := g } ∧
        ∀ r c : Fin 8, g[8 * r.val + c.val].toNat < 2 ^ s.bpp.toNat ∧
          ∀ (p : Nat) (k : Fin 64), p < s.bpp.toNat → k.val = planeOffset p r.val s.bpp.toNat s.layout →
            g[8 * r.val + c.val].getLsbD p = s.tile[k].getLsbD (7 - c.val)) ∧
    (¬supported s.bpp.toNat → exec .dectile s = .next (faulted s 3 s.bpp.toNat))

/-- R154, with R147: bit `7 − c` of `PLANE[p]` is bit `p` of `ROW[c]`, for the planes of the depth; the other elements
stay. -/
def Obligations.EncrowFillsPlanes : Prop :=
  ∀ s : State,
    decode 0x23 = .command .encrow ∧
    (supported s.bpp.toNat →
      ∃ v : Vector Byte 8, exec .encrow s = .next { s with verr := false, notfound := false, plane := v } ∧
        ∀ p : Fin 8, (p.val < s.bpp.toNat → ∀ c : Fin 8, v[p].getLsbD (7 - c.val) = s.row[c].getLsbD p.val) ∧
          (s.bpp.toNat ≤ p.val → v[p] = s.plane[p])) ∧
    (¬supported s.bpp.toNat → exec .encrow s = .next (faulted s 3 s.bpp.toNat))

/-- R155, with R148: `TILE` receives the encoded grid in its first `BPP × 8` bytes; the others stay, and so does
`GRID`. -/
def Obligations.EnctileFillsTile : Prop :=
  ∀ s : State,
    decode 0x24 = .command .enctile ∧
    (supported s.bpp.toNat →
      ∃ t : Vector Byte 64, exec .enctile s = .next { s with verr := false, notfound := false, tile := t } ∧
        isTileOf s.bpp.toNat s.layout s.grid t s.tile) ∧
    (¬supported s.bpp.toNat → exec .enctile s = .next (faulted s 3 s.bpp.toNat))

/-- R149, R155: `ENCTILE` then `DECTILE` leaves every element of `GRID` modulo `2^BPP`, so unchanged when in range;
`DECTILE` then `ENCTILE` leaves `TILE` as it was. -/
def Obligations.TileCodecRoundTrips : Prop :=
  ∀ s : State, supported s.bpp.toNat →
    (∃ t u, exec .enctile s = .next t ∧ exec .dectile t = .next u ∧
      ∀ k : Fin 64, u.grid[k].toNat = s.grid[k].toNat % 2 ^ s.bpp.toNat) ∧
    ∃ t u, exec .dectile s = .next t ∧ exec .enctile t = .next u ∧ u.tile = s.tile

/-! ### PlaneStream (42_planestream.md) -/

/-- R181, start of `TOIDX`. That `OUTKIND` and `OUTCNT` are already written when `F_BOUNDS` is raised is the model's
reading (log 20, DEDUCED) of R181, R262 and U20 against R80's "does nothing else". That `ENG = RUN` with `CHRLEN = 0` too
is the model's choice (log 21). -/
def Obligations.ToidxStartsStream : Prop :=
  ∀ s : State,
    decode 0x30 = .command .toidx ∧
    (supported s.bpp.toNat → s.chrlen.toNat ≤ s.cfg.chrcap.toNat →
      exec .toidx s =
        .next { s with verr := false, notfound := false, outkind := .scan, outcnt := 0, eng := .run }) ∧
    (supported s.bpp.toNat → s.cfg.chrcap.toNat < s.chrlen.toNat →
      exec .toidx s = .next (faulted { s with outkind := .scan, outcnt := 0 } 4 1)) ∧
    (¬supported s.bpp.toNat → exec .toidx s = .next (faulted s 3 s.bpp.toNat))

/-- R182, start of `TORGBA`. That `OUTKIND` and `OUTCNT` are already written when `F_BOUNDS` is raised is the model's
reading (log 20, DEDUCED) of R182, R262 and U20 against R80's "does nothing else". That `ENG = RUN` with `CHRLEN = 0` too
is the model's choice (log 21). -/
def Obligations.TorgbaStartsStream : Prop :=
  ∀ s : State,
    decode 0x31 = .command .torgba ∧
    (supported s.bpp.toNat → s.chrlen.toNat ≤ s.cfg.chrcap.toNat →
      exec .torgba s =
        .next { s with verr := false, notfound := false, outkind := .cscan, outcnt := 0, eng := .run }) ∧
    (supported s.bpp.toNat → s.cfg.chrcap.toNat < s.chrlen.toNat →
      exec .torgba s = .next (faulted { s with outkind := .cscan, outcnt := 0 } 4 1)) ∧
    (¬supported s.bpp.toNat → exec .torgba s = .next (faulted s 3 s.bpp.toNat))

/-- R183, R177, start of `TOCHR`: a wrong depth faults before validation; dimensions that are not multiples of 8 are
reported once and nothing runs; then the buffer is measured, on unbounded products. That `OUTKIND` and `OUTCNT` are
already written when `F_BOUNDS` is raised is the model's reading (log 20, DEDUCED) of R183, R262 and U20 against R80's
"does nothing else". That `ENG = RUN` with `WIDTH = 0` or `HEIGHT = 0` too is the model's choice (log 21). -/
def Obligations.TochrValidatesThenStarts : Prop :=
  ∀ s : State,
    decode 0x32 = .command .tochr ∧
    (¬supported s.bpp.toNat → exec .tochr s = .next (faulted s 3 s.bpp.toNat)) ∧
    (supported s.bpp.toNat → ¬(s.width.toNat % 8 = 0 ∧ s.height.toNat % 8 = 0) →
      exec .tochr s =
        .next { s with verr := true, notfound := false, outkind := .tile, outcnt := 0,
                       out := s.out ++ [.validationFailure s.width s.height] }) ∧
    (supported s.bpp.toNat → s.width.toNat % 8 = 0 → s.height.toNat % 8 = 0 →
      (s.width.toNat * s.height.toNat ≤ s.pixlen.toNat ∧ s.pixlen.toNat ≤ s.cfg.pixcap.toNat →
        exec .tochr s =
          .next { s with verr := false, notfound := false, outkind := .tile, outcnt := 0, eng := .run }) ∧
      (s.pixlen.toNat < s.width.toNat * s.height.toNat ∨ s.cfg.pixcap.toNat < s.pixlen.toNat →
        exec .tochr s = .next (faulted { s with outkind := .tile, outcnt := 0 } 4 2)))

/-- R181, R185: the engine's turn of a running `TOIDX` with units left fills `SCAN` with the next scanline, emits it,
counts it and waits, whether other moves wait or none does (log 1). -/
def Obligations.IndexUnitEmitsScanline : Prop :=
  ∀ (s : State) (rest : List HostMove), engineNext s rest → s.eng = .run → s.outkind = .scan →
    supported s.bpp.toNat → s.outcnt.toNat < scanlines s →
    ∃ v : Vector Byte 128, isScanline s v ∧
      step s = .next { s with host := rest, scan := v, out := s.out ++ [.scanline v.toList],
                              outcnt := s.outcnt + 1, eng := .wait }

/-- R182, R185, R254: the engine's turn of a running `TORGBA`, whether other moves wait or none does (log 1), fills
`SCAN`; if every index is below `PALSIZE` it fills `CSCAN`
with the palette's entries and emits their colours; else the lowest bad `x` faults with the elements before it
converted, nothing emitted and `OUTCNT` unchanged. -/
def Obligations.RgbaUnitEmitsColoursOrFaults : Prop :=
  ∀ (s : State) (rest : List HostMove), engineNext s rest → s.eng = .run → s.outkind = .cscan →
    supported s.bpp.toNat → s.outcnt.toNat < scanlines s →
    ∃ (v : Vector Byte 128) (w : Vector Word 128), isScanline s v ∧
      ((∀ x : Fin 128, v[x].toNat < s.palsize.val) →
        (∀ (x : Fin 128) (i : Fin 256), v[x].toNat = i.val → w[x] = s.pal[i]) ∧
        ∃ cs : List Color, cs.map (fun c => c.r ++ c.g ++ c.b ++ c.a) = w.toList ∧
          step s = .next { s with host := rest, scan := v, cscan := w, out := s.out ++ [.rgbaScanline cs],
                                  outcnt := s.outcnt + 1, eng := .wait }) ∧
      ∀ x : Fin 128, s.palsize.val ≤ v[x].toNat → (∀ y : Fin 128, y < x → v[y].toNat < s.palsize.val) →
        (∀ (y : Fin 128) (i : Fin 256), y < x → v[y].toNat = i.val → w[y] = s.pal[i]) ∧
        (∀ y : Fin 128, x ≤ y → w[y] = s.cscan[y]) ∧
        step s = .next { s with host := rest, scan := v, cscan := w, eng := .fault, cause := 5,
                                finfo := BitVec.ofNat 32 v[x].toNat }

/-- R183, R178, R185: the engine's turn of a running `TOCHR` with units left loads the 8×8 block of tile-row
`OUTCNT div tw` and tile column `OUTCNT mod tw` into `GRID`, encodes it into `TILE`, emits its bytes, counts it and
waits, whether other moves wait or none does (log 1). -/
def Obligations.TileUnitEmitsEncodedBlock : Prop :=
  ∀ (s : State) (rest : List HostMove), engineNext s rest → s.eng = .run → s.outkind = .tile →
    supported s.bpp.toNat → s.outcnt.toNat < tiles s →
    ∃ g t : Vector Byte 64, isBlock s s.outcnt.toNat g ∧ isTileOf s.bpp.toNat s.layout g t s.tile ∧
      step s = .next { s with host := rest, grid := g, tile := t,
                              out := s.out ++ [.tileBytes (t.toList.take (s.bpp.toNat * 8))],
                              outcnt := s.outcnt + 1, eng := .wait }

/-- R185, R187: at the engine's turn a running stream command with `OUTCNT = N` completes; in `WAIT`, `IDLE` and
`FAULT` the engine has no step, so that nothing changes but the moves left (log 1). -/
def Obligations.EngineCompletesOrStays : Prop :=
  ∀ (s : State) (rest : List HostMove), engineNext s rest →
    (s.eng = .run → s.outkind = .scan ∨ s.outkind = .cscan → s.outcnt.toNat = scanlines s →
      step s = .next { s with host := rest, eng := .idle }) ∧
    (s.eng = .run → s.outkind = .tile → s.outcnt.toNat = tiles s →
      step s = .next { s with host := rest, eng := .idle }) ∧
    (s.eng ≠ .run → step s = .next { s with host := rest })

/-- R172, R181, R182, R308: the bytes of `CHRMEM` at or above the last whole tile are never read: two states that
agree on all other bytes of `CHRMEM` and on everything else take the same engine step. -/
def Obligations.TrailingChrBytesNeverRead : Prop :=
  ∀ (s : State) (m : Memory), supported s.bpp.toNat →
    (∀ a, a < s.chrlen.toNat / (8 * s.bpp.toNat) * (8 * s.bpp.toNat) → m.read a = s.chrmem.read a) →
      ({ s with chrmem := m } : State).engineTurn = { s.engineTurn with chrmem := m }

/-- R186, R174: from an idle engine, a host that issues `TOIDX` and acknowledges every unit receives exactly the
scanlines of `toIndexed`, in order, after which the engine is idle and `CHRMEM` is as it was. R186 marks its sentence
as derived, from R185 by induction on `OUTCNT`; the host's moves are given as log 1 holds them. -/
def Obligations.ToidxDeliversEveryScanline : Prop :=
  ∀ (s : State) (rest : List HostMove), s.eng = .idle → supported s.bpp.toNat →
    s.chrlen.toNat ≤ s.cfg.chrcap.toNat → s.host = .write 0 0x30 :: (acknowledgeAll (scanlines s) ++ rest) →
    ∃ t : State, Host.Core.run Sys2Proof.core (2 * scanlines s + 2) s = .next t ∧ t.eng = .idle ∧ t.host = rest ∧
      t.outcnt.toNat = scanlines s ∧ t.chrmem = s.chrmem ∧
      ∃ vs : List (Vector Byte 128), t.out = s.out ++ vs.map (fun v => Event.scanline v.toList) ∧
        vs.length = scanlines s ∧
        ∀ (k : Nat) (v : Vector Byte 128), vs[k]? = some v → isScanline { s with outcnt := BitVec.ofNat 32 k } v

/-- R186, R174, R182: from an idle engine, a host that issues `TORGBA` with a palette of at least `2^BPP` entries and
acknowledges every unit receives exactly the scanlines of `toIndexed`, in order, each index as the colour of its
palette entry, after which the engine is idle and `CHRMEM` is as it was. R186 marks its sentence as derived; the
host's moves are given as log 1 holds them. -/
def Obligations.TorgbaDeliversEveryScanline : Prop :=
  ∀ (s : State) (rest : List HostMove), s.eng = .idle → supported s.bpp.toNat →
    s.chrlen.toNat ≤ s.cfg.chrcap.toNat → 2 ^ s.bpp.toNat ≤ s.palsize.val →
    s.host = .write 0 0x31 :: (acknowledgeAll (scanlines s) ++ rest) →
    ∃ t : State, Host.Core.run Sys2Proof.core (2 * scanlines s + 2) s = .next t ∧ t.eng = .idle ∧ t.host = rest ∧
      t.outcnt.toNat = scanlines s ∧ t.chrmem = s.chrmem ∧
      ∃ us : List (Vector Byte 128 × Vector Color 128),
        t.out = s.out ++ us.map (fun u => Event.rgbaScanline u.2.toList) ∧ us.length = scanlines s ∧
        ∀ (k : Nat) (v : Vector Byte 128) (cs : Vector Color 128), us[k]? = some (v, cs) →
          isScanline { s with outcnt := BitVec.ofNat 32 k } v ∧
          ∀ (x : Fin 128) (i : Fin 256), v[x].toNat = i.val →
            cs[x].r ++ cs[x].g ++ cs[x].b ++ cs[x].a = s.pal[i]

/-- R186, R179: from an idle engine, a host that issues `TOCHR` on valid, sufficient data and acknowledges every unit
receives exactly the tiles of `toChr`, in row-major order, after which the engine is idle and `PIXMEM` is as it was.
R186 marks its sentence as derived, from R185 by induction on `OUTCNT`; the host's moves are given as log 1 holds
them. -/
def Obligations.TochrDeliversEveryTile : Prop :=
  ∀ (s : State) (rest : List HostMove), s.eng = .idle → supported s.bpp.toNat →
    s.width.toNat % 8 = 0 → s.height.toNat % 8 = 0 → s.width.toNat * s.height.toNat ≤ s.pixlen.toNat →
    s.pixlen.toNat ≤ s.cfg.pixcap.toNat → s.host = .write 0 0x32 :: (acknowledgeAll (tiles s) ++ rest) →
    ∃ t : State, Host.Core.run Sys2Proof.core (2 * tiles s + 2) s = .next t ∧ t.eng = .idle ∧ t.host = rest ∧
      t.outcnt.toNat = tiles s ∧ t.pixmem = s.pixmem ∧
      ∃ ts : List (Vector Byte 64),
        t.out = s.out ++ ts.map (fun v => Event.tileBytes (v.toList.take (s.bpp.toNat * 8))) ∧ ts.length = tiles s ∧
        ∀ (k : Nat) (v : Vector Byte 64), ts[k]? = some v →
          ∃ g old : Vector Byte 64, isBlock s k g ∧ isTileOf s.bpp.toNat s.layout g v old

/-! ### CanvasLayout (43_canvaslayout.md) -/

/-- R202, with R200: `R0` is a multiple of 8 whose tile-rows are the fewest that hold `A0` bytes, on unbounded
naturals. -/
def Obligations.ReqhRoundsUpToTileRows : Prop :=
  ∀ s : State,
    decode 0x40 = .command .reqh ∧
    (supported s.bpp.toNat →
      ∃ r : Word, exec .reqh s = .next { s with verr := false, notfound := false, r0 := r } ∧
        r.toNat % 8 = 0 ∧ s.a0.toNat ≤ r.toNat / 8 * (128 * s.bpp.toNat) ∧
        r.toNat / 8 * (128 * s.bpp.toNat) < s.a0.toNat + 128 * s.bpp.toNat) ∧
    (¬supported s.bpp.toNat → exec .reqh s = .next (faulted s 3 s.bpp.toNat))

/-- R201: the laws of `requiredHeight`. -/
def Obligations.RequiredHeightLaws : Prop :=
  ∀ bpp, 1 ≤ bpp →
    (∀ m n, m ≤ n → requiredHeight m bpp ≤ requiredHeight n bpp) ∧
    (∀ n, requiredHeight n bpp % 8 = 0) ∧
    (∀ k, requiredHeight (k * bpp * 8 * 16) bpp = k * 8) ∧
    (∀ n, 1 ≤ n → n ≤ 128 * bpp → requiredHeight n bpp = 8) ∧
    (∀ s : State, s.bpp.toNat = bpp → s.outkind = .scan → s.unitTotal = requiredHeight s.chrlen.toNat bpp) ∧
    ∀ n, n < 2 ^ 32 → 2 ≤ bpp → requiredHeight n bpp ≤ 2 ^ 27

/-! ### Palette and ColorConversion (44_palette_color.md) -/

/-- R211: `pack` puts red in the top byte and alpha in the lowest, and `unpack` undoes it in both directions. The
order is the spec's decision D12 (log 10). -/
def Obligations.PackedColourBijection : Prop :=
  (∀ c : Color, c.pack = c.r ++ c.g ++ c.b ++ c.a ∧ Color.unpack c.pack = c) ∧
  ∀ w : Word, (Color.unpack w).pack = w ∧
    (Color.unpack w).r = w.extractLsb' 24 8 ∧ (Color.unpack w).g = w.extractLsb' 16 8 ∧
    (Color.unpack w).b = w.extractLsb' 8 8 ∧ (Color.unpack w).a = w.extractLsb' 0 8

/-- R220, R214: `DEFPAL` installs the gray ramp of a supported depth and leaves the entries above it; at any other
depth it empties the palette and leaves `PAL`. Depth 3's step 36 is the spec's decision D14 (log 9). -/
def Obligations.DefpalInstallsRamp : Prop :=
  ∀ s : State,
    decode 0x50 = .command .defpal ∧
    (supported s.bpp.toNat →
      ∃ v : Vector Word 256,
        exec .defpal s = .next { s with verr := false, notfound := false, pal := v,
                                        palsize := Fin.ofNat 257 (2 ^ s.bpp.toNat) } ∧
        ∀ i : Fin 256,
          (i.val < 2 ^ s.bpp.toNat →
            v[i].toNat = i.val * (255 / (2 ^ s.bpp.toNat - 1)) * (2 ^ 24 + 2 ^ 16 + 2 ^ 8) + 255) ∧
          (2 ^ s.bpp.toNat ≤ i.val → v[i] = s.pal[i])) ∧
    (¬supported s.bpp.toNat → exec .defpal s = .next { s with verr := false, notfound := false, palsize := 0 })

/-- R221. -/
def Obligations.PalcommitInstallsPalette : Prop :=
  ∀ s : State,
    decode 0x51 = .command .palcommit ∧
    (supported s.bpp.toNat →
      exec .palcommit s = .next { s with verr := false, notfound := false,
                                         palsize := Fin.ofNat 257 (2 ^ s.bpp.toNat) }) ∧
    (¬supported s.bpp.toNat → exec .palcommit s = .next (faulted s 3 s.bpp.toNat))

/-- R222, R216: the entry, or `F_PALIDX` with the index, never wrapped. -/
def Obligations.LookupReadsEntryOrFaults : Prop :=
  ∀ s : State,
    decode 0x52 = .command .lookup ∧
    (∀ i : Fin 256, s.a0.toNat = i.val → i.val < s.palsize.val →
      exec .lookup s = .next { s with verr := false, notfound := false, r0 := s.pal[i] }) ∧
    (s.palsize.val ≤ s.a0.toNat → exec .lookup s = .next (faulted s 5 s.a0.toNat))

/-- R223, R217: the lowest index whose entry equals `A0`, or `NOTFOUND` with `R0` all ones. -/
def Obligations.FindReturnsLowestIndex : Prop :=
  ∀ s : State,
    decode 0x53 = .command .find ∧
    (∀ i : Fin 256, i.val < s.palsize.val → s.pal[i] = s.a0 → (∀ j : Fin 256, j < i → s.pal[j] ≠ s.a0) →
      exec .find s = .next { s with verr := false, notfound := false, r0 := BitVec.ofNat 32 i.val }) ∧
    ((∀ i : Fin 256, i.val < s.palsize.val → s.pal[i] ≠ s.a0) →
      exec .find s = .next { s with verr := false, notfound := true, r0 := 0xFFFFFFFF })

/-- R224, R212: the colour of the channel bytes of `A0`, element 0 lowest, or `F_OPERAND`. -/
def Obligations.ColchBuildsColour : Prop :=
  ∀ (ch : Fin 16) (s : State),
    decode (BitVec.ofNat 32 (0x54 + ch.val * 2 ^ 14)) = .command (.colch ch) ∧
    (ch.val = 1 → exec (.colch ch) s =
      .next { s with verr := false, notfound := false,
                     r0 := s.a0.extractLsb' 0 8 ++ s.a0.extractLsb' 0 8 ++ s.a0.extractLsb' 0 8 ++ 255#8 }) ∧
    (ch.val = 3 → exec (.colch ch) s =
      .next { s with verr := false, notfound := false,
                     r0 := s.a0.extractLsb' 0 8 ++ s.a0.extractLsb' 8 8 ++ s.a0.extractLsb' 16 8 ++ 255#8 }) ∧
    (ch.val = 4 → exec (.colch ch) s =
      .next { s with verr := false, notfound := false,
                     r0 := s.a0.extractLsb' 0 8 ++ s.a0.extractLsb' 8 8 ++ s.a0.extractLsb' 16 8
                       ++ s.a0.extractLsb' 24 8 }) ∧
    (ch.val ≠ 1 ∧ ch.val ≠ 3 ∧ ch.val ≠ 4 →
      exec (.colch ch) s = .next (operandFault s (0x54 + ch.val * 2 ^ 14)))

/-- R225, R218: `PIX2IDX` on a canonical `PIXMEM`: every pixel's lowest matching index, or 0 and one counted
diagnostic where none matches; the bytes of `PIXMEM` at or above the last pixel stay; or the fault of a wrong channel
count or of a buffer too large. That `MISSCNT` is already 0 when `F_BOUNDS` is raised is the model's reading (log 20,
DEDUCED) of R225, R262 and U20 against R80's "does nothing else". -/
def Obligations.Pix2idxConvertsPixels : Prop :=
  ∀ (ch : Fin 16) (s : State),
    decode (BitVec.ofNat 32 (0x55 + ch.val * 2 ^ 14)) = .command (.pix2idx ch) ∧
    (ch.val ≠ 1 ∧ ch.val ≠ 3 ∧ ch.val ≠ 4 →
      exec (.pix2idx ch) s = .next (operandFault s (0x55 + ch.val * 2 ^ 14))) ∧
    (ch.val = 1 ∨ ch.val = 3 ∨ ch.val = 4 →
      (s.cfg.rawcap.toNat < s.rawlen.toNat →
        exec (.pix2idx ch) s = .next (faulted { s with misscnt := 0 } 4 3)) ∧
      (s.rawlen.toNat ≤ s.cfg.rawcap.toNat → s.cfg.pixcap.toNat < s.rawlen.toNat / ch.val →
        exec (.pix2idx ch) s = .next (faulted { s with misscnt := 0 } 4 2)) ∧
      (s.rawlen.toNat ≤ s.cfg.rawcap.toNat → s.rawlen.toNat / ch.val ≤ s.cfg.pixcap.toNat → s.pixmem.wf →
        ∃ m : Memory,
          exec (.pix2idx ch) s =
            .next { s with verr := false, notfound := false, pixmem := m,
                           misscnt := BitVec.ofNat 32 (misses s ch.val (s.rawlen.toNat / ch.val)).length,
                           out := s.out ++ misses s ch.val (s.rawlen.toNat / ch.val),
                           pixlen := BitVec.ofNat 32 (s.rawlen.toNat / ch.val) } ∧
          (∀ k, k < s.rawlen.toNat / ch.val →
            (m.read k).toNat = (lowestIndex s (rawPixel s ch.val k)).getD 0) ∧
          ∀ a, s.rawlen.toNat / ch.val ≤ a → m.read a = s.pixmem.read a))

/-- R226, R219: `IDX2COL` on a canonical `COLMEM`: the four bytes R, G, B, A of every pixel's palette entry, and
`COLLEN`; or the fault of a buffer too large; or, at the lowest pixel whose index is not below `PALSIZE`, `F_PALIDX`
with the pixels before it written and `COLLEN` unchanged. No other byte of `COLMEM` changes. -/
def Obligations.Idx2colConvertsIndices : Prop :=
  ∀ s : State,
    decode 0x56 = .command .idx2col ∧
    (s.cfg.pixcap.toNat < s.pixlen.toNat → exec .idx2col s = .next (faulted s 4 2)) ∧
    (s.pixlen.toNat ≤ s.cfg.pixcap.toNat → s.cfg.colcap.toNat < 4 * s.pixlen.toNat →
      exec .idx2col s = .next (faulted s 4 4)) ∧
    (s.pixlen.toNat ≤ s.cfg.pixcap.toNat → 4 * s.pixlen.toNat ≤ s.cfg.colcap.toNat → s.colmem.wf →
      ∀ n, n ≤ s.pixlen.toNat → (∀ k, k < n → (s.pixmem.read k).toNat < s.palsize.val) →
        n = s.pixlen.toNat ∨ s.palsize.val ≤ (s.pixmem.read n).toNat →
        ∃ m : Memory,
          exec .idx2col s =
            .next (if n = s.pixlen.toNat then
                { s with verr := false, notfound := false, colmem := m, collen := BitVec.ofNat 32 (4 * n) }
              else faulted { s with colmem := m } 5 (s.pixmem.read n).toNat) ∧
          (∀ (k : Nat) (i : Fin 256), k < n → (s.pixmem.read k).toNat = i.val →
            m.read (4 * k) = s.pal[i].extractLsb' 24 8 ∧ m.read (4 * k + 1) = s.pal[i].extractLsb' 16 8 ∧
            m.read (4 * k + 2) = s.pal[i].extractLsb' 8 8 ∧ m.read (4 * k + 3) = s.pal[i].extractLsb' 0 8) ∧
          ∀ a, 4 * n ≤ a → m.read a = s.colmem.read a)

/-! ### Whole-machine rules -/

/-- R21, R25, R26, R29, R31, R33, R45: no command and no engine step writes `A0`, `A1`, `BPP`, `LAYOUT`, `CHRLEN`,
`RAWLEN`, `WIDTH`, `HEIGHT`, `CHRMEM` or `RAWMEM`, nor the model's capacities. -/
def Obligations.EngineNeverWritesConfiguration : Prop :=
  ∀ s t : State, (t = s.engineTurn ∨ ∃ i : Instr, exec i s = .next t) →
    t.a0 = s.a0 ∧ t.a1 = s.a1 ∧ t.bpp = s.bpp ∧ t.layout = s.layout ∧ t.chrlen = s.chrlen ∧ t.rawlen = s.rawlen ∧
    t.width = s.width ∧ t.height = s.height ∧ t.chrmem = s.chrmem ∧ t.rawmem = s.rawmem ∧ t.cfg = s.cfg

/-- R23, R37: a scalar command leaves `OUTCNT` and `OUTKIND`, and `ENG` stays or becomes `FAULT`. -/
def Obligations.ScalarCommandsNeverStream : Prop :=
  ∀ (i : Instr) (s t : State), ¬isStream i → exec i s = .next t →
    t.outcnt = s.outcnt ∧ t.outkind = s.outkind ∧ (t.eng = s.eng ∨ t.eng = .fault)

/-- R227: of all commands and engine steps only `DEFPAL` and `PALCOMMIT` write `PAL` or `PALSIZE`. -/
def Obligations.OnlyPaletteCommandsWritePalette : Prop :=
  ∀ s t : State, (t = s.engineTurn ∨ ∃ i : Instr, i ≠ .defpal ∧ i ≠ .palcommit ∧ exec i s = .next t) →
    t.pal = s.pal ∧ t.palsize = s.palsize

/-- R286, R84: while a stream command is in progress no step changes any external memory, and the host has no move
that writes one. -/
def Obligations.MemoriesFrozenWhileBusy : Prop :=
  ∀ s : State, s.busy = true →
    (∀ t space, step s = .next t → t.memory space = s.memory space) ∧
    ∀ space offset v rest, s.host = .memWrite space offset v :: rest →
      step s = .refused .hostMemoryWriteOutsideIdle

/-- R46: `OUT` is append-only: every step but a reset leaves the events already emitted and adds at the end. -/
def Obligations.OutIsAppendOnly : Prop :=
  ∀ s t : State, s.host.head? ≠ some .reset → step s = .next t → s.out <+: t.out

/-- R258: in `FAULT` the engine has no step and every host write is ignored; only a reset leaves the state. -/
def Obligations.FaultFreezesBlock : Prop :=
  ∀ s : State, s.eng = .fault →
    (s.host = [] → step s = .next s) ∧
    (∀ offset w rest, s.host = .write offset w :: rest → step s = .next { s with host := rest }) ∧
    ∀ m rest t, s.host = m :: rest → m ≠ .reset → step s = .next t → t = { s with host := rest, reads := t.reads }

/-! ### The register port (10_state.md) -/

/-- R257, R36: while a stream command is in progress a host write to any offset but `ACK`'s raises
`Fault(F_BUSY, offset)` and does not take effect; in `WAIT` a write to `ACK` makes the engine run again, and in `RUN`
and `IDLE` it has no effect. -/
def Obligations.BusyWritesFaultAndAckReleases : Prop :=
  ∀ (s : State) (offset w : Word) (rest : List HostMove), s.host = .write offset w :: rest →
    (s.eng = .run ∨ s.eng = .wait → offset ≠ 8 →
      step s = .next { s with host := rest, eng := .fault, cause := 6, finfo := offset }) ∧
    (offset = 8 → s.eng = .wait → step s = .next { s with host := rest, eng := .run }) ∧
    (offset = 8 → s.eng ≠ .wait → step s = .next { s with host := rest })

/-- R24: the bits of `STATUS`. -/
def Obligations.StatusBits : Prop := ∀ s : State, isStatus s (s.readPort 4)

/-- R48, R50: with the engine idle, a host write to a writable entry of width `N` stores `trunc_N(w)` in the field the
entry stands for and changes nothing else but the moves left, so that the offset reads `trunc_N(w)` and every other
offset reads as before; a write to any other offset but `CMD`'s changes nothing but the moves left. -/
def Obligations.IdleWritesReadBack : Prop :=
  ∀ (s : State) (offset w : Word) (rest : List HostMove), s.host = .write offset w :: rest → s.eng = .idle →
    offset ≠ 0 →
    (∀ n, writableWidth offset.toNat = some n →
      ∃ t, step s = .next t ∧ storedAt { s with host := rest } offset.toNat w t ∧
        t.readPort offset = BitVec.ofNat 32 (w.toNat % 2 ^ n) ∧
        ∀ other, other ≠ offset → t.readPort other = s.readPort other) ∧
    (writableWidth offset.toNat = none → step s = .next { s with host := rest })

/-- R48, R49, R50: a host read is allowed in every engine state, returns the value of the entry at the offset, and
changes nothing of the block; a read of a write-only entry, of an offset that is not a multiple of 4 or of an unmapped
one returns 0. What is read joins the model's own list of values read (log 12). -/
def Obligations.ReadsHaveNoSideEffect : Prop :=
  ∀ (s : State) (offset : Word) (rest : List HostMove), s.host = .read offset :: rest →
    step s = .next { s with host := rest, reads := s.reads ++ [s.readPort offset] } ∧
    readAs s offset.toNat (s.readPort offset)

/-- R45, R84: with the engine idle a host byte write below the capacity changes that byte of that memory and no other
byte of any memory; at or above the capacity there is no byte (the model's named stop, log 7). That `COLMEM` is among
the memories a host can write is the model's choice (log 17): R45's last sentence "gives the host a byte read and a
byte write on each space", its table gives the host only "read" there. -/
def Obligations.HostByteWriteChangesOneByte : Prop :=
  ∀ (s : State) (space : Space) (offset : Nat) (v : Byte) (rest : List HostMove),
    s.host = .memWrite space offset v :: rest → s.eng = .idle → (s.memory space).wf →
    (offset < s.capacity space →
      ∃ t, step s = .next t ∧
        (∀ sp a, (t.memory sp).read a = if sp = space ∧ a = offset then v else (s.memory sp).read a) ∧
        { t with chrmem := s.chrmem, pixmem := s.pixmem, rawmem := s.rawmem, colmem := s.colmem }
          = { s with host := rest }) ∧
    (s.capacity space ≤ offset → step s = .fault (.noSuchByte space offset))

/-- R45, R49: in every engine state a host byte read below the capacity gives that byte and changes nothing of the
block; at or above the capacity there is no byte (the model's named stop, log 7). -/
def Obligations.HostByteReadGivesByte : Prop :=
  ∀ (s : State) (space : Space) (offset : Nat) (rest : List HostMove), s.host = .memRead space offset :: rest →
    (offset < s.capacity space →
      ∃ w : Word, step s = .next { s with host := rest, reads := s.reads ++ [w] } ∧
        w.toNat = ((s.memory space).read offset).toNat) ∧
    (s.capacity space ≤ offset → step s = .fault (.noSuchByte space offset))

/-! ### Reset (70_reset_and_hazards.md) -/

/-- R280: the reset input, in any engine state, gives every register its reset value, empties `OUT` and leaves the
external memories. Nothing is said of the buffers, which are unspecified. That the reset keeps the moves left (log 1),
the capacities (log 6) and the values the host has read (log 12) is the model's choice about its own fields. -/
def Obligations.ResetInputRestoresRegisters : Prop :=
  ∀ (s : State) (rest : List HostMove), s.host = .reset :: rest →
    ∃ t, step s = .next t ∧ t.eng = .idle ∧ t.statusWord = 0 ∧ t.cause = 0 ∧ t.finfo = 0 ∧ t.bpp = 0 ∧
      t.layout = .planar ∧ t.palsize = 0 ∧ t.misscnt = 0 ∧ t.outcnt = 0 ∧ t.chrlen = 0 ∧ t.pixlen = 0 ∧
      t.rawlen = 0 ∧ t.collen = 0 ∧ t.width = 0 ∧ t.height = 0 ∧ t.a0 = 0 ∧ t.a1 = 0 ∧ t.r0 = 0 ∧ t.out = [] ∧
      (∀ space, t.memory space = s.memory space) ∧ t.cfg = s.cfg ∧ t.host = rest ∧ t.reads = s.reads

/-- R51: the rows of the reset table that give a value. -/
def Obligations.ResetStateHasSpecifiedValues : Prop :=
  State.reset.eng = .idle ∧ State.reset.statusWord = 0 ∧ State.reset.cause = 0 ∧ State.reset.finfo = 0 ∧
  State.reset.bpp = 0 ∧ State.reset.layout = .planar ∧ State.reset.palsize = 0 ∧ State.reset.misscnt = 0 ∧
  State.reset.outcnt = 0 ∧ State.reset.chrlen = 0 ∧ State.reset.pixlen = 0 ∧ State.reset.rawlen = 0 ∧
  State.reset.collen = 0 ∧ State.reset.width = 0 ∧ State.reset.height = 0 ∧ State.reset.a0 = 0 ∧
  State.reset.a1 = 0 ∧ State.reset.r0 = 0 ∧ State.reset.out = []

/-! ### The invariant -/

/-- The invariant holds after reset. -/
def Obligations.ResetSatisfiesInvariant : Prop := State.reset.Inv

/-- Every step keeps the invariant: memories canonical and inside their capacities, a legal palette size, `CAUSE`
telling whether the block is faulted, a running stream's start checks still holding, `OUTCNT` within the number of
units, `VERR` and `NOTFOUND` describing one command, and only legal events in `OUT`. -/
def Obligations.StepKeepsInvariant : Prop :=
  ∀ s t : State, s.Inv → step s = .next t → t.Inv
end

