-- ==== Sys2Proof/Laws/Bits.lean ====
section
/-! SUPPORT. The bits of sums of shifted bits, and of the four BitPacking functions (R121 to R123). -/

namespace Sys2Proof.Machine

theorem tabulate_get {α : Type} {n : Nat} (f : Fin n → α) (i : Nat) (h : i < n) : (tabulate f)[i] = f ⟨i, h⟩ := by
  unfold tabulate; simp

@[simp] theorem tabulate_getFin {α : Type} {n : Nat} (f : Fin n → α) (i : Fin n) : (tabulate f)[i] = f i :=
  tabulate_get f i.val i.isLt

@[simp] theorem word_getLsbD (n i : Nat) : (word n).getLsbD i = (decide (i < 32) && n.testBit i) := by
  simp [word, BitVec.getLsbD_ofNat]

@[simp] theorem byte_getLsbD (n i : Nat) : (byte n).getLsbD i = (decide (i < 8) && n.testBit i) := by
  simp [byte, BitVec.getLsbD_ofNat]

theorem word_toNat {n : Nat} (h : n < 2 ^ 32) : (word n).toNat = n := by
  simpa [word] using Nat.mod_eq_of_lt h

theorem byte_toNat {n : Nat} (h : n < 2 ^ 8) : (byte n).toNat = n := by
  simpa [byte] using Nat.mod_eq_of_lt h

theorem one_testBit_of_ne {k : Nat} (h : k ≠ 0) : Nat.testBit 1 k = false := by
  obtain ⟨m, rfl⟩ := Nat.exists_eq_succ_of_ne_zero h
  simp [Nat.testBit_succ]

/-- A byte has no bit at or above place 8. -/
theorem byte_testBit_ge {v j : Nat} (hv : v < 256) (h : ¬ j < 8) : v.testBit j = false :=
  Nat.testBit_lt_two_pow (Nat.lt_of_lt_of_le hv (Nat.pow_le_pow_right (n := 2) (by decide) (by omega : 8 ≤ j)))

theorem and_one_eq (b : Nat) : b &&& 1 = (b.testBit 0).toNat := by
  rw [Nat.and_one_is_mod, Nat.testBit_zero]
  rcases Nat.mod_two_eq_zero_or_one b with h | h <;> simp [h]

/-- A sum of bits, bit `p` shifted to place `p`, is below `2^n`. -/
theorem sumBelow_bits_lt (f : Nat → Bool) (n : Nat) : sumBelow n (fun p => (f p).toNat <<< p) < 2 ^ n := by
  induction n with
  | zero => simp [sumBelow]
  | succ n ih =>
    simp only [sumBelow, Nat.shiftLeft_eq]
    simp only [Nat.shiftLeft_eq] at ih
    have : (f n).toNat * 2 ^ n ≤ 2 ^ n := by cases f n <;> simp
    omega

/-- Bit `j` of such a sum is the bit that was shifted to place `j`. -/
theorem sumBelow_bits_testBit (f : Nat → Bool) (n j : Nat) :
    (sumBelow n (fun p => (f p).toNat <<< p)).testBit j = (decide (j < n) && f j) := by
  induction n with
  | zero => simp [sumBelow]
  | succ n ih =>
    have h : sumBelow (n + 1) (fun p => (f p).toNat <<< p)
        = 2 ^ n * (f n).toNat + sumBelow n (fun p => (f p).toNat <<< p) := by
      simp only [sumBelow, Nat.shiftLeft_eq]; rw [Nat.add_comm, Nat.mul_comm]
    rw [h, Nat.testBit_two_pow_mul_add _ (sumBelow_bits_lt f n), ih]
    by_cases hj : j < n
    · simp [hj, Nat.lt_succ_of_lt hj]
    · by_cases he : j = n
      · subst he; cases f j <;> simp
      · have h1 : ¬ j < n + 1 := by omega
        have h2 : j - n ≠ 0 := by omega
        cases f n <;> simp [hj, h1, one_testBit_of_ne h2]

theorem getBit_eq (v i : Nat) : getBit v i = (v.testBit i).toNat := by
  simp only [getBit, Nat.testBit, Nat.and_comm 1]
  have : v >>> i &&& 1 = v >>> i % 2 := Nat.and_one_is_mod _
  rw [this]
  rcases Nat.mod_two_eq_zero_or_one (v >>> i) with h | h <;> simp [h]

theorem notByte_testBit (v j : Nat) (h : v < 256) : (notByte v).testBit j = (decide (j < 8) && !v.testBit j) := by
  have := Nat.testBit_two_pow_sub_succ (n := 8) (x := v) h j
  simpa [notByte, Nat.sub_sub, Nat.add_comm] using this

theorem fieldMask_testBit (n j : Nat) : (fieldMask n).testBit j = decide (j < n) := by
  simp [fieldMask, Nat.shiftLeft_eq, Nat.testBit_two_pow_sub_one]

/-- R121, bit by bit. -/
theorem setBit_testBit (v i b j : Nat) (hv : v < 256) (hi : i < 8) :
    (setBit v i b).testBit j = if j = i then b.testBit 0 else v.testBit j := by
  have h1 : (1 <<< i) < 256 := by
    rw [Nat.shiftLeft_eq, Nat.one_mul]; exact Nat.pow_lt_pow_right (by decide) hi
  simp only [setBit, Nat.testBit_or, Nat.testBit_and, notByte_testBit _ _ h1, and_one_eq, Nat.testBit_shiftLeft]
  by_cases hj : j = i
  · subst hj; cases b.testBit 0 <;> simp
  · by_cases h8 : j < 8
    · by_cases hle : i ≤ j
      · have : j - i ≠ 0 := by omega
        cases b.testBit 0 <;> simp [h8, hj, hle, one_testBit_of_ne this]
      · simp [hj, h8, hle]
    · have hvj := byte_testBit_ge hv h8
      by_cases hle : i ≤ j
      · have : j - i ≠ 0 := by omega
        cases b.testBit 0 <;> simp [hj, hvj, hle, one_testBit_of_ne this]
      · simp [hj, hvj, hle]

/-- R122, bit by bit. -/
theorem getBits_testBit (v i n j : Nat) : (getBits v i n).testBit j = (decide (j < n) && v.testBit (i + j)) := by
  simp [getBits, fieldMask_testBit, Nat.testBit_shiftRight, Bool.and_comm]

/-- R123, bit by bit, for a field that stays inside the byte. -/
theorem setBits_testBit (v i n x j : Nat) (hv : v < 256) (hn : i + n ≤ 8) :
    (setBits v i n x).testBit j = if i ≤ j ∧ j < i + n then x.testBit (j - i) else v.testBit j := by
  have hm : (fieldMask n <<< i) % 2 ^ 8 < 256 := Nat.mod_lt _ (by decide)
  simp only [setBits, Nat.testBit_mod_two_pow, Nat.testBit_or, Nat.testBit_and, notByte_testBit _ _ hm,
    Nat.testBit_shiftLeft, fieldMask_testBit]
  by_cases h8 : j < 8
  · by_cases hle : i ≤ j
    · by_cases hlt : j < i + n
      · have : j - i < n := by omega
        simp [h8, hle, hlt, this]
      · have : ¬ j - i < n := by omega
        simp [h8, hle, hlt, this]
    · simp [h8, hle]
  · have h2 : ¬ (i ≤ j ∧ j < i + n) := by omega
    simp [h8, h2, byte_testBit_ge hv h8]

end Sys2Proof.Machine
end

