-- ==== Sys2Proof/Laws/Memory.lean ====
section
/-! SUPPORT. The laws of byte memory: a read after a write, the canonical form, and equal reads give equal memories. -/

namespace Sys2Proof.Machine

/-- An offset below every listed one reads as unlisted. -/
theorem Memory.read_below {m : Memory} {i : Nat} (h : ∀ c ∈ m, i < c.1) : m.read i = unlistedByte := by
  induction m with
  | nil => rfl
  | cons d m ih =>
    obtain ⟨a, b⟩ := d
    have ha : i < a := h (a, b) (by simp)
    have : ¬ a = i := by omega
    simp only [Memory.read, this, if_false]
    exact ih fun e he => h e (by simp [he])

/-- A read after a write: the written byte at that offset, the old byte at any other (R79, R83). -/
theorem Memory.read_write {m : Memory} (h : m.wf) (k j : Nat) (v : Byte) :
    (m.write k v).read j = if j = k then v else m.read j := by
  obtain ⟨h, -⟩ := h
  induction m with
  | nil =>
    unfold Memory.write
    by_cases hj : j = k
    · subst hj
      split
      · next hv => simp [Memory.read, hv]
      · simp [Memory.read]
    · have hkj : ¬ k = j := fun h => hj h.symm
      split <;> simp [Memory.read, hkj]
  | cons c m ih =>
    obtain ⟨a, b⟩ := c
    rw [List.pairwise_cons] at h
    have ih := ih h.2
    have above : ∀ i, i ≤ a → Memory.read m i = unlistedByte := fun i hi =>
      Memory.read_below fun c hc => Nat.lt_of_le_of_lt hi (h.1 c hc)
    by_cases hj : j = k
    · subst hj
      unfold Memory.write
      split
      · next hlt =>
        have : ¬ a = j := by omega
        split
        · next hv => simp [Memory.read, this, hv, above j (by omega)]
        · simp [Memory.read]
      · split
        · next he =>
          subst he
          split
          · next hv => simp [hv, above j (by omega)]
          · simp [Memory.read]
        · next hne =>
          have : ¬ a = j := fun h => hne h.symm
          simp [Memory.read, this, ih]
    · have hkj : ¬ k = j := fun h => hj h.symm
      unfold Memory.write
      split
      · split <;> simp [Memory.read, hkj]
      · split
        · next he =>
          subst he
          split <;> simp [Memory.read, hkj]
        · simp [Memory.read, hj, ih]

/-- Every pair a write leaves is an old pair or the written one. -/
theorem Memory.mem_write {m : Memory} {k : Nat} {v : Byte} {c : Host.Cell} (h : c ∈ m.write k v) :
    c ∈ m ∨ c = (k, v) := by
  induction m with
  | nil =>
    unfold Memory.write at h
    split at h
    · exact absurd h (by simp)
    · exact .inr (by simpa using h)
  | cons d m ih =>
    obtain ⟨a, b⟩ := d
    unfold Memory.write at h
    split at h
    · split at h
      · exact .inl h
      · rcases List.mem_cons.1 h with h | h
        · exact .inr h
        · exact .inl h
    · split at h
      · split at h
        · exact .inl (List.mem_cons_of_mem _ h)
        · rcases List.mem_cons.1 h with h | h
          · exact .inr h
          · exact .inl (List.mem_cons_of_mem _ h)
      · rcases List.mem_cons.1 h with h | h
        · exact .inl (by simp [h])
        · exact (ih h).imp_left (List.mem_cons_of_mem _)

/-- A write keeps the canonical form. -/
theorem Memory.write_wf {m : Memory} (h : m.wf) (k : Nat) (v : Byte) : (m.write k v).wf := by
  obtain ⟨hs, hn⟩ := h
  constructor
  · induction m with
    | nil => unfold Memory.write; split <;> simp
    | cons d m ih =>
      obtain ⟨a, b⟩ := d
      rw [List.pairwise_cons] at hs
      have ih := ih hs.2 fun c hc => hn c (by simp [hc])
      unfold Memory.write
      split
      · next hlt =>
        split
        · exact List.pairwise_cons.2 hs
        · refine List.pairwise_cons.2 ⟨?_, List.pairwise_cons.2 hs⟩
          intro c hc
          rcases List.mem_cons.1 hc with rfl | hc
          · exact hlt
          · exact Nat.lt_trans hlt (hs.1 c hc)
      · split
        · next he =>
          subst he
          split
          · exact hs.2
          · exact List.pairwise_cons.2 hs
        · next hlt hne =>
          refine List.pairwise_cons.2 ⟨?_, ih⟩
          intro c hc
          rcases Memory.mem_write hc with hc | rfl
          · exact hs.1 c hc
          · show a < k
            omega
  · intro c hc
    by_cases hv : v = unlistedByte
    · subst hv
      intro hcv
      have : c ∈ m ∧ c.2 = unlistedByte ∨ False := by
        clear hs
        induction m with
        | nil => simp [Memory.write] at hc
        | cons d m ih =>
          obtain ⟨a, b⟩ := d
          unfold Memory.write at hc
          split at hc
          · exact .inl ⟨by simpa using hc, hcv⟩
          · split at hc
            · exact .inl ⟨List.mem_cons_of_mem _ (by simpa using hc), hcv⟩
            · rcases List.mem_cons.1 hc with h | h
              · exact .inl ⟨by simp [h], hcv⟩
              · rcases ih (fun e he => hn e (by simp [he])) h with h | h
                · exact .inl ⟨List.mem_cons_of_mem _ h.1, h.2⟩
                · exact .inr h
      rcases this with h | h
      · exact hn c h.1 h.2
      · exact h
    · rcases Memory.mem_write hc with hc | rfl
      · exact hn c hc
      · exact hv

/-- A write below a bound keeps every listed offset below it. -/
theorem Memory.write_below {m : Memory} {n : Nat} (h : ∀ c ∈ m, c.1 < n) {k : Nat} (hk : k < n) (v : Byte) :
    ∀ c ∈ m.write k v, c.1 < n := by
  intro c hc
  rcases Memory.mem_write hc with hc | rfl
  · exact h c hc
  · exact hk

/-- The empty memory, which State.reset holds, is canonical. -/
theorem Memory.nil_wf : Memory.wf [] := ⟨List.Pairwise.nil, by simp⟩

/-- Equal memories are equal data: two canonical memories that read alike are one list. -/
theorem Memory.eq_of_read_eq {m n : Memory} (hm : m.wf) (hn : n.wf) (h : ∀ i, m.read i = n.read i) : m = n := by
  induction m generalizing n with
  | nil =>
    cases n with
    | nil => rfl
    | cons d n =>
      have := h d.1
      simp [Memory.read] at this
      exact absurd this.symm (hn.2 d (by simp))
  | cons c m ih =>
    obtain ⟨a, b⟩ := c
    cases n with
    | nil =>
      have := h a
      simp [Memory.read] at this
      exact absurd this (hm.2 (a, b) (by simp))
    | cons d n =>
      obtain ⟨a', b'⟩ := d
      have hms := List.pairwise_cons.1 hm.1
      have hns := List.pairwise_cons.1 hn.1
      have hb : b ≠ unlistedByte := hm.2 (a, b) (by simp)
      have hb' : b' ≠ unlistedByte := hn.2 (a', b') (by simp)
      have haa : a = a' := by
        rcases Nat.lt_trichotomy a a' with hlt | he | hgt
        · have h1 := h a
          rw [Memory.read_below (m := (a', b') :: n) (by
            intro c hc
            rcases List.mem_cons.1 hc with rfl | hc
            · exact hlt
            · exact Nat.lt_trans hlt (hns.1 c hc))] at h1
          simp [Memory.read] at h1
          exact absurd h1 hb
        · exact he
        · have h1 := h a'
          rw [Memory.read_below (m := (a, b) :: m) (by
            intro c hc
            rcases List.mem_cons.1 hc with rfl | hc
            · exact hgt
            · exact Nat.lt_trans hgt (hms.1 c hc))] at h1
          simp [Memory.read] at h1
          exact absurd h1.symm hb'
      subst haa
      have hbb : b = b' := by simpa [Memory.read] using h a
      subst hbb
      have : m = n := by
        refine ih ⟨hms.2, fun c hc => hm.2 c (by simp [hc])⟩ ⟨hns.2, fun c hc => hn.2 c (by simp [hc])⟩ ?_
        intro i
        have hi := h i
        by_cases he : a = i
        · subst he
          rw [Memory.read_below hms.1, Memory.read_below hns.1]
        · simpa [Memory.read, he] using hi
      rw [this]

end Sys2Proof.Machine
end

