-- ==== Sys2Proof/Laws/Palette.lean ====
section
/-! SUPPORT. The packed colour (R211), the palette as a list (R213), and what each lookup answers (R216, R217). -/

namespace Sys2Proof.Machine

/-- Red is the top byte and alpha the lowest (R211, decision D12). -/
theorem Color.pack_eq (c : Color) : c.pack = c.r ++ c.g ++ c.b ++ c.a := by
  apply BitVec.eq_of_getLsbD_eq
  intro i hi
  have ha : ∀ j, 8 ≤ j → c.a.getLsbD j = false := fun j h => BitVec.getLsbD_of_ge _ _ h
  have hb : ∀ j, 8 ≤ j → c.b.getLsbD j = false := fun j h => BitVec.getLsbD_of_ge _ _ h
  have hg : ∀ j, 8 ≤ j → c.g.getLsbD j = false := fun j h => BitVec.getLsbD_of_ge _ _ h
  simp only [Color.pack, word_getLsbD, Nat.testBit_or, Nat.testBit_shiftLeft, Config.redBit, Config.greenBit,
    Config.blueBit, Config.alphaBit, BitVec.getLsbD_append, BitVec.testBit_toNat, hi, decide_true, Bool.true_and,
    Nat.sub_sub, Nat.zero_le, ge_iff_le, Nat.sub_zero]
  by_cases h1 : i < 8
  · simp [h1, show ¬ 24 ≤ i by omega, show ¬ 16 ≤ i by omega, show ¬ 8 ≤ i by omega]
  by_cases h2 : i < 16
  · simp [h1, show ¬ 24 ≤ i by omega, show ¬ 16 ≤ i by omega, show 8 ≤ i by omega, show i - 8 < 8 by omega]
  by_cases h3 : i < 24
  · simp [h1, ha i (by omega), hb (i - 8) (by omega), show ¬ 24 ≤ i by omega, show 16 ≤ i by omega,
      show ¬ i - 8 < 8 by omega, show i - 16 < 8 by omega]
  · simp [h1, ha i (by omega), hb (i - 8) (by omega), hg (i - 16) (by omega), show 24 ≤ i by omega,
      show ¬ i - 8 < 8 by omega, show ¬ i - 16 < 8 by omega]

theorem Color.unpack_eq (w : Word) :
    Color.unpack w = ⟨w.extractLsb' 24 8, w.extractLsb' 16 8, w.extractLsb' 8 8, w.extractLsb' 0 8⟩ := rfl

theorem Color.pack_unpack (w : Word) : (Color.unpack w).pack = w := by
  rw [Color.pack_eq, Color.unpack_eq]
  apply BitVec.eq_of_getLsbD_eq
  intro i hi
  simp only [BitVec.getLsbD_append, BitVec.getLsbD_extractLsb']
  split
  · next h => simp [h]
  split
  · next h => simp [h, show 8 + (i - 8) = i by omega]
  split
  · next h => simp [h, show 16 + (i - 8 - 8) = i by omega]
  · simp [show i - 8 - 8 - 8 < 8 by omega, show 24 + (i - 8 - 8 - 8) = i by omega]

theorem Color.unpack_pack (c : Color) : Color.unpack c.pack = c := by
  obtain ⟨r, g, b, a⟩ := c
  rw [Color.pack_eq, Color.unpack_eq]
  congr 1 <;> (apply BitVec.eq_of_getLsbD_eq; intro i hi; simp only [BitVec.getLsbD_append, BitVec.getLsbD_extractLsb'])
  · simp [hi, show ¬ 24 + i < 8 by omega, show ¬ 24 + i - 8 < 8 by omega, show ¬ 24 + i - 8 - 8 < 8 by omega,
      show 24 + i - 8 - 8 - 8 = i by omega]
  · simp [hi, show ¬ 16 + i < 8 by omega, show ¬ 16 + i - 8 < 8 by omega,
      show 16 + i - 8 - 8 = i by omega]
  · simp [hi]
  · simp [hi]

theorem Color.pack_inj {c d : Color} (h : c.pack = d.pack) : c = d := by
  rw [← Color.unpack_pack c, h, Color.unpack_pack]

/-- The size a supported depth installs (R213). -/
theorem installedSize_of_supported {bpp : Nat} (h : depthSupported bpp = true) :
    installedSize bpp = Fin.ofNat 257 (2 ^ bpp) := by
  rw [installedSize, if_pos h, palSize]

/-- Any other depth installs the empty palette (R213, R214). -/
theorem installedSize_of_unsupported {bpp : Nat} (h : depthSupported bpp = false) : installedSize bpp = 0 := by
  rw [installedSize, h]; rfl

/-- The palette's entries (R213). -/
theorem State.palette_getElem? (s : State) (i : Nat) :
    s.palette[i]? = if h : i < s.palsize.val then some (s.pal[i]'(by omega)) else none := by
  have := s.palsize.isLt
  simp only [State.palette]
  by_cases h : i < s.palsize.val
  · have : i < 256 := by omega
    simp [h, this]
  · rw [List.getElem?_take, if_neg h, dif_neg h]

theorem State.palette_length (s : State) : s.palette.length = s.palsize.val := by
  have := s.palsize.isLt
  simp [State.palette]; omega

/-- A lookup below `PALSIZE` answers the entry (R216). -/
theorem State.lookupByIndex_of_lt (s : State) {i : Nat} (h : i < s.palsize.val) :
    s.lookupByIndex i = some (s.pal[i]'(by omega)) := by
  rw [State.lookupByIndex, State.palette_getElem?, dif_pos h]

/-- A lookup at or above `PALSIZE` answers nothing (R216). -/
theorem State.lookupByIndex_of_le (s : State) {i : Nat} (h : s.palsize.val ≤ i) : s.lookupByIndex i = none := by
  rw [State.lookupByIndex, State.palette_getElem?, dif_neg (by omega)]

/-- The index found holds the colour and no lower one does (R217). -/
theorem findIndex_eq_some {w : Word} {l : List Word} {i : Nat} :
    findIndex w l = some i ↔ l[i]? = some w ∧ ∀ j, j < i → l[j]? ≠ some w := by
  induction l generalizing i with
  | nil => simp [findIndex]
  | cons x l ih =>
    unfold findIndex
    by_cases hx : x = w
    · rw [if_pos hx]
      cases i with
      | zero => simp [hx]
      | succ i =>
        refine ⟨fun h => absurd h (by simp), fun h => absurd (h.2 0 (by omega)) (by simp [hx])⟩
    · rw [if_neg hx]
      cases i with
      | zero => simp [hx]
      | succ i =>
        simp only [Option.map_eq_some_iff, Nat.add_right_cancel_iff, exists_eq_right, ih, List.getElem?_cons_succ]
        refine ⟨fun h => ⟨h.1, fun j hj => ?_⟩, fun h => ⟨h.1, fun j hj => ?_⟩⟩
        · cases j with
          | zero => simp [hx]
          | succ j => simpa using h.2 j (by omega)
        · simpa using h.2 (j + 1) (by omega)

/-- NotFound: no entry equals the colour (R217). -/
theorem findIndex_eq_none {w : Word} {l : List Word} : findIndex w l = none ↔ w ∉ l := by
  induction l with
  | nil => simp [findIndex]
  | cons x l ih =>
    unfold findIndex
    by_cases hx : x = w
    · simp [hx]
    · simp [hx, ih, Ne.symm hx]

end Sys2Proof.Machine
end

