-- ==== Sys2Proof/Laws/ColorConversion.lean ====
section
/-! SUPPORT. All that the two conversion loops do: `PIX2IDX`'s (R225) and `IDX2COL`'s (R226). -/

namespace Sys2Proof.Machine

/-! ### PIX2IDX -/

/-- The index found for pixel `k`. -/
def State.pixelIndex (s : State) (ch : Channels) (k : Nat) : Option Nat :=
  findIndex (s.rawColour ch k).pack s.palette

/-- The diagnostic of pixel `k`, if its colour is not in the palette. -/
def State.pixelMiss (s : State) (ch : Channels) (k : Nat) : Option Event :=
  if s.pixelIndex ch k = none then some (.paletteMiss k (s.rawColour ch k)) else none

/-- One pixel stores one byte of `PIXMEM` and records its miss, and changes nothing else. -/
theorem State.convertPixel_eq (s : State) (ch : Channels) (k : Nat) :
    s.convertPixel ch k =
      { s with pixmem := s.pixmem.write k (byte ((s.pixelIndex ch k).getD 0)),
               misscnt := s.misscnt + word (s.pixelMiss ch k).toList.length,
               out := s.out ++ (s.pixelMiss ch k).toList } := by
  unfold State.convertPixel State.pixelMiss State.pixelIndex
  cases findIndex (s.rawColour ch k).pack s.palette <;> simp [State.writeByte, State.recordMiss, State.emit, word, byte]

/-- Pixels `k .. k + n − 1` change only `PIXMEM`, `MISSCNT` and `OUT`: one event and one count for each miss, in pixel
order, and the bytes of the pixels. -/
theorem State.convertPixels_spec (ch : Channels) (n : Nat) : ∀ (k : Nat) (s : State),
    ∃ m : Memory,
      State.convertPixels ch n k s =
        { s with pixmem := m,
                 misscnt := s.misscnt + word ((List.range' k n).filterMap (s.pixelMiss ch)).length,
                 out := s.out ++ (List.range' k n).filterMap (s.pixelMiss ch) } ∧
      (s.pixmem.wf → m.wf ∧
        (∀ j, k ≤ j → j < k + n → m.read j = byte ((s.pixelIndex ch j).getD 0)) ∧
        ∀ a, a < k ∨ k + n ≤ a → m.read a = s.pixmem.read a) ∧
      ∀ c ∈ m, c ∈ s.pixmem ∨ c.1 < k + n := by
  induction n with
  | zero =>
    intro k s
    exact ⟨s.pixmem, by simp [State.convertPixels, word], fun h => ⟨h, fun j h1 h2 => absurd h2 (by omega), fun _ _ => rfl⟩,
      fun c hc => .inl hc⟩
  | succ n ih =>
    intro k s
    obtain ⟨m, he, hm, hb⟩ := ih (k + 1) (s.convertPixel ch k)
    have hc := s.convertPixel_eq ch k
    have hidx : ∀ j, (s.convertPixel ch k).pixelIndex ch j = s.pixelIndex ch j := by rw [hc]; exact fun _ => rfl
    have hmiss : (s.convertPixel ch k).pixelMiss ch = s.pixelMiss ch := by rw [hc]; rfl
    refine ⟨m, ?_, fun hw => ?_, fun c hcm => ?_⟩
    · rw [State.convertPixels, he, hmiss, List.range'_succ, List.filterMap_cons]
      rw [hc]
      cases s.pixelMiss ch k
      · simp [word]
      · simp only [Option.toList_some, List.length_cons, List.length_nil, Nat.zero_add, List.append_assoc,
          List.cons_append, List.nil_append, word]
        congr 1
        rw [BitVec.add_assoc, ← BitVec.ofNat_add, Nat.add_comm]
    · have hp : (s.convertPixel ch k).pixmem = s.pixmem.write k (byte ((s.pixelIndex ch k).getD 0)) := by rw [hc]
      rw [hp] at hm
      obtain ⟨h1, h2, h3⟩ := hm (Memory.write_wf hw _ _)
      refine ⟨h1, fun j hj1 hj2 => ?_, fun a ha => ?_⟩
      · by_cases hj : j = k
        · subst hj
          rw [h3 j (by omega), Memory.read_write hw, if_pos rfl]
        · rw [h2 j (by omega) (by omega), hidx]
      · rw [h3 a (by omega), Memory.read_write hw, if_neg (by omega)]
    · rcases hb c hcm with h | h
      · rw [hc] at h
        rcases Memory.mem_write h with h | h
        · exact .inl h
        · exact .inr (by rw [h]; show k < _; omega)
      · exact .inr (by omega)

/-! ### IDX2COL -/

/-- The bytes one pixel stores, and nothing else. -/
theorem State.storeColour_eq (s : State) (k : Nat) (c : Color) :
    s.storeColour k c =
      { s with colmem := (((s.colmem.write (4 * k) c.r).write (4 * k + 1) c.g).write (4 * k + 2) c.b).write (4 * k + 3) c.a } := by
  simp only [State.storeColour, State.writeByte, Config.redByte, Config.greenByte, Config.blueByte, Config.alphaByte,
    Nat.add_zero]

@[simp] theorem State.storeColour_pixmem (s : State) (k : Nat) (c : Color) : (s.storeColour k c).pixmem = s.pixmem := by
  rw [State.storeColour_eq]

@[simp] theorem State.storeColour_palsize (s : State) (k : Nat) (c : Color) :
    (s.storeColour k c).palsize = s.palsize := by
  rw [State.storeColour_eq]

@[simp] theorem State.storeColour_collen (s : State) (k : Nat) (c : Color) : (s.storeColour k c).collen = s.collen := by
  rw [State.storeColour_eq]

@[simp] theorem State.storeColour_lookupByIndex (s : State) (k : Nat) (c : Color) (i : Nat) :
    (s.storeColour k c).lookupByIndex i = s.lookupByIndex i := by
  rw [State.storeColour_eq]; rfl

/-- A read of `COLMEM` after one pixel is stored. -/
theorem State.storeColour_read {s : State} (h : s.colmem.wf) (k : Nat) (c : Color) (a : Nat) :
    (s.storeColour k c).colmem.read a =
      if a = 4 * k + 3 then c.a else if a = 4 * k + 2 then c.b else if a = 4 * k + 1 then c.g
      else if a = 4 * k then c.r else s.colmem.read a := by
  have h0 := Memory.write_wf h (4 * k) c.r
  have h1 := Memory.write_wf h0 (4 * k + 1) c.g
  have h2 := Memory.write_wf h1 (4 * k + 2) c.b
  rw [State.storeColour_eq]
  simp only
  rw [Memory.read_write h2, Memory.read_write h1, Memory.read_write h0, Memory.read_write h]

theorem State.storeColour_wf {s : State} (h : s.colmem.wf) (k : Nat) (c : Color) : (s.storeColour k c).colmem.wf := by
  rw [State.storeColour_eq]
  exact Memory.write_wf (Memory.write_wf (Memory.write_wf (Memory.write_wf h _ _) _ _) _ _) _ _

theorem State.storeColour_below {s : State} {n : Nat} (h : ∀ c ∈ s.colmem, c.1 < n) {k : Nat} (hk : 4 * k + 3 < n)
    (c : Color) : ∀ d ∈ (s.storeColour k c).colmem, d.1 < n := by
  rw [State.storeColour_eq]
  exact Memory.write_below (Memory.write_below (Memory.write_below (Memory.write_below h (by omega) _) (by omega) _)
    (by omega) _) hk _

/-- Pixels `k .. k + n − 1` when every index among them is in the palette: the bytes of their entries, and `COLLEN`. -/
theorem State.convertIndices_complete (n : Nat) : ∀ (k : Nat) (s : State),
    (∀ j, k ≤ j → j < k + n → (s.pixmem.read j).toNat < s.palsize.val) →
    ∃ m : Memory,
      State.convertIndices n k s = { s with colmem := m, collen := word (4 * (k + n)) } ∧
      ((∀ c ∈ s.colmem, c.1 < 4 * (k + n)) → ∀ c ∈ m, c.1 < 4 * (k + n)) ∧
      (s.colmem.wf → m.wf ∧
        (∀ (j : Nat) (w : Word), k ≤ j → j < k + n → s.lookupByIndex (s.pixmem.read j).toNat = some w →
          m.read (4 * j) = (Color.unpack w).r ∧ m.read (4 * j + 1) = (Color.unpack w).g ∧
          m.read (4 * j + 2) = (Color.unpack w).b ∧ m.read (4 * j + 3) = (Color.unpack w).a) ∧
        ∀ a, a < 4 * k ∨ 4 * (k + n) ≤ a → m.read a = s.colmem.read a) := by
  induction n with
  | zero =>
    intro k s _
    exact ⟨s.colmem, rfl, fun h => h, fun h => ⟨h, fun j w h1 h2 => absurd h2 (by omega), fun _ _ => rfl⟩⟩
  | succ n ih =>
    intro k s hin
    have hk := s.lookupByIndex_of_lt (hin k (by omega) (by omega))
    generalize s.pal[(s.pixmem.read k).toNat]'(by have := hin k (by omega) (by omega); omega) = w at hk
    have hs := s.storeColour_eq k (Color.unpack w)
    have hn : k + 1 + n = k + (n + 1) := by omega
    have hrest : ∀ j, k + 1 ≤ j → j < k + 1 + n →
        ((s.storeColour k (Color.unpack w)).pixmem.read j).toNat < (s.storeColour k (Color.unpack w)).palsize.val := by
      intro j h1 h2
      rw [State.storeColour_pixmem, State.storeColour_palsize]
      exact hin j (by omega) (by omega)
    obtain ⟨m, he, hb, hm⟩ := ih (k + 1) _ hrest
    simp only [State.storeColour_pixmem, State.storeColour_lookupByIndex] at hm
    rw [hn] at he hb hm
    refine ⟨m, ?_, fun hbelow => hb (State.storeColour_below hbelow (by omega) _), fun hw => ?_⟩
    · rw [State.convertIndices, hk]
      simp only
      rw [he, hs]
    · obtain ⟨h1, h2, h3⟩ := hm (State.storeColour_wf hw k _)
      refine ⟨h1, fun j v hj1 hj2 hv => ?_, fun a ha => ?_⟩
      · by_cases hj : j = k
        · subst hj
          obtain rfl : w = v := by rw [hk] at hv; exact Option.some.inj hv
          rw [h3 _ (by omega), h3 _ (by omega), h3 _ (by omega), h3 _ (by omega)]
          simp only [State.storeColour_read hw]
          simp
        · exact h2 j v (by omega) (by omega) hv
      · rw [h3 a (by omega), State.storeColour_read hw, if_neg (by omega), if_neg (by omega), if_neg (by omega),
          if_neg (by omega)]

/-- Pixels `k .. k + n + more` when the first index not in the palette is that of pixel `k + n`: the pixels before it
are converted, and then the fault. -/
theorem State.convertIndices_stopped (n : Nat) : ∀ (k more : Nat) (s : State),
    (∀ j, k ≤ j → j < k + n → (s.pixmem.read j).toNat < s.palsize.val) →
    s.palsize.val ≤ (s.pixmem.read (k + n)).toNat →
    State.convertIndices (n + (more + 1)) k s =
      ({ State.convertIndices n k s with collen := s.collen } : State).raiseFault .palidx
        (s.pixmem.read (k + n)).toNat := by
  induction n with
  | zero =>
    intro k more s _ hbad
    rw [Nat.add_zero] at hbad
    rw [Nat.zero_add, Nat.add_zero]
    conv => lhs; rw [State.convertIndices, s.lookupByIndex_of_le hbad]
    rfl
  | succ n ih =>
    intro k more s hin hbad
    have hk := s.lookupByIndex_of_lt (hin k (by omega) (by omega))
    generalize s.pal[(s.pixmem.read k).toNat]'(by have := hin k (by omega) (by omega); omega) = w at hk
    have hn : k + 1 + n = k + (n + 1) := by omega
    have hrest : ∀ j, k + 1 ≤ j → j < k + 1 + n →
        ((s.storeColour k (Color.unpack w)).pixmem.read j).toNat < (s.storeColour k (Color.unpack w)).palsize.val := by
      intro j h1 h2
      rw [State.storeColour_pixmem, State.storeColour_palsize]
      exact hin j (by omega) (by omega)
    have := ih (k + 1) more _ hrest (by rw [State.storeColour_pixmem, State.storeColour_palsize, hn]; exact hbad)
    rw [State.storeColour_pixmem, State.storeColour_collen, hn] at this
    have e : n + 1 + (more + 1) = n + (more + 1) + 1 := by omega
    rw [e, State.convertIndices, hk]
    simp only
    rw [this]
    conv => rhs; rw [State.convertIndices, hk]

/-- The two ways the loop can end, and that it keeps `COLMEM` canonical and inside its capacity. -/
theorem State.convertIndices_cases (n : Nat) : ∀ (k : Nat) (s : State),
    ∃ m : Memory,
      (State.convertIndices n k s = { s with colmem := m, collen := word (4 * (k + n)) } ∨
        ∃ j, k ≤ j ∧ j < k + n ∧ State.convertIndices n k s =
          ({ s with colmem := m } : State).raiseFault .palidx (s.pixmem.read j).toNat) ∧
      (s.colmem.wf → m.wf) ∧
      ∀ top, 4 * (k + n) ≤ top → (∀ c ∈ s.colmem, c.1 < top) → ∀ c ∈ m, c.1 < top := by
  induction n with
  | zero => exact fun k s => ⟨s.colmem, .inl rfl, fun h => h, fun _ _ h => h⟩
  | succ n ih =>
    intro k s
    cases hk : s.lookupByIndex (s.pixmem.read k).toNat with
    | none =>
      refine ⟨s.colmem, .inr ⟨k, by omega, by omega, ?_⟩, fun h => h, fun _ _ h => h⟩
      rw [State.convertIndices, hk]
    | some w =>
      obtain ⟨m, he, hw, hb⟩ := ih (k + 1) (s.storeColour k (Color.unpack w))
      have hs := s.storeColour_eq k (Color.unpack w)
      have hn : k + 1 + n = k + (n + 1) := by omega
      rw [hn] at he hb
      refine ⟨m, ?_, fun h => hw (State.storeColour_wf h k _),
        fun top ht h => hb top ht (State.storeColour_below h (by omega) _)⟩
      rw [State.convertIndices, hk]
      simp only
      rcases he with he | ⟨j, h1, h2, he⟩
      · exact .inl (by rw [he, hs])
      · exact .inr ⟨j, by omega, h2, by rw [he, State.storeColour_pixmem, hs]⟩

/-! ### The two commands -/

/-- All that `PIX2IDX` can do after its operand check. -/
theorem State.pixelsToIndexed_cases (s : State) (ch : Channels) :
    s.pixelsToIndexed ch = ({ s with misscnt := 0 } : State).raiseFault .bounds 3 ∨
    s.pixelsToIndexed ch = ({ s with misscnt := 0 } : State).raiseFault .bounds 2 ∨
    ∃ m : Memory, s.rawlen.toNat / ch.count ≤ s.capacity .pixmem ∧
      s.pixelsToIndexed ch =
        { s with pixmem := m,
                 misscnt := word ((List.range' 0 (s.rawlen.toNat / ch.count)).filterMap (s.pixelMiss ch)).length,
                 out := s.out ++ (List.range' 0 (s.rawlen.toNat / ch.count)).filterMap (s.pixelMiss ch),
                 pixlen := word (s.rawlen.toNat / ch.count) } ∧
      (s.pixmem.wf → m.wf) ∧ ∀ c ∈ m, c ∈ s.pixmem ∨ c.1 < s.rawlen.toNat / ch.count := by
  unfold State.pixelsToIndexed
  simp only
  split
  · exact .inl rfl
  split
  · exact .inr (.inl rfl)
  · next h1 h2 =>
    obtain ⟨m, he, hm, hb⟩ := State.convertPixels_spec ch (s.rawlen.toNat / ch.count) 0 { s with misscnt := 0 }
    refine .inr (.inr ⟨m, Nat.le_of_not_lt h2, ?_, fun h => (hm h).1, fun c hc => ?_⟩)
    · have e : (0 : Word) + word ((List.range' 0 (s.rawlen.toNat / ch.count)).filterMap (s.pixelMiss ch)).length
          = word ((List.range' 0 (s.rawlen.toNat / ch.count)).filterMap (s.pixelMiss ch)).length := BitVec.zero_add _
      rw [he, ← e]
      rfl
    · simpa using hb c hc

/-- All that `IDX2COL` can do. -/
theorem State.indexedToColors_cases (s : State) :
    s.indexedToColors = s.raiseFault .bounds 2 ∨ s.indexedToColors = s.raiseFault .bounds 4 ∨
    ∃ m : Memory,
      (s.indexedToColors = { s with colmem := m, collen := word (4 * s.pixlen.toNat) } ∨
        ∃ j, j < s.pixlen.toNat ∧
          s.indexedToColors = ({ s with colmem := m } : State).raiseFault .palidx (s.pixmem.read j).toNat) ∧
      (s.colmem.wf → m.wf) ∧
      ((∀ c ∈ s.colmem, c.1 < s.capacity .colmem) → ∀ c ∈ m, c.1 < s.capacity .colmem) := by
  unfold State.indexedToColors
  split
  · exact .inl rfl
  split
  · exact .inr (.inl rfl)
  · next h1 h2 =>
    obtain ⟨m, he, hw, hb⟩ := State.convertIndices_cases s.pixlen.toNat 0 s
    rw [Nat.zero_add] at he hb
    refine .inr (.inr ⟨m, ?_, hw, hb _ (Nat.le_of_not_lt h2)⟩)
    rcases he with he | ⟨j, _, h, he⟩
    · exact .inl he
    · exact .inr ⟨j, h, he⟩

end Sys2Proof.Machine
end

