-- ==== Sys2Proof/Laws/Operands.lean ====
section
/-! SUPPORT. The operand checks as propositions, and the two cases of the depth check (R103, R251, R253). -/

namespace Sys2Proof.Machine

theorem depthSupported_iff (n : Nat) : depthSupported n = true ↔ n = 2 ∨ n = 3 ∨ n = 4 ∨ n = 8 := by
  simp [depthSupported, or_assoc]

/-- At a supported depth the command goes on (R253). -/
theorem State.withDepth_of_supported {s : State} (h : depthSupported s.bpp.toNat = true) (rest : State → State) :
    s.withDepth rest = rest s := by
  simp [State.withDepth, State.depth, h]

/-- At any other depth it raises `F_CONFIG` with the depth (R253). -/
theorem State.withDepth_of_unsupported {s : State} (h : depthSupported s.bpp.toNat = false) (rest : State → State) :
    s.withDepth rest = s.raiseFault .config s.bpp.toNat := by
  simp [State.withDepth, State.depth, h]

/-- What the depth check leaves: the rest of the command, or the fault. -/
theorem State.withDepth_cases (s : State) (rest : State → State) :
    depthSupported s.bpp.toNat = true ∧ s.withDepth rest = rest s ∨
      depthSupported s.bpp.toNat = false ∧ s.withDepth rest = s.raiseFault .config s.bpp.toNat := by
  cases h : depthSupported s.bpp.toNat
  · exact .inr ⟨rfl, State.withDepth_of_unsupported h rest⟩
  · exact .inl ⟨rfl, State.withDepth_of_supported h rest⟩

/-- The same after acceptance, which leaves the depth (R100). -/
theorem State.accept_withDepth_of_supported {s : State} (h : depthSupported s.bpp.toNat = true)
    (rest : State → State) : s.accept.withDepth rest = rest s.accept :=
  State.withDepth_of_supported (s := s.accept) h rest

theorem State.accept_withDepth_of_unsupported {s : State} (h : depthSupported s.bpp.toNat = false)
    (rest : State → State) : s.accept.withDepth rest = s.accept.raiseFault .config s.bpp.toNat :=
  State.withDepth_of_unsupported (s := s.accept) h rest

theorem fieldInByte_iff (idx : Fin 8) (n : Fin 16) :
    fieldInByte idx n = true ↔ 1 ≤ n.val ∧ n.val ≤ 8 ∧ idx.val + n.val ≤ 8 := by
  revert idx n; decide

/-- The check a meaning makes is the one well-formedness makes (R103). -/
theorem fieldInByte_eq_fieldInRange (idx : Fin 8) (n : Fin 16) : fieldInByte idx n = Instr.fieldInRange idx n := by
  revert idx n; decide

/-- The channel counts a command takes are the well-formed ones (R103). -/
theorem channelsOfField_isSome (ch : Fin 16) : (channelsOfField ch).isSome = Instr.channelsInRange ch := by
  revert ch; decide

/-- The count of an accepted field is the field (R224, R225). -/
theorem channelsOfField_count {ch : Fin 16} {n : Channels} (h : channelsOfField ch = some n) : n.count = ch.val := by
  revert ch n
  have : ∀ (ch : Fin 16), ∀ n ∈ channelsOfField ch, n.count = ch.val := by decide
  exact fun {ch n} h => this ch n h

end Sys2Proof.Machine
end

