-- ==== Sys2Proof/Laws/PerInstr.lean ====
section
/-! SUPPORT. Statements made once per command of Instr, about the command as syntax. -/

namespace Sys2Proof.Laws.Encoded

/-- The `OP` of a command (R104). -/
def op : Instr → Word
  | .getbit _ => 0x10
  | .setbit _ => 0x11
  | .getbits _ _ => 0x12
  | .setbits _ _ => 0x13
  | .decpix _ _ => 0x20
  | .decrow _ => 0x21
  | .dectile => 0x22
  | .encrow => 0x23
  | .enctile => 0x24
  | .toidx => 0x30
  | .torgba => 0x31
  | .tochr => 0x32
  | .reqh => 0x40
  | .defpal => 0x50
  | .palcommit => 0x51
  | .lookup => 0x52
  | .find => 0x53
  | .colch _ => 0x54
  | .pix2idx _ => 0x55
  | .idx2col => 0x56

/-- Bits 7:0 of a command's word are its `OP`, and the field `Z` is zero (R101, R102). -/
def Statement (i : Instr) : Prop := encode i &&& 0xFF = op i ∧ encode i &&& 0xFFFC0000 = 0

theorem getbit (idx : Fin 8) : Statement (.getbit idx) := by revert idx; unfold Statement; decide
theorem setbit (idx : Fin 8) : Statement (.setbit idx) := by revert idx; unfold Statement; decide
theorem getbits (idx : Fin 8) (n : Fin 16) : Statement (.getbits idx n) := by revert idx n; unfold Statement; decide
theorem setbits (idx : Fin 8) (n : Fin 16) : Statement (.setbits idx n) := by revert idx n; unfold Statement; decide
theorem decpix (row col : Fin 8) : Statement (.decpix row col) := by revert row col; unfold Statement; decide
theorem decrow (row : Fin 8) : Statement (.decrow row) := by revert row; unfold Statement; decide
theorem dectile : Statement .dectile := by unfold Statement; decide
theorem encrow : Statement .encrow := by unfold Statement; decide
theorem enctile : Statement .enctile := by unfold Statement; decide
theorem toidx : Statement .toidx := by unfold Statement; decide
theorem torgba : Statement .torgba := by unfold Statement; decide
theorem tochr : Statement .tochr := by unfold Statement; decide
theorem reqh : Statement .reqh := by unfold Statement; decide
theorem defpal : Statement .defpal := by unfold Statement; decide
theorem palcommit : Statement .palcommit := by unfold Statement; decide
theorem lookup : Statement .lookup := by unfold Statement; decide
theorem find : Statement .find := by unfold Statement; decide
theorem colch (ch : Fin 16) : Statement (.colch ch) := by revert ch; unfold Statement; decide
theorem pix2idx (ch : Fin 16) : Statement (.pix2idx ch) := by revert ch; unfold Statement; decide
theorem idx2col : Statement .idx2col := by unfold Statement; decide

end Sys2Proof.Laws.Encoded
end

