-- ==== Sys2Proof/Laws/State.lean ====
section
/-! SUPPORT. One lemma per field per update of the state: the value the update writes, or the old one. -/

namespace Sys2Proof.Machine

/-! ### `setR0` -/

@[simp] theorem State.setR0_eng (s : State) (v : Word) : (s.setR0 v).eng = s.eng := rfl
@[simp] theorem State.setR0_verr (s : State) (v : Word) : (s.setR0 v).verr = s.verr := rfl
@[simp] theorem State.setR0_notfound (s : State) (v : Word) : (s.setR0 v).notfound = s.notfound := rfl
@[simp] theorem State.setR0_outkind (s : State) (v : Word) : (s.setR0 v).outkind = s.outkind := rfl
@[simp] theorem State.setR0_cause (s : State) (v : Word) : (s.setR0 v).cause = s.cause := rfl
@[simp] theorem State.setR0_finfo (s : State) (v : Word) : (s.setR0 v).finfo = s.finfo := rfl
@[simp] theorem State.setR0_bpp (s : State) (v : Word) : (s.setR0 v).bpp = s.bpp := rfl
@[simp] theorem State.setR0_layout (s : State) (v : Word) : (s.setR0 v).layout = s.layout := rfl
@[simp] theorem State.setR0_palsize (s : State) (v : Word) : (s.setR0 v).palsize = s.palsize := rfl
@[simp] theorem State.setR0_misscnt (s : State) (v : Word) : (s.setR0 v).misscnt = s.misscnt := rfl
@[simp] theorem State.setR0_outcnt (s : State) (v : Word) : (s.setR0 v).outcnt = s.outcnt := rfl
@[simp] theorem State.setR0_chrlen (s : State) (v : Word) : (s.setR0 v).chrlen = s.chrlen := rfl
@[simp] theorem State.setR0_pixlen (s : State) (v : Word) : (s.setR0 v).pixlen = s.pixlen := rfl
@[simp] theorem State.setR0_rawlen (s : State) (v : Word) : (s.setR0 v).rawlen = s.rawlen := rfl
@[simp] theorem State.setR0_collen (s : State) (v : Word) : (s.setR0 v).collen = s.collen := rfl
@[simp] theorem State.setR0_width (s : State) (v : Word) : (s.setR0 v).width = s.width := rfl
@[simp] theorem State.setR0_height (s : State) (v : Word) : (s.setR0 v).height = s.height := rfl
@[simp] theorem State.setR0_a0 (s : State) (v : Word) : (s.setR0 v).a0 = s.a0 := rfl
@[simp] theorem State.setR0_a1 (s : State) (v : Word) : (s.setR0 v).a1 = s.a1 := rfl
@[simp] theorem State.setR0_r0 (s : State) (v : Word) : (s.setR0 v).r0 = v := rfl
@[simp] theorem State.setR0_tile (s : State) (v : Word) : (s.setR0 v).tile = s.tile := rfl
@[simp] theorem State.setR0_grid (s : State) (v : Word) : (s.setR0 v).grid = s.grid := rfl
@[simp] theorem State.setR0_row (s : State) (v : Word) : (s.setR0 v).row = s.row := rfl
@[simp] theorem State.setR0_plane (s : State) (v : Word) : (s.setR0 v).plane = s.plane := rfl
@[simp] theorem State.setR0_scan (s : State) (v : Word) : (s.setR0 v).scan = s.scan := rfl
@[simp] theorem State.setR0_cscan (s : State) (v : Word) : (s.setR0 v).cscan = s.cscan := rfl
@[simp] theorem State.setR0_pal (s : State) (v : Word) : (s.setR0 v).pal = s.pal := rfl
@[simp] theorem State.setR0_chrmem (s : State) (v : Word) : (s.setR0 v).chrmem = s.chrmem := rfl
@[simp] theorem State.setR0_pixmem (s : State) (v : Word) : (s.setR0 v).pixmem = s.pixmem := rfl
@[simp] theorem State.setR0_rawmem (s : State) (v : Word) : (s.setR0 v).rawmem = s.rawmem := rfl
@[simp] theorem State.setR0_colmem (s : State) (v : Word) : (s.setR0 v).colmem = s.colmem := rfl
@[simp] theorem State.setR0_out (s : State) (v : Word) : (s.setR0 v).out = s.out := rfl
@[simp] theorem State.setR0_cfg (s : State) (v : Word) : (s.setR0 v).cfg = s.cfg := rfl
@[simp] theorem State.setR0_host (s : State) (v : Word) : (s.setR0 v).host = s.host := rfl
@[simp] theorem State.setR0_reads (s : State) (v : Word) : (s.setR0 v).reads = s.reads := rfl
@[simp] theorem State.setR0_fresh (s : State) (v : Word) : (s.setR0 v).fresh = s.fresh := rfl
@[simp] theorem State.setR0_depth (s : State) (v : Word) : (s.setR0 v).depth = s.depth := rfl
@[simp] theorem State.setR0_palette (s : State) (v : Word) : (s.setR0 v).palette = s.palette := rfl
@[simp] theorem State.setR0_capacity (s : State) (v : Word) (sp : Space) : (s.setR0 v).capacity sp = s.capacity sp := rfl
@[simp] theorem State.setR0_memory (s : State) (v : Word) (sp : Space) : (s.setR0 v).memory sp = s.memory sp := rfl

/-! ### `setRow` -/

@[simp] theorem State.setRow_eng (s : State) (f : Fin 8 → Byte) : (s.setRow f).eng = s.eng := rfl
@[simp] theorem State.setRow_verr (s : State) (f : Fin 8 → Byte) : (s.setRow f).verr = s.verr := rfl
@[simp] theorem State.setRow_notfound (s : State) (f : Fin 8 → Byte) : (s.setRow f).notfound = s.notfound := rfl
@[simp] theorem State.setRow_outkind (s : State) (f : Fin 8 → Byte) : (s.setRow f).outkind = s.outkind := rfl
@[simp] theorem State.setRow_cause (s : State) (f : Fin 8 → Byte) : (s.setRow f).cause = s.cause := rfl
@[simp] theorem State.setRow_finfo (s : State) (f : Fin 8 → Byte) : (s.setRow f).finfo = s.finfo := rfl
@[simp] theorem State.setRow_bpp (s : State) (f : Fin 8 → Byte) : (s.setRow f).bpp = s.bpp := rfl
@[simp] theorem State.setRow_layout (s : State) (f : Fin 8 → Byte) : (s.setRow f).layout = s.layout := rfl
@[simp] theorem State.setRow_palsize (s : State) (f : Fin 8 → Byte) : (s.setRow f).palsize = s.palsize := rfl
@[simp] theorem State.setRow_misscnt (s : State) (f : Fin 8 → Byte) : (s.setRow f).misscnt = s.misscnt := rfl
@[simp] theorem State.setRow_outcnt (s : State) (f : Fin 8 → Byte) : (s.setRow f).outcnt = s.outcnt := rfl
@[simp] theorem State.setRow_chrlen (s : State) (f : Fin 8 → Byte) : (s.setRow f).chrlen = s.chrlen := rfl
@[simp] theorem State.setRow_pixlen (s : State) (f : Fin 8 → Byte) : (s.setRow f).pixlen = s.pixlen := rfl
@[simp] theorem State.setRow_rawlen (s : State) (f : Fin 8 → Byte) : (s.setRow f).rawlen = s.rawlen := rfl
@[simp] theorem State.setRow_collen (s : State) (f : Fin 8 → Byte) : (s.setRow f).collen = s.collen := rfl
@[simp] theorem State.setRow_width (s : State) (f : Fin 8 → Byte) : (s.setRow f).width = s.width := rfl
@[simp] theorem State.setRow_height (s : State) (f : Fin 8 → Byte) : (s.setRow f).height = s.height := rfl
@[simp] theorem State.setRow_a0 (s : State) (f : Fin 8 → Byte) : (s.setRow f).a0 = s.a0 := rfl
@[simp] theorem State.setRow_a1 (s : State) (f : Fin 8 → Byte) : (s.setRow f).a1 = s.a1 := rfl
@[simp] theorem State.setRow_r0 (s : State) (f : Fin 8 → Byte) : (s.setRow f).r0 = s.r0 := rfl
@[simp] theorem State.setRow_tile (s : State) (f : Fin 8 → Byte) : (s.setRow f).tile = s.tile := rfl
@[simp] theorem State.setRow_grid (s : State) (f : Fin 8 → Byte) : (s.setRow f).grid = s.grid := rfl
@[simp] theorem State.setRow_row (s : State) (f : Fin 8 → Byte) : (s.setRow f).row = tabulate f := rfl
@[simp] theorem State.setRow_plane (s : State) (f : Fin 8 → Byte) : (s.setRow f).plane = s.plane := rfl
@[simp] theorem State.setRow_scan (s : State) (f : Fin 8 → Byte) : (s.setRow f).scan = s.scan := rfl
@[simp] theorem State.setRow_cscan (s : State) (f : Fin 8 → Byte) : (s.setRow f).cscan = s.cscan := rfl
@[simp] theorem State.setRow_pal (s : State) (f : Fin 8 → Byte) : (s.setRow f).pal = s.pal := rfl
@[simp] theorem State.setRow_chrmem (s : State) (f : Fin 8 → Byte) : (s.setRow f).chrmem = s.chrmem := rfl
@[simp] theorem State.setRow_pixmem (s : State) (f : Fin 8 → Byte) : (s.setRow f).pixmem = s.pixmem := rfl
@[simp] theorem State.setRow_rawmem (s : State) (f : Fin 8 → Byte) : (s.setRow f).rawmem = s.rawmem := rfl
@[simp] theorem State.setRow_colmem (s : State) (f : Fin 8 → Byte) : (s.setRow f).colmem = s.colmem := rfl
@[simp] theorem State.setRow_out (s : State) (f : Fin 8 → Byte) : (s.setRow f).out = s.out := rfl
@[simp] theorem State.setRow_cfg (s : State) (f : Fin 8 → Byte) : (s.setRow f).cfg = s.cfg := rfl
@[simp] theorem State.setRow_host (s : State) (f : Fin 8 → Byte) : (s.setRow f).host = s.host := rfl
@[simp] theorem State.setRow_reads (s : State) (f : Fin 8 → Byte) : (s.setRow f).reads = s.reads := rfl
@[simp] theorem State.setRow_fresh (s : State) (f : Fin 8 → Byte) : (s.setRow f).fresh = s.fresh := rfl
@[simp] theorem State.setRow_depth (s : State) (f : Fin 8 → Byte) : (s.setRow f).depth = s.depth := rfl
@[simp] theorem State.setRow_palette (s : State) (f : Fin 8 → Byte) : (s.setRow f).palette = s.palette := rfl
@[simp] theorem State.setRow_capacity (s : State) (f : Fin 8 → Byte) (sp : Space) : (s.setRow f).capacity sp = s.capacity sp := rfl
@[simp] theorem State.setRow_memory (s : State) (f : Fin 8 → Byte) (sp : Space) : (s.setRow f).memory sp = s.memory sp := rfl

/-! ### `setGrid` -/

@[simp] theorem State.setGrid_eng (s : State) (f : Fin 64 → Byte) : (s.setGrid f).eng = s.eng := rfl
@[simp] theorem State.setGrid_verr (s : State) (f : Fin 64 → Byte) : (s.setGrid f).verr = s.verr := rfl
@[simp] theorem State.setGrid_notfound (s : State) (f : Fin 64 → Byte) : (s.setGrid f).notfound = s.notfound := rfl
@[simp] theorem State.setGrid_outkind (s : State) (f : Fin 64 → Byte) : (s.setGrid f).outkind = s.outkind := rfl
@[simp] theorem State.setGrid_cause (s : State) (f : Fin 64 → Byte) : (s.setGrid f).cause = s.cause := rfl
@[simp] theorem State.setGrid_finfo (s : State) (f : Fin 64 → Byte) : (s.setGrid f).finfo = s.finfo := rfl
@[simp] theorem State.setGrid_bpp (s : State) (f : Fin 64 → Byte) : (s.setGrid f).bpp = s.bpp := rfl
@[simp] theorem State.setGrid_layout (s : State) (f : Fin 64 → Byte) : (s.setGrid f).layout = s.layout := rfl
@[simp] theorem State.setGrid_palsize (s : State) (f : Fin 64 → Byte) : (s.setGrid f).palsize = s.palsize := rfl
@[simp] theorem State.setGrid_misscnt (s : State) (f : Fin 64 → Byte) : (s.setGrid f).misscnt = s.misscnt := rfl
@[simp] theorem State.setGrid_outcnt (s : State) (f : Fin 64 → Byte) : (s.setGrid f).outcnt = s.outcnt := rfl
@[simp] theorem State.setGrid_chrlen (s : State) (f : Fin 64 → Byte) : (s.setGrid f).chrlen = s.chrlen := rfl
@[simp] theorem State.setGrid_pixlen (s : State) (f : Fin 64 → Byte) : (s.setGrid f).pixlen = s.pixlen := rfl
@[simp] theorem State.setGrid_rawlen (s : State) (f : Fin 64 → Byte) : (s.setGrid f).rawlen = s.rawlen := rfl
@[simp] theorem State.setGrid_collen (s : State) (f : Fin 64 → Byte) : (s.setGrid f).collen = s.collen := rfl
@[simp] theorem State.setGrid_width (s : State) (f : Fin 64 → Byte) : (s.setGrid f).width = s.width := rfl
@[simp] theorem State.setGrid_height (s : State) (f : Fin 64 → Byte) : (s.setGrid f).height = s.height := rfl
@[simp] theorem State.setGrid_a0 (s : State) (f : Fin 64 → Byte) : (s.setGrid f).a0 = s.a0 := rfl
@[simp] theorem State.setGrid_a1 (s : State) (f : Fin 64 → Byte) : (s.setGrid f).a1 = s.a1 := rfl
@[simp] theorem State.setGrid_r0 (s : State) (f : Fin 64 → Byte) : (s.setGrid f).r0 = s.r0 := rfl
@[simp] theorem State.setGrid_tile (s : State) (f : Fin 64 → Byte) : (s.setGrid f).tile = s.tile := rfl
@[simp] theorem State.setGrid_grid (s : State) (f : Fin 64 → Byte) : (s.setGrid f).grid = tabulate f := rfl
@[simp] theorem State.setGrid_row (s : State) (f : Fin 64 → Byte) : (s.setGrid f).row = s.row := rfl
@[simp] theorem State.setGrid_plane (s : State) (f : Fin 64 → Byte) : (s.setGrid f).plane = s.plane := rfl
@[simp] theorem State.setGrid_scan (s : State) (f : Fin 64 → Byte) : (s.setGrid f).scan = s.scan := rfl
@[simp] theorem State.setGrid_cscan (s : State) (f : Fin 64 → Byte) : (s.setGrid f).cscan = s.cscan := rfl
@[simp] theorem State.setGrid_pal (s : State) (f : Fin 64 → Byte) : (s.setGrid f).pal = s.pal := rfl
@[simp] theorem State.setGrid_chrmem (s : State) (f : Fin 64 → Byte) : (s.setGrid f).chrmem = s.chrmem := rfl
@[simp] theorem State.setGrid_pixmem (s : State) (f : Fin 64 → Byte) : (s.setGrid f).pixmem = s.pixmem := rfl
@[simp] theorem State.setGrid_rawmem (s : State) (f : Fin 64 → Byte) : (s.setGrid f).rawmem = s.rawmem := rfl
@[simp] theorem State.setGrid_colmem (s : State) (f : Fin 64 → Byte) : (s.setGrid f).colmem = s.colmem := rfl
@[simp] theorem State.setGrid_out (s : State) (f : Fin 64 → Byte) : (s.setGrid f).out = s.out := rfl
@[simp] theorem State.setGrid_cfg (s : State) (f : Fin 64 → Byte) : (s.setGrid f).cfg = s.cfg := rfl
@[simp] theorem State.setGrid_host (s : State) (f : Fin 64 → Byte) : (s.setGrid f).host = s.host := rfl
@[simp] theorem State.setGrid_reads (s : State) (f : Fin 64 → Byte) : (s.setGrid f).reads = s.reads := rfl
@[simp] theorem State.setGrid_fresh (s : State) (f : Fin 64 → Byte) : (s.setGrid f).fresh = s.fresh := rfl
@[simp] theorem State.setGrid_depth (s : State) (f : Fin 64 → Byte) : (s.setGrid f).depth = s.depth := rfl
@[simp] theorem State.setGrid_palette (s : State) (f : Fin 64 → Byte) : (s.setGrid f).palette = s.palette := rfl
@[simp] theorem State.setGrid_capacity (s : State) (f : Fin 64 → Byte) (sp : Space) : (s.setGrid f).capacity sp = s.capacity sp := rfl
@[simp] theorem State.setGrid_memory (s : State) (f : Fin 64 → Byte) (sp : Space) : (s.setGrid f).memory sp = s.memory sp := rfl

/-! ### `setTile` -/

@[simp] theorem State.setTile_eng (s : State) (n : Nat) (f : Fin 64 → Byte) : (s.setTile n f).eng = s.eng := rfl
@[simp] theorem State.setTile_verr (s : State) (n : Nat) (f : Fin 64 → Byte) : (s.setTile n f).verr = s.verr := rfl
@[simp] theorem State.setTile_notfound (s : State) (n : Nat) (f : Fin 64 → Byte) : (s.setTile n f).notfound = s.notfound := rfl
@[simp] theorem State.setTile_outkind (s : State) (n : Nat) (f : Fin 64 → Byte) : (s.setTile n f).outkind = s.outkind := rfl
@[simp] theorem State.setTile_cause (s : State) (n : Nat) (f : Fin 64 → Byte) : (s.setTile n f).cause = s.cause := rfl
@[simp] theorem State.setTile_finfo (s : State) (n : Nat) (f : Fin 64 → Byte) : (s.setTile n f).finfo = s.finfo := rfl
@[simp] theorem State.setTile_bpp (s : State) (n : Nat) (f : Fin 64 → Byte) : (s.setTile n f).bpp = s.bpp := rfl
@[simp] theorem State.setTile_layout (s : State) (n : Nat) (f : Fin 64 → Byte) : (s.setTile n f).layout = s.layout := rfl
@[simp] theorem State.setTile_palsize (s : State) (n : Nat) (f : Fin 64 → Byte) : (s.setTile n f).palsize = s.palsize := rfl
@[simp] theorem State.setTile_misscnt (s : State) (n : Nat) (f : Fin 64 → Byte) : (s.setTile n f).misscnt = s.misscnt := rfl
@[simp] theorem State.setTile_outcnt (s : State) (n : Nat) (f : Fin 64 → Byte) : (s.setTile n f).outcnt = s.outcnt := rfl
@[simp] theorem State.setTile_chrlen (s : State) (n : Nat) (f : Fin 64 → Byte) : (s.setTile n f).chrlen = s.chrlen := rfl
@[simp] theorem State.setTile_pixlen (s : State) (n : Nat) (f : Fin 64 → Byte) : (s.setTile n f).pixlen = s.pixlen := rfl
@[simp] theorem State.setTile_rawlen (s : State) (n : Nat) (f : Fin 64 → Byte) : (s.setTile n f).rawlen = s.rawlen := rfl
@[simp] theorem State.setTile_collen (s : State) (n : Nat) (f : Fin 64 → Byte) : (s.setTile n f).collen = s.collen := rfl
@[simp] theorem State.setTile_width (s : State) (n : Nat) (f : Fin 64 → Byte) : (s.setTile n f).width = s.width := rfl
@[simp] theorem State.setTile_height (s : State) (n : Nat) (f : Fin 64 → Byte) : (s.setTile n f).height = s.height := rfl
@[simp] theorem State.setTile_a0 (s : State) (n : Nat) (f : Fin 64 → Byte) : (s.setTile n f).a0 = s.a0 := rfl
@[simp] theorem State.setTile_a1 (s : State) (n : Nat) (f : Fin 64 → Byte) : (s.setTile n f).a1 = s.a1 := rfl
@[simp] theorem State.setTile_r0 (s : State) (n : Nat) (f : Fin 64 → Byte) : (s.setTile n f).r0 = s.r0 := rfl
@[simp] theorem State.setTile_tile (s : State) (n : Nat) (f : Fin 64 → Byte) : (s.setTile n f).tile = tabulate fun k => if k.val < n then f k else s.tile[k] := rfl
@[simp] theorem State.setTile_grid (s : State) (n : Nat) (f : Fin 64 → Byte) : (s.setTile n f).grid = s.grid := rfl
@[simp] theorem State.setTile_row (s : State) (n : Nat) (f : Fin 64 → Byte) : (s.setTile n f).row = s.row := rfl
@[simp] theorem State.setTile_plane (s : State) (n : Nat) (f : Fin 64 → Byte) : (s.setTile n f).plane = s.plane := rfl
@[simp] theorem State.setTile_scan (s : State) (n : Nat) (f : Fin 64 → Byte) : (s.setTile n f).scan = s.scan := rfl
@[simp] theorem State.setTile_cscan (s : State) (n : Nat) (f : Fin 64 → Byte) : (s.setTile n f).cscan = s.cscan := rfl
@[simp] theorem State.setTile_pal (s : State) (n : Nat) (f : Fin 64 → Byte) : (s.setTile n f).pal = s.pal := rfl
@[simp] theorem State.setTile_chrmem (s : State) (n : Nat) (f : Fin 64 → Byte) : (s.setTile n f).chrmem = s.chrmem := rfl
@[simp] theorem State.setTile_pixmem (s : State) (n : Nat) (f : Fin 64 → Byte) : (s.setTile n f).pixmem = s.pixmem := rfl
@[simp] theorem State.setTile_rawmem (s : State) (n : Nat) (f : Fin 64 → Byte) : (s.setTile n f).rawmem = s.rawmem := rfl
@[simp] theorem State.setTile_colmem (s : State) (n : Nat) (f : Fin 64 → Byte) : (s.setTile n f).colmem = s.colmem := rfl
@[simp] theorem State.setTile_out (s : State) (n : Nat) (f : Fin 64 → Byte) : (s.setTile n f).out = s.out := rfl
@[simp] theorem State.setTile_cfg (s : State) (n : Nat) (f : Fin 64 → Byte) : (s.setTile n f).cfg = s.cfg := rfl
@[simp] theorem State.setTile_host (s : State) (n : Nat) (f : Fin 64 → Byte) : (s.setTile n f).host = s.host := rfl
@[simp] theorem State.setTile_reads (s : State) (n : Nat) (f : Fin 64 → Byte) : (s.setTile n f).reads = s.reads := rfl
@[simp] theorem State.setTile_fresh (s : State) (n : Nat) (f : Fin 64 → Byte) : (s.setTile n f).fresh = s.fresh := rfl
@[simp] theorem State.setTile_depth (s : State) (n : Nat) (f : Fin 64 → Byte) : (s.setTile n f).depth = s.depth := rfl
@[simp] theorem State.setTile_palette (s : State) (n : Nat) (f : Fin 64 → Byte) : (s.setTile n f).palette = s.palette := rfl
@[simp] theorem State.setTile_capacity (s : State) (n : Nat) (f : Fin 64 → Byte) (sp : Space) : (s.setTile n f).capacity sp = s.capacity sp := rfl
@[simp] theorem State.setTile_memory (s : State) (n : Nat) (f : Fin 64 → Byte) (sp : Space) : (s.setTile n f).memory sp = s.memory sp := rfl

/-! ### `setPlane` -/

@[simp] theorem State.setPlane_eng (s : State) (n : Nat) (f : Fin 8 → Byte) : (s.setPlane n f).eng = s.eng := rfl
@[simp] theorem State.setPlane_verr (s : State) (n : Nat) (f : Fin 8 → Byte) : (s.setPlane n f).verr = s.verr := rfl
@[simp] theorem State.setPlane_notfound (s : State) (n : Nat) (f : Fin 8 → Byte) : (s.setPlane n f).notfound = s.notfound := rfl
@[simp] theorem State.setPlane_outkind (s : State) (n : Nat) (f : Fin 8 → Byte) : (s.setPlane n f).outkind = s.outkind := rfl
@[simp] theorem State.setPlane_cause (s : State) (n : Nat) (f : Fin 8 → Byte) : (s.setPlane n f).cause = s.cause := rfl
@[simp] theorem State.setPlane_finfo (s : State) (n : Nat) (f : Fin 8 → Byte) : (s.setPlane n f).finfo = s.finfo := rfl
@[simp] theorem State.setPlane_bpp (s : State) (n : Nat) (f : Fin 8 → Byte) : (s.setPlane n f).bpp = s.bpp := rfl
@[simp] theorem State.setPlane_layout (s : State) (n : Nat) (f : Fin 8 → Byte) : (s.setPlane n f).layout = s.layout := rfl
@[simp] theorem State.setPlane_palsize (s : State) (n : Nat) (f : Fin 8 → Byte) : (s.setPlane n f).palsize = s.palsize := rfl
@[simp] theorem State.setPlane_misscnt (s : State) (n : Nat) (f : Fin 8 → Byte) : (s.setPlane n f).misscnt = s.misscnt := rfl
@[simp] theorem State.setPlane_outcnt (s : State) (n : Nat) (f : Fin 8 → Byte) : (s.setPlane n f).outcnt = s.outcnt := rfl
@[simp] theorem State.setPlane_chrlen (s : State) (n : Nat) (f : Fin 8 → Byte) : (s.setPlane n f).chrlen = s.chrlen := rfl
@[simp] theorem State.setPlane_pixlen (s : State) (n : Nat) (f : Fin 8 → Byte) : (s.setPlane n f).pixlen = s.pixlen := rfl
@[simp] theorem State.setPlane_rawlen (s : State) (n : Nat) (f : Fin 8 → Byte) : (s.setPlane n f).rawlen = s.rawlen := rfl
@[simp] theorem State.setPlane_collen (s : State) (n : Nat) (f : Fin 8 → Byte) : (s.setPlane n f).collen = s.collen := rfl
@[simp] theorem State.setPlane_width (s : State) (n : Nat) (f : Fin 8 → Byte) : (s.setPlane n f).width = s.width := rfl
@[simp] theorem State.setPlane_height (s : State) (n : Nat) (f : Fin 8 → Byte) : (s.setPlane n f).height = s.height := rfl
@[simp] theorem State.setPlane_a0 (s : State) (n : Nat) (f : Fin 8 → Byte) : (s.setPlane n f).a0 = s.a0 := rfl
@[simp] theorem State.setPlane_a1 (s : State) (n : Nat) (f : Fin 8 → Byte) : (s.setPlane n f).a1 = s.a1 := rfl
@[simp] theorem State.setPlane_r0 (s : State) (n : Nat) (f : Fin 8 → Byte) : (s.setPlane n f).r0 = s.r0 := rfl
@[simp] theorem State.setPlane_tile (s : State) (n : Nat) (f : Fin 8 → Byte) : (s.setPlane n f).tile = s.tile := rfl
@[simp] theorem State.setPlane_grid (s : State) (n : Nat) (f : Fin 8 → Byte) : (s.setPlane n f).grid = s.grid := rfl
@[simp] theorem State.setPlane_row (s : State) (n : Nat) (f : Fin 8 → Byte) : (s.setPlane n f).row = s.row := rfl
@[simp] theorem State.setPlane_plane (s : State) (n : Nat) (f : Fin 8 → Byte) : (s.setPlane n f).plane = tabulate fun p => if p.val < n then f p else s.plane[p] := rfl
@[simp] theorem State.setPlane_scan (s : State) (n : Nat) (f : Fin 8 → Byte) : (s.setPlane n f).scan = s.scan := rfl
@[simp] theorem State.setPlane_cscan (s : State) (n : Nat) (f : Fin 8 → Byte) : (s.setPlane n f).cscan = s.cscan := rfl
@[simp] theorem State.setPlane_pal (s : State) (n : Nat) (f : Fin 8 → Byte) : (s.setPlane n f).pal = s.pal := rfl
@[simp] theorem State.setPlane_chrmem (s : State) (n : Nat) (f : Fin 8 → Byte) : (s.setPlane n f).chrmem = s.chrmem := rfl
@[simp] theorem State.setPlane_pixmem (s : State) (n : Nat) (f : Fin 8 → Byte) : (s.setPlane n f).pixmem = s.pixmem := rfl
@[simp] theorem State.setPlane_rawmem (s : State) (n : Nat) (f : Fin 8 → Byte) : (s.setPlane n f).rawmem = s.rawmem := rfl
@[simp] theorem State.setPlane_colmem (s : State) (n : Nat) (f : Fin 8 → Byte) : (s.setPlane n f).colmem = s.colmem := rfl
@[simp] theorem State.setPlane_out (s : State) (n : Nat) (f : Fin 8 → Byte) : (s.setPlane n f).out = s.out := rfl
@[simp] theorem State.setPlane_cfg (s : State) (n : Nat) (f : Fin 8 → Byte) : (s.setPlane n f).cfg = s.cfg := rfl
@[simp] theorem State.setPlane_host (s : State) (n : Nat) (f : Fin 8 → Byte) : (s.setPlane n f).host = s.host := rfl
@[simp] theorem State.setPlane_reads (s : State) (n : Nat) (f : Fin 8 → Byte) : (s.setPlane n f).reads = s.reads := rfl
@[simp] theorem State.setPlane_fresh (s : State) (n : Nat) (f : Fin 8 → Byte) : (s.setPlane n f).fresh = s.fresh := rfl
@[simp] theorem State.setPlane_depth (s : State) (n : Nat) (f : Fin 8 → Byte) : (s.setPlane n f).depth = s.depth := rfl
@[simp] theorem State.setPlane_palette (s : State) (n : Nat) (f : Fin 8 → Byte) : (s.setPlane n f).palette = s.palette := rfl
@[simp] theorem State.setPlane_capacity (s : State) (n : Nat) (f : Fin 8 → Byte) (sp : Space) : (s.setPlane n f).capacity sp = s.capacity sp := rfl
@[simp] theorem State.setPlane_memory (s : State) (n : Nat) (f : Fin 8 → Byte) (sp : Space) : (s.setPlane n f).memory sp = s.memory sp := rfl

/-! ### `setScan` -/

@[simp] theorem State.setScan_eng (s : State) (f : Fin 128 → Byte) : (s.setScan f).eng = s.eng := rfl
@[simp] theorem State.setScan_verr (s : State) (f : Fin 128 → Byte) : (s.setScan f).verr = s.verr := rfl
@[simp] theorem State.setScan_notfound (s : State) (f : Fin 128 → Byte) : (s.setScan f).notfound = s.notfound := rfl
@[simp] theorem State.setScan_outkind (s : State) (f : Fin 128 → Byte) : (s.setScan f).outkind = s.outkind := rfl
@[simp] theorem State.setScan_cause (s : State) (f : Fin 128 → Byte) : (s.setScan f).cause = s.cause := rfl
@[simp] theorem State.setScan_finfo (s : State) (f : Fin 128 → Byte) : (s.setScan f).finfo = s.finfo := rfl
@[simp] theorem State.setScan_bpp (s : State) (f : Fin 128 → Byte) : (s.setScan f).bpp = s.bpp := rfl
@[simp] theorem State.setScan_layout (s : State) (f : Fin 128 → Byte) : (s.setScan f).layout = s.layout := rfl
@[simp] theorem State.setScan_palsize (s : State) (f : Fin 128 → Byte) : (s.setScan f).palsize = s.palsize := rfl
@[simp] theorem State.setScan_misscnt (s : State) (f : Fin 128 → Byte) : (s.setScan f).misscnt = s.misscnt := rfl
@[simp] theorem State.setScan_outcnt (s : State) (f : Fin 128 → Byte) : (s.setScan f).outcnt = s.outcnt := rfl
@[simp] theorem State.setScan_chrlen (s : State) (f : Fin 128 → Byte) : (s.setScan f).chrlen = s.chrlen := rfl
@[simp] theorem State.setScan_pixlen (s : State) (f : Fin 128 → Byte) : (s.setScan f).pixlen = s.pixlen := rfl
@[simp] theorem State.setScan_rawlen (s : State) (f : Fin 128 → Byte) : (s.setScan f).rawlen = s.rawlen := rfl
@[simp] theorem State.setScan_collen (s : State) (f : Fin 128 → Byte) : (s.setScan f).collen = s.collen := rfl
@[simp] theorem State.setScan_width (s : State) (f : Fin 128 → Byte) : (s.setScan f).width = s.width := rfl
@[simp] theorem State.setScan_height (s : State) (f : Fin 128 → Byte) : (s.setScan f).height = s.height := rfl
@[simp] theorem State.setScan_a0 (s : State) (f : Fin 128 → Byte) : (s.setScan f).a0 = s.a0 := rfl
@[simp] theorem State.setScan_a1 (s : State) (f : Fin 128 → Byte) : (s.setScan f).a1 = s.a1 := rfl
@[simp] theorem State.setScan_r0 (s : State) (f : Fin 128 → Byte) : (s.setScan f).r0 = s.r0 := rfl
@[simp] theorem State.setScan_tile (s : State) (f : Fin 128 → Byte) : (s.setScan f).tile = s.tile := rfl
@[simp] theorem State.setScan_grid (s : State) (f : Fin 128 → Byte) : (s.setScan f).grid = s.grid := rfl
@[simp] theorem State.setScan_row (s : State) (f : Fin 128 → Byte) : (s.setScan f).row = s.row := rfl
@[simp] theorem State.setScan_plane (s : State) (f : Fin 128 → Byte) : (s.setScan f).plane = s.plane := rfl
@[simp] theorem State.setScan_scan (s : State) (f : Fin 128 → Byte) : (s.setScan f).scan = tabulate f := rfl
@[simp] theorem State.setScan_cscan (s : State) (f : Fin 128 → Byte) : (s.setScan f).cscan = s.cscan := rfl
@[simp] theorem State.setScan_pal (s : State) (f : Fin 128 → Byte) : (s.setScan f).pal = s.pal := rfl
@[simp] theorem State.setScan_chrmem (s : State) (f : Fin 128 → Byte) : (s.setScan f).chrmem = s.chrmem := rfl
@[simp] theorem State.setScan_pixmem (s : State) (f : Fin 128 → Byte) : (s.setScan f).pixmem = s.pixmem := rfl
@[simp] theorem State.setScan_rawmem (s : State) (f : Fin 128 → Byte) : (s.setScan f).rawmem = s.rawmem := rfl
@[simp] theorem State.setScan_colmem (s : State) (f : Fin 128 → Byte) : (s.setScan f).colmem = s.colmem := rfl
@[simp] theorem State.setScan_out (s : State) (f : Fin 128 → Byte) : (s.setScan f).out = s.out := rfl
@[simp] theorem State.setScan_cfg (s : State) (f : Fin 128 → Byte) : (s.setScan f).cfg = s.cfg := rfl
@[simp] theorem State.setScan_host (s : State) (f : Fin 128 → Byte) : (s.setScan f).host = s.host := rfl
@[simp] theorem State.setScan_reads (s : State) (f : Fin 128 → Byte) : (s.setScan f).reads = s.reads := rfl
@[simp] theorem State.setScan_fresh (s : State) (f : Fin 128 → Byte) : (s.setScan f).fresh = s.fresh := rfl
@[simp] theorem State.setScan_depth (s : State) (f : Fin 128 → Byte) : (s.setScan f).depth = s.depth := rfl
@[simp] theorem State.setScan_palette (s : State) (f : Fin 128 → Byte) : (s.setScan f).palette = s.palette := rfl
@[simp] theorem State.setScan_capacity (s : State) (f : Fin 128 → Byte) (sp : Space) : (s.setScan f).capacity sp = s.capacity sp := rfl
@[simp] theorem State.setScan_memory (s : State) (f : Fin 128 → Byte) (sp : Space) : (s.setScan f).memory sp = s.memory sp := rfl

/-! ### `setCscan` -/

@[simp] theorem State.setCscan_eng (s : State) (n : Nat) (f : Fin 128 → Word) : (s.setCscan n f).eng = s.eng := rfl
@[simp] theorem State.setCscan_verr (s : State) (n : Nat) (f : Fin 128 → Word) : (s.setCscan n f).verr = s.verr := rfl
@[simp] theorem State.setCscan_notfound (s : State) (n : Nat) (f : Fin 128 → Word) : (s.setCscan n f).notfound = s.notfound := rfl
@[simp] theorem State.setCscan_outkind (s : State) (n : Nat) (f : Fin 128 → Word) : (s.setCscan n f).outkind = s.outkind := rfl
@[simp] theorem State.setCscan_cause (s : State) (n : Nat) (f : Fin 128 → Word) : (s.setCscan n f).cause = s.cause := rfl
@[simp] theorem State.setCscan_finfo (s : State) (n : Nat) (f : Fin 128 → Word) : (s.setCscan n f).finfo = s.finfo := rfl
@[simp] theorem State.setCscan_bpp (s : State) (n : Nat) (f : Fin 128 → Word) : (s.setCscan n f).bpp = s.bpp := rfl
@[simp] theorem State.setCscan_layout (s : State) (n : Nat) (f : Fin 128 → Word) : (s.setCscan n f).layout = s.layout := rfl
@[simp] theorem State.setCscan_palsize (s : State) (n : Nat) (f : Fin 128 → Word) : (s.setCscan n f).palsize = s.palsize := rfl
@[simp] theorem State.setCscan_misscnt (s : State) (n : Nat) (f : Fin 128 → Word) : (s.setCscan n f).misscnt = s.misscnt := rfl
@[simp] theorem State.setCscan_outcnt (s : State) (n : Nat) (f : Fin 128 → Word) : (s.setCscan n f).outcnt = s.outcnt := rfl
@[simp] theorem State.setCscan_chrlen (s : State) (n : Nat) (f : Fin 128 → Word) : (s.setCscan n f).chrlen = s.chrlen := rfl
@[simp] theorem State.setCscan_pixlen (s : State) (n : Nat) (f : Fin 128 → Word) : (s.setCscan n f).pixlen = s.pixlen := rfl
@[simp] theorem State.setCscan_rawlen (s : State) (n : Nat) (f : Fin 128 → Word) : (s.setCscan n f).rawlen = s.rawlen := rfl
@[simp] theorem State.setCscan_collen (s : State) (n : Nat) (f : Fin 128 → Word) : (s.setCscan n f).collen = s.collen := rfl
@[simp] theorem State.setCscan_width (s : State) (n : Nat) (f : Fin 128 → Word) : (s.setCscan n f).width = s.width := rfl
@[simp] theorem State.setCscan_height (s : State) (n : Nat) (f : Fin 128 → Word) : (s.setCscan n f).height = s.height := rfl
@[simp] theorem State.setCscan_a0 (s : State) (n : Nat) (f : Fin 128 → Word) : (s.setCscan n f).a0 = s.a0 := rfl
@[simp] theorem State.setCscan_a1 (s : State) (n : Nat) (f : Fin 128 → Word) : (s.setCscan n f).a1 = s.a1 := rfl
@[simp] theorem State.setCscan_r0 (s : State) (n : Nat) (f : Fin 128 → Word) : (s.setCscan n f).r0 = s.r0 := rfl
@[simp] theorem State.setCscan_tile (s : State) (n : Nat) (f : Fin 128 → Word) : (s.setCscan n f).tile = s.tile := rfl
@[simp] theorem State.setCscan_grid (s : State) (n : Nat) (f : Fin 128 → Word) : (s.setCscan n f).grid = s.grid := rfl
@[simp] theorem State.setCscan_row (s : State) (n : Nat) (f : Fin 128 → Word) : (s.setCscan n f).row = s.row := rfl
@[simp] theorem State.setCscan_plane (s : State) (n : Nat) (f : Fin 128 → Word) : (s.setCscan n f).plane = s.plane := rfl
@[simp] theorem State.setCscan_scan (s : State) (n : Nat) (f : Fin 128 → Word) : (s.setCscan n f).scan = s.scan := rfl
@[simp] theorem State.setCscan_cscan (s : State) (n : Nat) (f : Fin 128 → Word) : (s.setCscan n f).cscan = tabulate fun x => if x.val < n then f x else s.cscan[x] := rfl
@[simp] theorem State.setCscan_pal (s : State) (n : Nat) (f : Fin 128 → Word) : (s.setCscan n f).pal = s.pal := rfl
@[simp] theorem State.setCscan_chrmem (s : State) (n : Nat) (f : Fin 128 → Word) : (s.setCscan n f).chrmem = s.chrmem := rfl
@[simp] theorem State.setCscan_pixmem (s : State) (n : Nat) (f : Fin 128 → Word) : (s.setCscan n f).pixmem = s.pixmem := rfl
@[simp] theorem State.setCscan_rawmem (s : State) (n : Nat) (f : Fin 128 → Word) : (s.setCscan n f).rawmem = s.rawmem := rfl
@[simp] theorem State.setCscan_colmem (s : State) (n : Nat) (f : Fin 128 → Word) : (s.setCscan n f).colmem = s.colmem := rfl
@[simp] theorem State.setCscan_out (s : State) (n : Nat) (f : Fin 128 → Word) : (s.setCscan n f).out = s.out := rfl
@[simp] theorem State.setCscan_cfg (s : State) (n : Nat) (f : Fin 128 → Word) : (s.setCscan n f).cfg = s.cfg := rfl
@[simp] theorem State.setCscan_host (s : State) (n : Nat) (f : Fin 128 → Word) : (s.setCscan n f).host = s.host := rfl
@[simp] theorem State.setCscan_reads (s : State) (n : Nat) (f : Fin 128 → Word) : (s.setCscan n f).reads = s.reads := rfl
@[simp] theorem State.setCscan_fresh (s : State) (n : Nat) (f : Fin 128 → Word) : (s.setCscan n f).fresh = s.fresh := rfl
@[simp] theorem State.setCscan_depth (s : State) (n : Nat) (f : Fin 128 → Word) : (s.setCscan n f).depth = s.depth := rfl
@[simp] theorem State.setCscan_palette (s : State) (n : Nat) (f : Fin 128 → Word) : (s.setCscan n f).palette = s.palette := rfl
@[simp] theorem State.setCscan_capacity (s : State) (n : Nat) (f : Fin 128 → Word) (sp : Space) : (s.setCscan n f).capacity sp = s.capacity sp := rfl
@[simp] theorem State.setCscan_memory (s : State) (n : Nat) (f : Fin 128 → Word) (sp : Space) : (s.setCscan n f).memory sp = s.memory sp := rfl

/-! ### `setPal` -/

@[simp] theorem State.setPal_eng (s : State) (n : Nat) (f : Fin 256 → Word) : (s.setPal n f).eng = s.eng := rfl
@[simp] theorem State.setPal_verr (s : State) (n : Nat) (f : Fin 256 → Word) : (s.setPal n f).verr = s.verr := rfl
@[simp] theorem State.setPal_notfound (s : State) (n : Nat) (f : Fin 256 → Word) : (s.setPal n f).notfound = s.notfound := rfl
@[simp] theorem State.setPal_outkind (s : State) (n : Nat) (f : Fin 256 → Word) : (s.setPal n f).outkind = s.outkind := rfl
@[simp] theorem State.setPal_cause (s : State) (n : Nat) (f : Fin 256 → Word) : (s.setPal n f).cause = s.cause := rfl
@[simp] theorem State.setPal_finfo (s : State) (n : Nat) (f : Fin 256 → Word) : (s.setPal n f).finfo = s.finfo := rfl
@[simp] theorem State.setPal_bpp (s : State) (n : Nat) (f : Fin 256 → Word) : (s.setPal n f).bpp = s.bpp := rfl
@[simp] theorem State.setPal_layout (s : State) (n : Nat) (f : Fin 256 → Word) : (s.setPal n f).layout = s.layout := rfl
@[simp] theorem State.setPal_palsize (s : State) (n : Nat) (f : Fin 256 → Word) : (s.setPal n f).palsize = s.palsize := rfl
@[simp] theorem State.setPal_misscnt (s : State) (n : Nat) (f : Fin 256 → Word) : (s.setPal n f).misscnt = s.misscnt := rfl
@[simp] theorem State.setPal_outcnt (s : State) (n : Nat) (f : Fin 256 → Word) : (s.setPal n f).outcnt = s.outcnt := rfl
@[simp] theorem State.setPal_chrlen (s : State) (n : Nat) (f : Fin 256 → Word) : (s.setPal n f).chrlen = s.chrlen := rfl
@[simp] theorem State.setPal_pixlen (s : State) (n : Nat) (f : Fin 256 → Word) : (s.setPal n f).pixlen = s.pixlen := rfl
@[simp] theorem State.setPal_rawlen (s : State) (n : Nat) (f : Fin 256 → Word) : (s.setPal n f).rawlen = s.rawlen := rfl
@[simp] theorem State.setPal_collen (s : State) (n : Nat) (f : Fin 256 → Word) : (s.setPal n f).collen = s.collen := rfl
@[simp] theorem State.setPal_width (s : State) (n : Nat) (f : Fin 256 → Word) : (s.setPal n f).width = s.width := rfl
@[simp] theorem State.setPal_height (s : State) (n : Nat) (f : Fin 256 → Word) : (s.setPal n f).height = s.height := rfl
@[simp] theorem State.setPal_a0 (s : State) (n : Nat) (f : Fin 256 → Word) : (s.setPal n f).a0 = s.a0 := rfl
@[simp] theorem State.setPal_a1 (s : State) (n : Nat) (f : Fin 256 → Word) : (s.setPal n f).a1 = s.a1 := rfl
@[simp] theorem State.setPal_r0 (s : State) (n : Nat) (f : Fin 256 → Word) : (s.setPal n f).r0 = s.r0 := rfl
@[simp] theorem State.setPal_tile (s : State) (n : Nat) (f : Fin 256 → Word) : (s.setPal n f).tile = s.tile := rfl
@[simp] theorem State.setPal_grid (s : State) (n : Nat) (f : Fin 256 → Word) : (s.setPal n f).grid = s.grid := rfl
@[simp] theorem State.setPal_row (s : State) (n : Nat) (f : Fin 256 → Word) : (s.setPal n f).row = s.row := rfl
@[simp] theorem State.setPal_plane (s : State) (n : Nat) (f : Fin 256 → Word) : (s.setPal n f).plane = s.plane := rfl
@[simp] theorem State.setPal_scan (s : State) (n : Nat) (f : Fin 256 → Word) : (s.setPal n f).scan = s.scan := rfl
@[simp] theorem State.setPal_cscan (s : State) (n : Nat) (f : Fin 256 → Word) : (s.setPal n f).cscan = s.cscan := rfl
@[simp] theorem State.setPal_pal (s : State) (n : Nat) (f : Fin 256 → Word) : (s.setPal n f).pal = tabulate fun i => if i.val < n then f i else s.pal[i] := rfl
@[simp] theorem State.setPal_chrmem (s : State) (n : Nat) (f : Fin 256 → Word) : (s.setPal n f).chrmem = s.chrmem := rfl
@[simp] theorem State.setPal_pixmem (s : State) (n : Nat) (f : Fin 256 → Word) : (s.setPal n f).pixmem = s.pixmem := rfl
@[simp] theorem State.setPal_rawmem (s : State) (n : Nat) (f : Fin 256 → Word) : (s.setPal n f).rawmem = s.rawmem := rfl
@[simp] theorem State.setPal_colmem (s : State) (n : Nat) (f : Fin 256 → Word) : (s.setPal n f).colmem = s.colmem := rfl
@[simp] theorem State.setPal_out (s : State) (n : Nat) (f : Fin 256 → Word) : (s.setPal n f).out = s.out := rfl
@[simp] theorem State.setPal_cfg (s : State) (n : Nat) (f : Fin 256 → Word) : (s.setPal n f).cfg = s.cfg := rfl
@[simp] theorem State.setPal_host (s : State) (n : Nat) (f : Fin 256 → Word) : (s.setPal n f).host = s.host := rfl
@[simp] theorem State.setPal_reads (s : State) (n : Nat) (f : Fin 256 → Word) : (s.setPal n f).reads = s.reads := rfl
@[simp] theorem State.setPal_fresh (s : State) (n : Nat) (f : Fin 256 → Word) : (s.setPal n f).fresh = s.fresh := rfl
@[simp] theorem State.setPal_depth (s : State) (n : Nat) (f : Fin 256 → Word) : (s.setPal n f).depth = s.depth := rfl
@[simp] theorem State.setPal_capacity (s : State) (n : Nat) (f : Fin 256 → Word) (sp : Space) : (s.setPal n f).capacity sp = s.capacity sp := rfl
@[simp] theorem State.setPal_memory (s : State) (n : Nat) (f : Fin 256 → Word) (sp : Space) : (s.setPal n f).memory sp = s.memory sp := rfl

/-! ### `setPalsize` -/

@[simp] theorem State.setPalsize_eng (s : State) (n : Fin 257) : (s.setPalsize n).eng = s.eng := rfl
@[simp] theorem State.setPalsize_verr (s : State) (n : Fin 257) : (s.setPalsize n).verr = s.verr := rfl
@[simp] theorem State.setPalsize_notfound (s : State) (n : Fin 257) : (s.setPalsize n).notfound = s.notfound := rfl
@[simp] theorem State.setPalsize_outkind (s : State) (n : Fin 257) : (s.setPalsize n).outkind = s.outkind := rfl
@[simp] theorem State.setPalsize_cause (s : State) (n : Fin 257) : (s.setPalsize n).cause = s.cause := rfl
@[simp] theorem State.setPalsize_finfo (s : State) (n : Fin 257) : (s.setPalsize n).finfo = s.finfo := rfl
@[simp] theorem State.setPalsize_bpp (s : State) (n : Fin 257) : (s.setPalsize n).bpp = s.bpp := rfl
@[simp] theorem State.setPalsize_layout (s : State) (n : Fin 257) : (s.setPalsize n).layout = s.layout := rfl
@[simp] theorem State.setPalsize_palsize (s : State) (n : Fin 257) : (s.setPalsize n).palsize = n := rfl
@[simp] theorem State.setPalsize_misscnt (s : State) (n : Fin 257) : (s.setPalsize n).misscnt = s.misscnt := rfl
@[simp] theorem State.setPalsize_outcnt (s : State) (n : Fin 257) : (s.setPalsize n).outcnt = s.outcnt := rfl
@[simp] theorem State.setPalsize_chrlen (s : State) (n : Fin 257) : (s.setPalsize n).chrlen = s.chrlen := rfl
@[simp] theorem State.setPalsize_pixlen (s : State) (n : Fin 257) : (s.setPalsize n).pixlen = s.pixlen := rfl
@[simp] theorem State.setPalsize_rawlen (s : State) (n : Fin 257) : (s.setPalsize n).rawlen = s.rawlen := rfl
@[simp] theorem State.setPalsize_collen (s : State) (n : Fin 257) : (s.setPalsize n).collen = s.collen := rfl
@[simp] theorem State.setPalsize_width (s : State) (n : Fin 257) : (s.setPalsize n).width = s.width := rfl
@[simp] theorem State.setPalsize_height (s : State) (n : Fin 257) : (s.setPalsize n).height = s.height := rfl
@[simp] theorem State.setPalsize_a0 (s : State) (n : Fin 257) : (s.setPalsize n).a0 = s.a0 := rfl
@[simp] theorem State.setPalsize_a1 (s : State) (n : Fin 257) : (s.setPalsize n).a1 = s.a1 := rfl
@[simp] theorem State.setPalsize_r0 (s : State) (n : Fin 257) : (s.setPalsize n).r0 = s.r0 := rfl
@[simp] theorem State.setPalsize_tile (s : State) (n : Fin 257) : (s.setPalsize n).tile = s.tile := rfl
@[simp] theorem State.setPalsize_grid (s : State) (n : Fin 257) : (s.setPalsize n).grid = s.grid := rfl
@[simp] theorem State.setPalsize_row (s : State) (n : Fin 257) : (s.setPalsize n).row = s.row := rfl
@[simp] theorem State.setPalsize_plane (s : State) (n : Fin 257) : (s.setPalsize n).plane = s.plane := rfl
@[simp] theorem State.setPalsize_scan (s : State) (n : Fin 257) : (s.setPalsize n).scan = s.scan := rfl
@[simp] theorem State.setPalsize_cscan (s : State) (n : Fin 257) : (s.setPalsize n).cscan = s.cscan := rfl
@[simp] theorem State.setPalsize_pal (s : State) (n : Fin 257) : (s.setPalsize n).pal = s.pal := rfl
@[simp] theorem State.setPalsize_chrmem (s : State) (n : Fin 257) : (s.setPalsize n).chrmem = s.chrmem := rfl
@[simp] theorem State.setPalsize_pixmem (s : State) (n : Fin 257) : (s.setPalsize n).pixmem = s.pixmem := rfl
@[simp] theorem State.setPalsize_rawmem (s : State) (n : Fin 257) : (s.setPalsize n).rawmem = s.rawmem := rfl
@[simp] theorem State.setPalsize_colmem (s : State) (n : Fin 257) : (s.setPalsize n).colmem = s.colmem := rfl
@[simp] theorem State.setPalsize_out (s : State) (n : Fin 257) : (s.setPalsize n).out = s.out := rfl
@[simp] theorem State.setPalsize_cfg (s : State) (n : Fin 257) : (s.setPalsize n).cfg = s.cfg := rfl
@[simp] theorem State.setPalsize_host (s : State) (n : Fin 257) : (s.setPalsize n).host = s.host := rfl
@[simp] theorem State.setPalsize_reads (s : State) (n : Fin 257) : (s.setPalsize n).reads = s.reads := rfl
@[simp] theorem State.setPalsize_fresh (s : State) (n : Fin 257) : (s.setPalsize n).fresh = s.fresh := rfl
@[simp] theorem State.setPalsize_depth (s : State) (n : Fin 257) : (s.setPalsize n).depth = s.depth := rfl
@[simp] theorem State.setPalsize_capacity (s : State) (n : Fin 257) (sp : Space) : (s.setPalsize n).capacity sp = s.capacity sp := rfl
@[simp] theorem State.setPalsize_memory (s : State) (n : Fin 257) (sp : Space) : (s.setPalsize n).memory sp = s.memory sp := rfl

/-! ### `setEng` -/

@[simp] theorem State.setEng_eng (s : State) (e : Eng) : (s.setEng e).eng = e := rfl
@[simp] theorem State.setEng_verr (s : State) (e : Eng) : (s.setEng e).verr = s.verr := rfl
@[simp] theorem State.setEng_notfound (s : State) (e : Eng) : (s.setEng e).notfound = s.notfound := rfl
@[simp] theorem State.setEng_outkind (s : State) (e : Eng) : (s.setEng e).outkind = s.outkind := rfl
@[simp] theorem State.setEng_cause (s : State) (e : Eng) : (s.setEng e).cause = s.cause := rfl
@[simp] theorem State.setEng_finfo (s : State) (e : Eng) : (s.setEng e).finfo = s.finfo := rfl
@[simp] theorem State.setEng_bpp (s : State) (e : Eng) : (s.setEng e).bpp = s.bpp := rfl
@[simp] theorem State.setEng_layout (s : State) (e : Eng) : (s.setEng e).layout = s.layout := rfl
@[simp] theorem State.setEng_palsize (s : State) (e : Eng) : (s.setEng e).palsize = s.palsize := rfl
@[simp] theorem State.setEng_misscnt (s : State) (e : Eng) : (s.setEng e).misscnt = s.misscnt := rfl
@[simp] theorem State.setEng_outcnt (s : State) (e : Eng) : (s.setEng e).outcnt = s.outcnt := rfl
@[simp] theorem State.setEng_chrlen (s : State) (e : Eng) : (s.setEng e).chrlen = s.chrlen := rfl
@[simp] theorem State.setEng_pixlen (s : State) (e : Eng) : (s.setEng e).pixlen = s.pixlen := rfl
@[simp] theorem State.setEng_rawlen (s : State) (e : Eng) : (s.setEng e).rawlen = s.rawlen := rfl
@[simp] theorem State.setEng_collen (s : State) (e : Eng) : (s.setEng e).collen = s.collen := rfl
@[simp] theorem State.setEng_width (s : State) (e : Eng) : (s.setEng e).width = s.width := rfl
@[simp] theorem State.setEng_height (s : State) (e : Eng) : (s.setEng e).height = s.height := rfl
@[simp] theorem State.setEng_a0 (s : State) (e : Eng) : (s.setEng e).a0 = s.a0 := rfl
@[simp] theorem State.setEng_a1 (s : State) (e : Eng) : (s.setEng e).a1 = s.a1 := rfl
@[simp] theorem State.setEng_r0 (s : State) (e : Eng) : (s.setEng e).r0 = s.r0 := rfl
@[simp] theorem State.setEng_tile (s : State) (e : Eng) : (s.setEng e).tile = s.tile := rfl
@[simp] theorem State.setEng_grid (s : State) (e : Eng) : (s.setEng e).grid = s.grid := rfl
@[simp] theorem State.setEng_row (s : State) (e : Eng) : (s.setEng e).row = s.row := rfl
@[simp] theorem State.setEng_plane (s : State) (e : Eng) : (s.setEng e).plane = s.plane := rfl
@[simp] theorem State.setEng_scan (s : State) (e : Eng) : (s.setEng e).scan = s.scan := rfl
@[simp] theorem State.setEng_cscan (s : State) (e : Eng) : (s.setEng e).cscan = s.cscan := rfl
@[simp] theorem State.setEng_pal (s : State) (e : Eng) : (s.setEng e).pal = s.pal := rfl
@[simp] theorem State.setEng_chrmem (s : State) (e : Eng) : (s.setEng e).chrmem = s.chrmem := rfl
@[simp] theorem State.setEng_pixmem (s : State) (e : Eng) : (s.setEng e).pixmem = s.pixmem := rfl
@[simp] theorem State.setEng_rawmem (s : State) (e : Eng) : (s.setEng e).rawmem = s.rawmem := rfl
@[simp] theorem State.setEng_colmem (s : State) (e : Eng) : (s.setEng e).colmem = s.colmem := rfl
@[simp] theorem State.setEng_out (s : State) (e : Eng) : (s.setEng e).out = s.out := rfl
@[simp] theorem State.setEng_cfg (s : State) (e : Eng) : (s.setEng e).cfg = s.cfg := rfl
@[simp] theorem State.setEng_host (s : State) (e : Eng) : (s.setEng e).host = s.host := rfl
@[simp] theorem State.setEng_reads (s : State) (e : Eng) : (s.setEng e).reads = s.reads := rfl
@[simp] theorem State.setEng_fresh (s : State) (e : Eng) : (s.setEng e).fresh = s.fresh := rfl
@[simp] theorem State.setEng_depth (s : State) (e : Eng) : (s.setEng e).depth = s.depth := rfl
@[simp] theorem State.setEng_palette (s : State) (e : Eng) : (s.setEng e).palette = s.palette := rfl
@[simp] theorem State.setEng_capacity (s : State) (e : Eng) (sp : Space) : (s.setEng e).capacity sp = s.capacity sp := rfl
@[simp] theorem State.setEng_memory (s : State) (e : Eng) (sp : Space) : (s.setEng e).memory sp = s.memory sp := rfl

/-! ### `emit` -/

@[simp] theorem State.emit_eng (s : State) (e : Event) : (s.emit e).eng = s.eng := rfl
@[simp] theorem State.emit_verr (s : State) (e : Event) : (s.emit e).verr = s.verr := rfl
@[simp] theorem State.emit_notfound (s : State) (e : Event) : (s.emit e).notfound = s.notfound := rfl
@[simp] theorem State.emit_outkind (s : State) (e : Event) : (s.emit e).outkind = s.outkind := rfl
@[simp] theorem State.emit_cause (s : State) (e : Event) : (s.emit e).cause = s.cause := rfl
@[simp] theorem State.emit_finfo (s : State) (e : Event) : (s.emit e).finfo = s.finfo := rfl
@[simp] theorem State.emit_bpp (s : State) (e : Event) : (s.emit e).bpp = s.bpp := rfl
@[simp] theorem State.emit_layout (s : State) (e : Event) : (s.emit e).layout = s.layout := rfl
@[simp] theorem State.emit_palsize (s : State) (e : Event) : (s.emit e).palsize = s.palsize := rfl
@[simp] theorem State.emit_misscnt (s : State) (e : Event) : (s.emit e).misscnt = s.misscnt := rfl
@[simp] theorem State.emit_outcnt (s : State) (e : Event) : (s.emit e).outcnt = s.outcnt := rfl
@[simp] theorem State.emit_chrlen (s : State) (e : Event) : (s.emit e).chrlen = s.chrlen := rfl
@[simp] theorem State.emit_pixlen (s : State) (e : Event) : (s.emit e).pixlen = s.pixlen := rfl
@[simp] theorem State.emit_rawlen (s : State) (e : Event) : (s.emit e).rawlen = s.rawlen := rfl
@[simp] theorem State.emit_collen (s : State) (e : Event) : (s.emit e).collen = s.collen := rfl
@[simp] theorem State.emit_width (s : State) (e : Event) : (s.emit e).width = s.width := rfl
@[simp] theorem State.emit_height (s : State) (e : Event) : (s.emit e).height = s.height := rfl
@[simp] theorem State.emit_a0 (s : State) (e : Event) : (s.emit e).a0 = s.a0 := rfl
@[simp] theorem State.emit_a1 (s : State) (e : Event) : (s.emit e).a1 = s.a1 := rfl
@[simp] theorem State.emit_r0 (s : State) (e : Event) : (s.emit e).r0 = s.r0 := rfl
@[simp] theorem State.emit_tile (s : State) (e : Event) : (s.emit e).tile = s.tile := rfl
@[simp] theorem State.emit_grid (s : State) (e : Event) : (s.emit e).grid = s.grid := rfl
@[simp] theorem State.emit_row (s : State) (e : Event) : (s.emit e).row = s.row := rfl
@[simp] theorem State.emit_plane (s : State) (e : Event) : (s.emit e).plane = s.plane := rfl
@[simp] theorem State.emit_scan (s : State) (e : Event) : (s.emit e).scan = s.scan := rfl
@[simp] theorem State.emit_cscan (s : State) (e : Event) : (s.emit e).cscan = s.cscan := rfl
@[simp] theorem State.emit_pal (s : State) (e : Event) : (s.emit e).pal = s.pal := rfl
@[simp] theorem State.emit_chrmem (s : State) (e : Event) : (s.emit e).chrmem = s.chrmem := rfl
@[simp] theorem State.emit_pixmem (s : State) (e : Event) : (s.emit e).pixmem = s.pixmem := rfl
@[simp] theorem State.emit_rawmem (s : State) (e : Event) : (s.emit e).rawmem = s.rawmem := rfl
@[simp] theorem State.emit_colmem (s : State) (e : Event) : (s.emit e).colmem = s.colmem := rfl
@[simp] theorem State.emit_out (s : State) (e : Event) : (s.emit e).out = s.out ++ [e] := rfl
@[simp] theorem State.emit_cfg (s : State) (e : Event) : (s.emit e).cfg = s.cfg := rfl
@[simp] theorem State.emit_host (s : State) (e : Event) : (s.emit e).host = s.host := rfl
@[simp] theorem State.emit_reads (s : State) (e : Event) : (s.emit e).reads = s.reads := rfl
@[simp] theorem State.emit_fresh (s : State) (e : Event) : (s.emit e).fresh = s.fresh := rfl
@[simp] theorem State.emit_depth (s : State) (e : Event) : (s.emit e).depth = s.depth := rfl
@[simp] theorem State.emit_palette (s : State) (e : Event) : (s.emit e).palette = s.palette := rfl
@[simp] theorem State.emit_capacity (s : State) (e : Event) (sp : Space) : (s.emit e).capacity sp = s.capacity sp := rfl
@[simp] theorem State.emit_memory (s : State) (e : Event) (sp : Space) : (s.emit e).memory sp = s.memory sp := rfl

/-! ### `raiseFault` -/

@[simp] theorem State.raiseFault_eng (s : State) (c : Cause) (info : Nat) : (s.raiseFault c info).eng = .fault := rfl
@[simp] theorem State.raiseFault_verr (s : State) (c : Cause) (info : Nat) : (s.raiseFault c info).verr = s.verr := rfl
@[simp] theorem State.raiseFault_notfound (s : State) (c : Cause) (info : Nat) : (s.raiseFault c info).notfound = s.notfound := rfl
@[simp] theorem State.raiseFault_outkind (s : State) (c : Cause) (info : Nat) : (s.raiseFault c info).outkind = s.outkind := rfl
@[simp] theorem State.raiseFault_cause (s : State) (c : Cause) (info : Nat) : (s.raiseFault c info).cause = c.code := rfl
@[simp] theorem State.raiseFault_finfo (s : State) (c : Cause) (info : Nat) : (s.raiseFault c info).finfo = word info := rfl
@[simp] theorem State.raiseFault_bpp (s : State) (c : Cause) (info : Nat) : (s.raiseFault c info).bpp = s.bpp := rfl
@[simp] theorem State.raiseFault_layout (s : State) (c : Cause) (info : Nat) : (s.raiseFault c info).layout = s.layout := rfl
@[simp] theorem State.raiseFault_palsize (s : State) (c : Cause) (info : Nat) : (s.raiseFault c info).palsize = s.palsize := rfl
@[simp] theorem State.raiseFault_misscnt (s : State) (c : Cause) (info : Nat) : (s.raiseFault c info).misscnt = s.misscnt := rfl
@[simp] theorem State.raiseFault_outcnt (s : State) (c : Cause) (info : Nat) : (s.raiseFault c info).outcnt = s.outcnt := rfl
@[simp] theorem State.raiseFault_chrlen (s : State) (c : Cause) (info : Nat) : (s.raiseFault c info).chrlen = s.chrlen := rfl
@[simp] theorem State.raiseFault_pixlen (s : State) (c : Cause) (info : Nat) : (s.raiseFault c info).pixlen = s.pixlen := rfl
@[simp] theorem State.raiseFault_rawlen (s : State) (c : Cause) (info : Nat) : (s.raiseFault c info).rawlen = s.rawlen := rfl
@[simp] theorem State.raiseFault_collen (s : State) (c : Cause) (info : Nat) : (s.raiseFault c info).collen = s.collen := rfl
@[simp] theorem State.raiseFault_width (s : State) (c : Cause) (info : Nat) : (s.raiseFault c info).width = s.width := rfl
@[simp] theorem State.raiseFault_height (s : State) (c : Cause) (info : Nat) : (s.raiseFault c info).height = s.height := rfl
@[simp] theorem State.raiseFault_a0 (s : State) (c : Cause) (info : Nat) : (s.raiseFault c info).a0 = s.a0 := rfl
@[simp] theorem State.raiseFault_a1 (s : State) (c : Cause) (info : Nat) : (s.raiseFault c info).a1 = s.a1 := rfl
@[simp] theorem State.raiseFault_r0 (s : State) (c : Cause) (info : Nat) : (s.raiseFault c info).r0 = s.r0 := rfl
@[simp] theorem State.raiseFault_tile (s : State) (c : Cause) (info : Nat) : (s.raiseFault c info).tile = s.tile := rfl
@[simp] theorem State.raiseFault_grid (s : State) (c : Cause) (info : Nat) : (s.raiseFault c info).grid = s.grid := rfl
@[simp] theorem State.raiseFault_row (s : State) (c : Cause) (info : Nat) : (s.raiseFault c info).row = s.row := rfl
@[simp] theorem State.raiseFault_plane (s : State) (c : Cause) (info : Nat) : (s.raiseFault c info).plane = s.plane := rfl
@[simp] theorem State.raiseFault_scan (s : State) (c : Cause) (info : Nat) : (s.raiseFault c info).scan = s.scan := rfl
@[simp] theorem State.raiseFault_cscan (s : State) (c : Cause) (info : Nat) : (s.raiseFault c info).cscan = s.cscan := rfl
@[simp] theorem State.raiseFault_pal (s : State) (c : Cause) (info : Nat) : (s.raiseFault c info).pal = s.pal := rfl
@[simp] theorem State.raiseFault_chrmem (s : State) (c : Cause) (info : Nat) : (s.raiseFault c info).chrmem = s.chrmem := rfl
@[simp] theorem State.raiseFault_pixmem (s : State) (c : Cause) (info : Nat) : (s.raiseFault c info).pixmem = s.pixmem := rfl
@[simp] theorem State.raiseFault_rawmem (s : State) (c : Cause) (info : Nat) : (s.raiseFault c info).rawmem = s.rawmem := rfl
@[simp] theorem State.raiseFault_colmem (s : State) (c : Cause) (info : Nat) : (s.raiseFault c info).colmem = s.colmem := rfl
@[simp] theorem State.raiseFault_out (s : State) (c : Cause) (info : Nat) : (s.raiseFault c info).out = s.out := rfl
@[simp] theorem State.raiseFault_cfg (s : State) (c : Cause) (info : Nat) : (s.raiseFault c info).cfg = s.cfg := rfl
@[simp] theorem State.raiseFault_host (s : State) (c : Cause) (info : Nat) : (s.raiseFault c info).host = s.host := rfl
@[simp] theorem State.raiseFault_reads (s : State) (c : Cause) (info : Nat) : (s.raiseFault c info).reads = s.reads := rfl
@[simp] theorem State.raiseFault_fresh (s : State) (c : Cause) (info : Nat) : (s.raiseFault c info).fresh = s.fresh := rfl
@[simp] theorem State.raiseFault_depth (s : State) (c : Cause) (info : Nat) : (s.raiseFault c info).depth = s.depth := rfl
@[simp] theorem State.raiseFault_palette (s : State) (c : Cause) (info : Nat) : (s.raiseFault c info).palette = s.palette := rfl
@[simp] theorem State.raiseFault_capacity (s : State) (c : Cause) (info : Nat) (sp : Space) : (s.raiseFault c info).capacity sp = s.capacity sp := rfl
@[simp] theorem State.raiseFault_memory (s : State) (c : Cause) (info : Nat) (sp : Space) : (s.raiseFault c info).memory sp = s.memory sp := rfl

/-! ### `accept` -/

@[simp] theorem State.accept_eng (s : State) : s.accept.eng = s.eng := rfl
@[simp] theorem State.accept_verr (s : State) : s.accept.verr = false := rfl
@[simp] theorem State.accept_notfound (s : State) : s.accept.notfound = false := rfl
@[simp] theorem State.accept_outkind (s : State) : s.accept.outkind = s.outkind := rfl
@[simp] theorem State.accept_cause (s : State) : s.accept.cause = s.cause := rfl
@[simp] theorem State.accept_finfo (s : State) : s.accept.finfo = s.finfo := rfl
@[simp] theorem State.accept_bpp (s : State) : s.accept.bpp = s.bpp := rfl
@[simp] theorem State.accept_layout (s : State) : s.accept.layout = s.layout := rfl
@[simp] theorem State.accept_palsize (s : State) : s.accept.palsize = s.palsize := rfl
@[simp] theorem State.accept_misscnt (s : State) : s.accept.misscnt = s.misscnt := rfl
@[simp] theorem State.accept_outcnt (s : State) : s.accept.outcnt = s.outcnt := rfl
@[simp] theorem State.accept_chrlen (s : State) : s.accept.chrlen = s.chrlen := rfl
@[simp] theorem State.accept_pixlen (s : State) : s.accept.pixlen = s.pixlen := rfl
@[simp] theorem State.accept_rawlen (s : State) : s.accept.rawlen = s.rawlen := rfl
@[simp] theorem State.accept_collen (s : State) : s.accept.collen = s.collen := rfl
@[simp] theorem State.accept_width (s : State) : s.accept.width = s.width := rfl
@[simp] theorem State.accept_height (s : State) : s.accept.height = s.height := rfl
@[simp] theorem State.accept_a0 (s : State) : s.accept.a0 = s.a0 := rfl
@[simp] theorem State.accept_a1 (s : State) : s.accept.a1 = s.a1 := rfl
@[simp] theorem State.accept_r0 (s : State) : s.accept.r0 = s.r0 := rfl
@[simp] theorem State.accept_tile (s : State) : s.accept.tile = s.tile := rfl
@[simp] theorem State.accept_grid (s : State) : s.accept.grid = s.grid := rfl
@[simp] theorem State.accept_row (s : State) : s.accept.row = s.row := rfl
@[simp] theorem State.accept_plane (s : State) : s.accept.plane = s.plane := rfl
@[simp] theorem State.accept_scan (s : State) : s.accept.scan = s.scan := rfl
@[simp] theorem State.accept_cscan (s : State) : s.accept.cscan = s.cscan := rfl
@[simp] theorem State.accept_pal (s : State) : s.accept.pal = s.pal := rfl
@[simp] theorem State.accept_chrmem (s : State) : s.accept.chrmem = s.chrmem := rfl
@[simp] theorem State.accept_pixmem (s : State) : s.accept.pixmem = s.pixmem := rfl
@[simp] theorem State.accept_rawmem (s : State) : s.accept.rawmem = s.rawmem := rfl
@[simp] theorem State.accept_colmem (s : State) : s.accept.colmem = s.colmem := rfl
@[simp] theorem State.accept_out (s : State) : s.accept.out = s.out := rfl
@[simp] theorem State.accept_cfg (s : State) : s.accept.cfg = s.cfg := rfl
@[simp] theorem State.accept_host (s : State) : s.accept.host = s.host := rfl
@[simp] theorem State.accept_reads (s : State) : s.accept.reads = s.reads := rfl
@[simp] theorem State.accept_fresh (s : State) : s.accept.fresh = s.fresh := rfl
@[simp] theorem State.accept_depth (s : State) : s.accept.depth = s.depth := rfl
@[simp] theorem State.accept_palette (s : State) : s.accept.palette = s.palette := rfl
@[simp] theorem State.accept_capacity (s : State) (sp : Space) : s.accept.capacity sp = s.capacity sp := rfl
@[simp] theorem State.accept_memory (s : State) (sp : Space) : s.accept.memory sp = s.memory sp := rfl

/-! ### `setNotfound` -/

@[simp] theorem State.setNotfound_eng (s : State) : s.setNotfound.eng = s.eng := rfl
@[simp] theorem State.setNotfound_verr (s : State) : s.setNotfound.verr = s.verr := rfl
@[simp] theorem State.setNotfound_notfound (s : State) : s.setNotfound.notfound = true := rfl
@[simp] theorem State.setNotfound_outkind (s : State) : s.setNotfound.outkind = s.outkind := rfl
@[simp] theorem State.setNotfound_cause (s : State) : s.setNotfound.cause = s.cause := rfl
@[simp] theorem State.setNotfound_finfo (s : State) : s.setNotfound.finfo = s.finfo := rfl
@[simp] theorem State.setNotfound_bpp (s : State) : s.setNotfound.bpp = s.bpp := rfl
@[simp] theorem State.setNotfound_layout (s : State) : s.setNotfound.layout = s.layout := rfl
@[simp] theorem State.setNotfound_palsize (s : State) : s.setNotfound.palsize = s.palsize := rfl
@[simp] theorem State.setNotfound_misscnt (s : State) : s.setNotfound.misscnt = s.misscnt := rfl
@[simp] theorem State.setNotfound_outcnt (s : State) : s.setNotfound.outcnt = s.outcnt := rfl
@[simp] theorem State.setNotfound_chrlen (s : State) : s.setNotfound.chrlen = s.chrlen := rfl
@[simp] theorem State.setNotfound_pixlen (s : State) : s.setNotfound.pixlen = s.pixlen := rfl
@[simp] theorem State.setNotfound_rawlen (s : State) : s.setNotfound.rawlen = s.rawlen := rfl
@[simp] theorem State.setNotfound_collen (s : State) : s.setNotfound.collen = s.collen := rfl
@[simp] theorem State.setNotfound_width (s : State) : s.setNotfound.width = s.width := rfl
@[simp] theorem State.setNotfound_height (s : State) : s.setNotfound.height = s.height := rfl
@[simp] theorem State.setNotfound_a0 (s : State) : s.setNotfound.a0 = s.a0 := rfl
@[simp] theorem State.setNotfound_a1 (s : State) : s.setNotfound.a1 = s.a1 := rfl
@[simp] theorem State.setNotfound_r0 (s : State) : s.setNotfound.r0 = s.r0 := rfl
@[simp] theorem State.setNotfound_tile (s : State) : s.setNotfound.tile = s.tile := rfl
@[simp] theorem State.setNotfound_grid (s : State) : s.setNotfound.grid = s.grid := rfl
@[simp] theorem State.setNotfound_row (s : State) : s.setNotfound.row = s.row := rfl
@[simp] theorem State.setNotfound_plane (s : State) : s.setNotfound.plane = s.plane := rfl
@[simp] theorem State.setNotfound_scan (s : State) : s.setNotfound.scan = s.scan := rfl
@[simp] theorem State.setNotfound_cscan (s : State) : s.setNotfound.cscan = s.cscan := rfl
@[simp] theorem State.setNotfound_pal (s : State) : s.setNotfound.pal = s.pal := rfl
@[simp] theorem State.setNotfound_chrmem (s : State) : s.setNotfound.chrmem = s.chrmem := rfl
@[simp] theorem State.setNotfound_pixmem (s : State) : s.setNotfound.pixmem = s.pixmem := rfl
@[simp] theorem State.setNotfound_rawmem (s : State) : s.setNotfound.rawmem = s.rawmem := rfl
@[simp] theorem State.setNotfound_colmem (s : State) : s.setNotfound.colmem = s.colmem := rfl
@[simp] theorem State.setNotfound_out (s : State) : s.setNotfound.out = s.out := rfl
@[simp] theorem State.setNotfound_cfg (s : State) : s.setNotfound.cfg = s.cfg := rfl
@[simp] theorem State.setNotfound_host (s : State) : s.setNotfound.host = s.host := rfl
@[simp] theorem State.setNotfound_reads (s : State) : s.setNotfound.reads = s.reads := rfl
@[simp] theorem State.setNotfound_fresh (s : State) : s.setNotfound.fresh = s.fresh := rfl
@[simp] theorem State.setNotfound_depth (s : State) : s.setNotfound.depth = s.depth := rfl
@[simp] theorem State.setNotfound_palette (s : State) : s.setNotfound.palette = s.palette := rfl
@[simp] theorem State.setNotfound_capacity (s : State) (sp : Space) : s.setNotfound.capacity sp = s.capacity sp := rfl
@[simp] theorem State.setNotfound_memory (s : State) (sp : Space) : s.setNotfound.memory sp = s.memory sp := rfl

/-! ### `setVerr` -/

@[simp] theorem State.setVerr_eng (s : State) : s.setVerr.eng = s.eng := rfl
@[simp] theorem State.setVerr_verr (s : State) : s.setVerr.verr = true := rfl
@[simp] theorem State.setVerr_notfound (s : State) : s.setVerr.notfound = s.notfound := rfl
@[simp] theorem State.setVerr_outkind (s : State) : s.setVerr.outkind = s.outkind := rfl
@[simp] theorem State.setVerr_cause (s : State) : s.setVerr.cause = s.cause := rfl
@[simp] theorem State.setVerr_finfo (s : State) : s.setVerr.finfo = s.finfo := rfl
@[simp] theorem State.setVerr_bpp (s : State) : s.setVerr.bpp = s.bpp := rfl
@[simp] theorem State.setVerr_layout (s : State) : s.setVerr.layout = s.layout := rfl
@[simp] theorem State.setVerr_palsize (s : State) : s.setVerr.palsize = s.palsize := rfl
@[simp] theorem State.setVerr_misscnt (s : State) : s.setVerr.misscnt = s.misscnt := rfl
@[simp] theorem State.setVerr_outcnt (s : State) : s.setVerr.outcnt = s.outcnt := rfl
@[simp] theorem State.setVerr_chrlen (s : State) : s.setVerr.chrlen = s.chrlen := rfl
@[simp] theorem State.setVerr_pixlen (s : State) : s.setVerr.pixlen = s.pixlen := rfl
@[simp] theorem State.setVerr_rawlen (s : State) : s.setVerr.rawlen = s.rawlen := rfl
@[simp] theorem State.setVerr_collen (s : State) : s.setVerr.collen = s.collen := rfl
@[simp] theorem State.setVerr_width (s : State) : s.setVerr.width = s.width := rfl
@[simp] theorem State.setVerr_height (s : State) : s.setVerr.height = s.height := rfl
@[simp] theorem State.setVerr_a0 (s : State) : s.setVerr.a0 = s.a0 := rfl
@[simp] theorem State.setVerr_a1 (s : State) : s.setVerr.a1 = s.a1 := rfl
@[simp] theorem State.setVerr_r0 (s : State) : s.setVerr.r0 = s.r0 := rfl
@[simp] theorem State.setVerr_tile (s : State) : s.setVerr.tile = s.tile := rfl
@[simp] theorem State.setVerr_grid (s : State) : s.setVerr.grid = s.grid := rfl
@[simp] theorem State.setVerr_row (s : State) : s.setVerr.row = s.row := rfl
@[simp] theorem State.setVerr_plane (s : State) : s.setVerr.plane = s.plane := rfl
@[simp] theorem State.setVerr_scan (s : State) : s.setVerr.scan = s.scan := rfl
@[simp] theorem State.setVerr_cscan (s : State) : s.setVerr.cscan = s.cscan := rfl
@[simp] theorem State.setVerr_pal (s : State) : s.setVerr.pal = s.pal := rfl
@[simp] theorem State.setVerr_chrmem (s : State) : s.setVerr.chrmem = s.chrmem := rfl
@[simp] theorem State.setVerr_pixmem (s : State) : s.setVerr.pixmem = s.pixmem := rfl
@[simp] theorem State.setVerr_rawmem (s : State) : s.setVerr.rawmem = s.rawmem := rfl
@[simp] theorem State.setVerr_colmem (s : State) : s.setVerr.colmem = s.colmem := rfl
@[simp] theorem State.setVerr_out (s : State) : s.setVerr.out = s.out := rfl
@[simp] theorem State.setVerr_cfg (s : State) : s.setVerr.cfg = s.cfg := rfl
@[simp] theorem State.setVerr_host (s : State) : s.setVerr.host = s.host := rfl
@[simp] theorem State.setVerr_reads (s : State) : s.setVerr.reads = s.reads := rfl
@[simp] theorem State.setVerr_fresh (s : State) : s.setVerr.fresh = s.fresh := rfl
@[simp] theorem State.setVerr_depth (s : State) : s.setVerr.depth = s.depth := rfl
@[simp] theorem State.setVerr_palette (s : State) : s.setVerr.palette = s.palette := rfl
@[simp] theorem State.setVerr_capacity (s : State) (sp : Space) : s.setVerr.capacity sp = s.capacity sp := rfl
@[simp] theorem State.setVerr_memory (s : State) (sp : Space) : s.setVerr.memory sp = s.memory sp := rfl

/-! ### `beginStream` -/

@[simp] theorem State.beginStream_eng (s : State) (k : OutKind) : (s.beginStream k).eng = s.eng := rfl
@[simp] theorem State.beginStream_verr (s : State) (k : OutKind) : (s.beginStream k).verr = s.verr := rfl
@[simp] theorem State.beginStream_notfound (s : State) (k : OutKind) : (s.beginStream k).notfound = s.notfound := rfl
@[simp] theorem State.beginStream_outkind (s : State) (k : OutKind) : (s.beginStream k).outkind = k := rfl
@[simp] theorem State.beginStream_cause (s : State) (k : OutKind) : (s.beginStream k).cause = s.cause := rfl
@[simp] theorem State.beginStream_finfo (s : State) (k : OutKind) : (s.beginStream k).finfo = s.finfo := rfl
@[simp] theorem State.beginStream_bpp (s : State) (k : OutKind) : (s.beginStream k).bpp = s.bpp := rfl
@[simp] theorem State.beginStream_layout (s : State) (k : OutKind) : (s.beginStream k).layout = s.layout := rfl
@[simp] theorem State.beginStream_palsize (s : State) (k : OutKind) : (s.beginStream k).palsize = s.palsize := rfl
@[simp] theorem State.beginStream_misscnt (s : State) (k : OutKind) : (s.beginStream k).misscnt = s.misscnt := rfl
@[simp] theorem State.beginStream_outcnt (s : State) (k : OutKind) : (s.beginStream k).outcnt = 0 := rfl
@[simp] theorem State.beginStream_chrlen (s : State) (k : OutKind) : (s.beginStream k).chrlen = s.chrlen := rfl
@[simp] theorem State.beginStream_pixlen (s : State) (k : OutKind) : (s.beginStream k).pixlen = s.pixlen := rfl
@[simp] theorem State.beginStream_rawlen (s : State) (k : OutKind) : (s.beginStream k).rawlen = s.rawlen := rfl
@[simp] theorem State.beginStream_collen (s : State) (k : OutKind) : (s.beginStream k).collen = s.collen := rfl
@[simp] theorem State.beginStream_width (s : State) (k : OutKind) : (s.beginStream k).width = s.width := rfl
@[simp] theorem State.beginStream_height (s : State) (k : OutKind) : (s.beginStream k).height = s.height := rfl
@[simp] theorem State.beginStream_a0 (s : State) (k : OutKind) : (s.beginStream k).a0 = s.a0 := rfl
@[simp] theorem State.beginStream_a1 (s : State) (k : OutKind) : (s.beginStream k).a1 = s.a1 := rfl
@[simp] theorem State.beginStream_r0 (s : State) (k : OutKind) : (s.beginStream k).r0 = s.r0 := rfl
@[simp] theorem State.beginStream_tile (s : State) (k : OutKind) : (s.beginStream k).tile = s.tile := rfl
@[simp] theorem State.beginStream_grid (s : State) (k : OutKind) : (s.beginStream k).grid = s.grid := rfl
@[simp] theorem State.beginStream_row (s : State) (k : OutKind) : (s.beginStream k).row = s.row := rfl
@[simp] theorem State.beginStream_plane (s : State) (k : OutKind) : (s.beginStream k).plane = s.plane := rfl
@[simp] theorem State.beginStream_scan (s : State) (k : OutKind) : (s.beginStream k).scan = s.scan := rfl
@[simp] theorem State.beginStream_cscan (s : State) (k : OutKind) : (s.beginStream k).cscan = s.cscan := rfl
@[simp] theorem State.beginStream_pal (s : State) (k : OutKind) : (s.beginStream k).pal = s.pal := rfl
@[simp] theorem State.beginStream_chrmem (s : State) (k : OutKind) : (s.beginStream k).chrmem = s.chrmem := rfl
@[simp] theorem State.beginStream_pixmem (s : State) (k : OutKind) : (s.beginStream k).pixmem = s.pixmem := rfl
@[simp] theorem State.beginStream_rawmem (s : State) (k : OutKind) : (s.beginStream k).rawmem = s.rawmem := rfl
@[simp] theorem State.beginStream_colmem (s : State) (k : OutKind) : (s.beginStream k).colmem = s.colmem := rfl
@[simp] theorem State.beginStream_out (s : State) (k : OutKind) : (s.beginStream k).out = s.out := rfl
@[simp] theorem State.beginStream_cfg (s : State) (k : OutKind) : (s.beginStream k).cfg = s.cfg := rfl
@[simp] theorem State.beginStream_host (s : State) (k : OutKind) : (s.beginStream k).host = s.host := rfl
@[simp] theorem State.beginStream_reads (s : State) (k : OutKind) : (s.beginStream k).reads = s.reads := rfl
@[simp] theorem State.beginStream_fresh (s : State) (k : OutKind) : (s.beginStream k).fresh = s.fresh := rfl
@[simp] theorem State.beginStream_depth (s : State) (k : OutKind) : (s.beginStream k).depth = s.depth := rfl
@[simp] theorem State.beginStream_palette (s : State) (k : OutKind) : (s.beginStream k).palette = s.palette := rfl
@[simp] theorem State.beginStream_capacity (s : State) (k : OutKind) (sp : Space) : (s.beginStream k).capacity sp = s.capacity sp := rfl
@[simp] theorem State.beginStream_memory (s : State) (k : OutKind) (sp : Space) : (s.beginStream k).memory sp = s.memory sp := rfl

/-! ### `record` -/

@[simp] theorem State.record_eng (s : State) (w : Word) : (s.record w).eng = s.eng := rfl
@[simp] theorem State.record_verr (s : State) (w : Word) : (s.record w).verr = s.verr := rfl
@[simp] theorem State.record_notfound (s : State) (w : Word) : (s.record w).notfound = s.notfound := rfl
@[simp] theorem State.record_outkind (s : State) (w : Word) : (s.record w).outkind = s.outkind := rfl
@[simp] theorem State.record_cause (s : State) (w : Word) : (s.record w).cause = s.cause := rfl
@[simp] theorem State.record_finfo (s : State) (w : Word) : (s.record w).finfo = s.finfo := rfl
@[simp] theorem State.record_bpp (s : State) (w : Word) : (s.record w).bpp = s.bpp := rfl
@[simp] theorem State.record_layout (s : State) (w : Word) : (s.record w).layout = s.layout := rfl
@[simp] theorem State.record_palsize (s : State) (w : Word) : (s.record w).palsize = s.palsize := rfl
@[simp] theorem State.record_misscnt (s : State) (w : Word) : (s.record w).misscnt = s.misscnt := rfl
@[simp] theorem State.record_outcnt (s : State) (w : Word) : (s.record w).outcnt = s.outcnt := rfl
@[simp] theorem State.record_chrlen (s : State) (w : Word) : (s.record w).chrlen = s.chrlen := rfl
@[simp] theorem State.record_pixlen (s : State) (w : Word) : (s.record w).pixlen = s.pixlen := rfl
@[simp] theorem State.record_rawlen (s : State) (w : Word) : (s.record w).rawlen = s.rawlen := rfl
@[simp] theorem State.record_collen (s : State) (w : Word) : (s.record w).collen = s.collen := rfl
@[simp] theorem State.record_width (s : State) (w : Word) : (s.record w).width = s.width := rfl
@[simp] theorem State.record_height (s : State) (w : Word) : (s.record w).height = s.height := rfl
@[simp] theorem State.record_a0 (s : State) (w : Word) : (s.record w).a0 = s.a0 := rfl
@[simp] theorem State.record_a1 (s : State) (w : Word) : (s.record w).a1 = s.a1 := rfl
@[simp] theorem State.record_r0 (s : State) (w : Word) : (s.record w).r0 = s.r0 := rfl
@[simp] theorem State.record_tile (s : State) (w : Word) : (s.record w).tile = s.tile := rfl
@[simp] theorem State.record_grid (s : State) (w : Word) : (s.record w).grid = s.grid := rfl
@[simp] theorem State.record_row (s : State) (w : Word) : (s.record w).row = s.row := rfl
@[simp] theorem State.record_plane (s : State) (w : Word) : (s.record w).plane = s.plane := rfl
@[simp] theorem State.record_scan (s : State) (w : Word) : (s.record w).scan = s.scan := rfl
@[simp] theorem State.record_cscan (s : State) (w : Word) : (s.record w).cscan = s.cscan := rfl
@[simp] theorem State.record_pal (s : State) (w : Word) : (s.record w).pal = s.pal := rfl
@[simp] theorem State.record_chrmem (s : State) (w : Word) : (s.record w).chrmem = s.chrmem := rfl
@[simp] theorem State.record_pixmem (s : State) (w : Word) : (s.record w).pixmem = s.pixmem := rfl
@[simp] theorem State.record_rawmem (s : State) (w : Word) : (s.record w).rawmem = s.rawmem := rfl
@[simp] theorem State.record_colmem (s : State) (w : Word) : (s.record w).colmem = s.colmem := rfl
@[simp] theorem State.record_out (s : State) (w : Word) : (s.record w).out = s.out := rfl
@[simp] theorem State.record_cfg (s : State) (w : Word) : (s.record w).cfg = s.cfg := rfl
@[simp] theorem State.record_host (s : State) (w : Word) : (s.record w).host = s.host := rfl
@[simp] theorem State.record_reads (s : State) (w : Word) : (s.record w).reads = s.reads ++ [w] := rfl
@[simp] theorem State.record_fresh (s : State) (w : Word) : (s.record w).fresh = s.fresh := rfl
@[simp] theorem State.record_depth (s : State) (w : Word) : (s.record w).depth = s.depth := rfl
@[simp] theorem State.record_palette (s : State) (w : Word) : (s.record w).palette = s.palette := rfl
@[simp] theorem State.record_capacity (s : State) (w : Word) (sp : Space) : (s.record w).capacity sp = s.capacity sp := rfl
@[simp] theorem State.record_memory (s : State) (w : Word) (sp : Space) : (s.record w).memory sp = s.memory sp := rfl

/-! ### `writeByte` -/

@[simp] theorem State.writeByte_eng (s : State) (sp : Space) (k : Nat) (v : Byte) : (s.writeByte sp k v).eng = s.eng := by cases sp <;> rfl
@[simp] theorem State.writeByte_verr (s : State) (sp : Space) (k : Nat) (v : Byte) : (s.writeByte sp k v).verr = s.verr := by cases sp <;> rfl
@[simp] theorem State.writeByte_notfound (s : State) (sp : Space) (k : Nat) (v : Byte) : (s.writeByte sp k v).notfound = s.notfound := by cases sp <;> rfl
@[simp] theorem State.writeByte_outkind (s : State) (sp : Space) (k : Nat) (v : Byte) : (s.writeByte sp k v).outkind = s.outkind := by cases sp <;> rfl
@[simp] theorem State.writeByte_cause (s : State) (sp : Space) (k : Nat) (v : Byte) : (s.writeByte sp k v).cause = s.cause := by cases sp <;> rfl
@[simp] theorem State.writeByte_finfo (s : State) (sp : Space) (k : Nat) (v : Byte) : (s.writeByte sp k v).finfo = s.finfo := by cases sp <;> rfl
@[simp] theorem State.writeByte_bpp (s : State) (sp : Space) (k : Nat) (v : Byte) : (s.writeByte sp k v).bpp = s.bpp := by cases sp <;> rfl
@[simp] theorem State.writeByte_layout (s : State) (sp : Space) (k : Nat) (v : Byte) : (s.writeByte sp k v).layout = s.layout := by cases sp <;> rfl
@[simp] theorem State.writeByte_palsize (s : State) (sp : Space) (k : Nat) (v : Byte) : (s.writeByte sp k v).palsize = s.palsize := by cases sp <;> rfl
@[simp] theorem State.writeByte_misscnt (s : State) (sp : Space) (k : Nat) (v : Byte) : (s.writeByte sp k v).misscnt = s.misscnt := by cases sp <;> rfl
@[simp] theorem State.writeByte_outcnt (s : State) (sp : Space) (k : Nat) (v : Byte) : (s.writeByte sp k v).outcnt = s.outcnt := by cases sp <;> rfl
@[simp] theorem State.writeByte_chrlen (s : State) (sp : Space) (k : Nat) (v : Byte) : (s.writeByte sp k v).chrlen = s.chrlen := by cases sp <;> rfl
@[simp] theorem State.writeByte_pixlen (s : State) (sp : Space) (k : Nat) (v : Byte) : (s.writeByte sp k v).pixlen = s.pixlen := by cases sp <;> rfl
@[simp] theorem State.writeByte_rawlen (s : State) (sp : Space) (k : Nat) (v : Byte) : (s.writeByte sp k v).rawlen = s.rawlen := by cases sp <;> rfl
@[simp] theorem State.writeByte_collen (s : State) (sp : Space) (k : Nat) (v : Byte) : (s.writeByte sp k v).collen = s.collen := by cases sp <;> rfl
@[simp] theorem State.writeByte_width (s : State) (sp : Space) (k : Nat) (v : Byte) : (s.writeByte sp k v).width = s.width := by cases sp <;> rfl
@[simp] theorem State.writeByte_height (s : State) (sp : Space) (k : Nat) (v : Byte) : (s.writeByte sp k v).height = s.height := by cases sp <;> rfl
@[simp] theorem State.writeByte_a0 (s : State) (sp : Space) (k : Nat) (v : Byte) : (s.writeByte sp k v).a0 = s.a0 := by cases sp <;> rfl
@[simp] theorem State.writeByte_a1 (s : State) (sp : Space) (k : Nat) (v : Byte) : (s.writeByte sp k v).a1 = s.a1 := by cases sp <;> rfl
@[simp] theorem State.writeByte_r0 (s : State) (sp : Space) (k : Nat) (v : Byte) : (s.writeByte sp k v).r0 = s.r0 := by cases sp <;> rfl
@[simp] theorem State.writeByte_tile (s : State) (sp : Space) (k : Nat) (v : Byte) : (s.writeByte sp k v).tile = s.tile := by cases sp <;> rfl
@[simp] theorem State.writeByte_grid (s : State) (sp : Space) (k : Nat) (v : Byte) : (s.writeByte sp k v).grid = s.grid := by cases sp <;> rfl
@[simp] theorem State.writeByte_row (s : State) (sp : Space) (k : Nat) (v : Byte) : (s.writeByte sp k v).row = s.row := by cases sp <;> rfl
@[simp] theorem State.writeByte_plane (s : State) (sp : Space) (k : Nat) (v : Byte) : (s.writeByte sp k v).plane = s.plane := by cases sp <;> rfl
@[simp] theorem State.writeByte_scan (s : State) (sp : Space) (k : Nat) (v : Byte) : (s.writeByte sp k v).scan = s.scan := by cases sp <;> rfl
@[simp] theorem State.writeByte_cscan (s : State) (sp : Space) (k : Nat) (v : Byte) : (s.writeByte sp k v).cscan = s.cscan := by cases sp <;> rfl
@[simp] theorem State.writeByte_pal (s : State) (sp : Space) (k : Nat) (v : Byte) : (s.writeByte sp k v).pal = s.pal := by cases sp <;> rfl
@[simp] theorem State.writeByte_out (s : State) (sp : Space) (k : Nat) (v : Byte) : (s.writeByte sp k v).out = s.out := by cases sp <;> rfl
@[simp] theorem State.writeByte_cfg (s : State) (sp : Space) (k : Nat) (v : Byte) : (s.writeByte sp k v).cfg = s.cfg := by cases sp <;> rfl
@[simp] theorem State.writeByte_host (s : State) (sp : Space) (k : Nat) (v : Byte) : (s.writeByte sp k v).host = s.host := by cases sp <;> rfl
@[simp] theorem State.writeByte_reads (s : State) (sp : Space) (k : Nat) (v : Byte) : (s.writeByte sp k v).reads = s.reads := by cases sp <;> rfl
@[simp] theorem State.writeByte_fresh (s : State) (sp : Space) (k : Nat) (v : Byte) : (s.writeByte sp k v).fresh = s.fresh := by cases sp <;> rfl
@[simp] theorem State.writeByte_depth (s : State) (sp : Space) (k : Nat) (v : Byte) : (s.writeByte sp k v).depth = s.depth := by cases sp <;> rfl
@[simp] theorem State.writeByte_palette (s : State) (sp : Space) (k : Nat) (v : Byte) : (s.writeByte sp k v).palette = s.palette := by cases sp <;> rfl
@[simp] theorem State.writeByte_capacity (s : State) (sp : Space) (k : Nat) (v : Byte) (sq : Space) : (s.writeByte sp k v).capacity sq = s.capacity sq := by cases sp <;> rfl

/-- A byte write changes the memory of its space by one `Memory.write`. -/
@[simp] theorem State.writeByte_memory_same (s : State) (sp : Space) (k : Nat) (v : Byte) :
    (s.writeByte sp k v).memory sp = (s.memory sp).write k v := by cases sp <;> rfl

/-- A byte write leaves the memories of the other spaces (R45: none aliases another). -/
theorem State.writeByte_memory_other (s : State) {sp sq : Space} (h : sq ≠ sp) (k : Nat) (v : Byte) :
    (s.writeByte sp k v).memory sq = s.memory sq := by cases sp <;> cases sq <;> first | rfl | exact absurd rfl h

end Sys2Proof.Machine
end

