-- ==== Sys2Proof/Laws/TileCodec.lean ====
section
/-! SUPPORT. The pixel, row and tile functions bit by bit (R144, R147, R148), and the layout rule as a bijection's two
halves (R143). -/

namespace Sys2Proof.Machine

/-- Bit `p` of a decoded pixel is bit `7 − col` of the row-byte of plane `p` (R144). -/
theorem decodePixel_testBit (t : Nat → Byte) (row col : Fin 8) (bpp : Nat) (layout : Layout) (p : Nat) :
    (decodePixel t row col bpp layout).testBit p
      = (decide (p < bpp) && (t (planeOffset p row bpp layout)).getLsbD (7 - col.val)) := by
  simp only [decodePixel, getBit_eq]
  exact sumBelow_bits_testBit (fun p => (t (planeOffset p row bpp layout)).toNat.testBit (7 - col.val)) bpp p

/-- A decoded index is below `2^bpp` (R144). -/
theorem decodePixel_lt (t : Nat → Byte) (row col : Fin 8) (bpp : Nat) (layout : Layout) :
    decodePixel t row col bpp layout < 2 ^ bpp := by
  simp only [decodePixel, getBit_eq]
  exact sumBelow_bits_lt (fun p => (t (planeOffset p row bpp layout)).toNat.testBit (7 - col.val)) bpp

/-- A decoded pixel depends on its tile's bytes only at the places of its row (R145). -/
theorem decodePixel_congr {t u : Nat → Byte} (row col : Fin 8) (bpp : Nat) (layout : Layout)
    (h : ∀ p, p < bpp → t (planeOffset p row bpp layout) = u (planeOffset p row bpp layout)) :
    decodePixel t row col bpp layout = decodePixel u row col bpp layout := by
  refine Nat.eq_of_testBit_eq fun p => ?_
  simp only [decodePixel_testBit]
  by_cases hp : p < bpp
  · rw [h p hp]
  · simp [hp]

/-- Bit `j` of the row-byte of plane `p` is bit `p` of the pixel of column `7 − j` (R147). -/
theorem encodeRow_testBit (px : Fin 8 → Byte) (p j : Nat) :
    (encodeRow px p).testBit j = (decide (j < 8) && (px (Fin.ofNat 8 (7 - j))).getLsbD p) := by
  have h : encodeRow px p
      = sumBelow 8 fun j => ((px (Fin.ofNat 8 (7 - j))).toNat.testBit p).toNat <<< j := by
    simp [encodeRow, getBit_eq, sumBelow, Nat.shiftLeft_eq]
    omega
  rw [h]
  exact sumBelow_bits_testBit (fun j => (px (Fin.ofNat 8 (7 - j))).toNat.testBit p) 8 j

/-- A row-byte is a byte (R147). -/
theorem encodeRow_lt (px : Fin 8 → Byte) (p : Nat) : encodeRow px p < 2 ^ 8 := by
  refine Nat.lt_pow_two_of_testBit _ fun j hj => ?_
  have : ¬ j < 8 := by omega
  simp [encodeRow_testBit, this]

/-- A row-byte depends only on bit `p` of its pixels (R147). -/
theorem encodeRow_congr {px qx : Fin 8 → Byte} {p : Nat} (h : ∀ c, (px c).getLsbD p = (qx c).getLsbD p) :
    encodeRow px p = encodeRow qx p := by
  refine Nat.eq_of_testBit_eq fun j => ?_
  simp only [encodeRow_testBit, h]

/-- Every row-byte of a tile lies inside the tile (R143). -/
theorem planeOffset_lt {p y bpp : Nat} (hp : p < bpp) (hy : y < 8) (layout : Layout) :
    planeOffset p y bpp layout < tileBytes bpp := by
  cases layout <;> simp only [planeOffset, tileBytes]
  · omega
  · split <;> omega

/-- Two different row-bytes of a tile lie at different places (R143). -/
theorem planeOffset_inj {p q y z bpp : Nat} (hp : p < bpp) (hq : q < bpp) (hy : y < 8) (hz : z < 8)
    {layout : Layout} (h : planeOffset p y bpp layout = planeOffset q z bpp layout) : p = q ∧ y = z := by
  cases layout <;> simp only [planeOffset] at h
  · omega
  · split at h <;> split at h <;> omega

theorem mem_scatterOrder {bpp : Nat} {yp : Fin 8 × Nat} : yp ∈ scatterOrder bpp ↔ yp.2 < bpp := by
  obtain ⟨y, p⟩ := yp
  simp [scatterOrder, List.mem_flatMap]

/-- What a fold of writes leaves at a place: the value of the one pair whose place it is. -/
theorem scatter_getElem? {α : Type} (l : List α) (place : α → Nat) (val : α → Byte) (t : List Byte) (a : α)
    (ha : a ∈ l) (hlt : place a < t.length) (hinj : ∀ b ∈ l, place b = place a → b = a) :
    (l.foldl (fun t b => t.set (place b) (val b)) t)[place a]? = some (val a) := by
  have keep : ∀ (l : List α) (t : List Byte), (∀ b ∈ l, place b = place a → b = a) → place a < t.length →
      (t[place a]? = some (val a)) → (l.foldl (fun t b => t.set (place b) (val b)) t)[place a]? = some (val a) := by
    intro l
    induction l with
    | nil => intro t _ _ h; exact h
    | cons b l ih =>
      intro t hb hlen h
      refine ih _ (fun c hc => hb c (by simp [hc])) (by simpa using hlen) ?_
      by_cases he : place b = place a
      · have := hb b (by simp) he
        subst this
        simp [hlen]
      · rw [List.getElem?_set_ne he]
        exact h
  induction l generalizing t with
  | nil => simp at ha
  | cons b l ih =>
    simp only [List.foldl_cons]
    by_cases he : b = a
    · subst he
      exact keep l _ (fun c hc => hinj c (by simp [hc])) (by simpa using hlt) (by simp [hlt])
    · have ha' : a ∈ l := by
        rcases List.mem_cons.1 ha with h | h
        · exact absurd h.symm he
        · exact h
      exact ih _ ha' (by simpa using hlt) fun c hc => hinj c (by simp [hc])

theorem scatter_length {α : Type} (l : List α) (place : α → Nat) (val : α → Byte) (t : List Byte) :
    (l.foldl (fun t b => t.set (place b) (val b)) t).length = t.length := by
  induction l generalizing t with
  | nil => rfl
  | cons b l ih => simp [ih]

/-- An encoded tile has `bpp × 8` bytes (R140, R148). -/
theorem encodeTile_length (g : Fin 8 → Fin 8 → Byte) (bpp : Nat) (layout : Layout) :
    (encodeTile g bpp layout).length = tileBytes bpp := by
  unfold encodeTile
  rw [scatter_length]
  simp

/-- The byte of an encoded tile at the place of plane `p` and row `y` is that row-byte (R148). -/
theorem encodeTile_at (g : Fin 8 → Fin 8 → Byte) {bpp p : Nat} (y : Fin 8) (layout : Layout) (hp : p < bpp) :
    (encodeTile g bpp layout)[planeOffset p y bpp layout]? = some (byte (encodeRow (g y) p)) := by
  refine scatter_getElem? (scatterOrder bpp) (fun yp => planeOffset yp.2 yp.1 bpp layout)
    (fun yp => byte (encodeRow (g yp.1) yp.2)) _ (y, p) (mem_scatterOrder.2 hp) ?_ ?_
  · simpa using planeOffset_lt hp y.isLt layout
  · intro b hb h
    have hb := mem_scatterOrder.1 hb
    have := planeOffset_inj hb hp b.1.isLt y.isLt h
    exact Prod.ext (Fin.ext this.2) this.1

/-- Element `8r + c` of `GRID` is row `r`, column `c` (R39). -/
theorem gridRow_mk (r c : Fin 8) (h : 8 * r.val + c.val < 64) : gridRow ⟨8 * r.val + c.val, h⟩ = r := by
  apply Fin.ext; simp only [gridRow]; omega

theorem gridCol_mk (r c : Fin 8) (h : 8 * r.val + c.val < 64) : gridCol ⟨8 * r.val + c.val, h⟩ = c := by
  apply Fin.ext; simp only [gridCol]; omega

/-- The bytes of the tile that `GRID` encodes to (R155). -/
theorem State.encodeGrid_tile_below (s : State) (k : Nat) (h : k < tileBytes s.depth) (h64 : k < 64) :
    s.encodeGrid.tile[k] = (encodeTile s.gridAt s.depth s.layout).getD k 0 := by
  unfold State.encodeGrid State.setTile
  rw [tabulate_get, if_pos h]

/-- The bytes above it stay (R155, decision D32). -/
theorem State.encodeGrid_tile_above (s : State) (k : Nat) (h : tileBytes s.depth ≤ k) (h64 : k < 64) :
    s.encodeGrid.tile[k] = s.tile[k] := by
  unfold State.encodeGrid State.setTile
  rw [tabulate_get, if_neg (by show ¬ k < tileBytes s.depth; omega)]
  rfl

/-- All of them, as the list an event carries (R183). -/
theorem State.encodeGrid_tile_take (s : State) (h : tileBytes s.depth ≤ 64) :
    s.encodeGrid.tile.toList.take (tileBytes s.depth) = encodeTile s.gridAt s.depth s.layout := by
  have hlen := encodeTile_length s.gridAt s.depth s.layout
  apply List.ext_getElem
  · rw [List.length_take, Vector.length_toList, hlen]; omega
  intro i h1 h2
  have hi : i < tileBytes s.depth := Nat.lt_of_lt_of_eq h2 hlen
  rw [List.getElem_take, Vector.getElem_toList, State.encodeGrid_tile_below s i hi (by omega),
    List.getD_eq_getElem?_getD, List.getElem?_eq_getElem h2, Option.getD_some]

end Sys2Proof.Machine
end

