-- ==== Sys2Proof/Laws/PlaneStream.lean ====
section
/-! SUPPORT. A scanline bit by bit and what it reads (R171 to R173), and the engine's turn case by case (R185). -/

namespace Sys2Proof.Machine

/-- Bit `p` of element `8 × slot + c` of a scanline (R173). -/
theorem scanlineIndex_testBit (buf : Nat → Byte) (len T : Nat) (y : Fin 8) (bpp : Nat) (layout : Layout) (slot : Nat)
    (c : Fin 8) (p : Nat) :
    (scanlineIndex buf len T y bpp layout (8 * slot + c.val)).testBit p =
      (decide (slot < numTiles len T bpp) && (decide (p < bpp) &&
        (buf (T * rowBytes bpp + slot * tileBytes bpp + planeOffset p y bpp layout)).getLsbD (7 - c.val))) := by
  have h1 : (8 * slot + c.val) / 8 = slot := by omega
  have h2 : Fin.ofNat 8 (8 * slot + c.val) = c := by apply Fin.ext; simp [Fin.ofNat]
  rw [scanlineIndex, h1, h2]
  split
  · next h => simp [h, decodePixel_testBit]
  · next h => simp [h]

/-- An element of a scanline is below `2^bpp` (R144, R173). -/
theorem scanlineIndex_lt (buf : Nat → Byte) (len T : Nat) (y : Fin 8) (bpp : Nat) (layout : Layout) (x : Nat) :
    scanlineIndex buf len T y bpp layout x < 2 ^ bpp := by
  unfold scanlineIndex
  split
  · exact decodePixel_lt _ _ _ _ _
  · exact Nat.pow_pos (by decide)

/-- Only bytes of whole tiles are read (R172, R308). -/
theorem scanlineIndex_congr {buf other : Nat → Byte} {len : Nat} (T : Nat) (y : Fin 8) {bpp : Nat} (layout : Layout)
    (x : Nat) (h : ∀ a, a < len / tileBytes bpp * tileBytes bpp → other a = buf a) :
    scanlineIndex other len T y bpp layout x = scanlineIndex buf len T y bpp layout x := by
  unfold scanlineIndex
  split
  · next hx =>
    refine decodePixel_congr _ _ _ _ fun p hp => h _ ?_
    have hoff := planeOffset_lt hp y.isLt layout
    have hpos : 0 < tileBytes bpp := by simp only [tileBytes] at *; omega
    have hrow : rowBytes bpp = 16 * tileBytes bpp := by simp only [rowBytes, tileBytes]; omega
    simp only [numTiles, availableBytes] at hx
    have hle : (x / 8 + 1) * tileBytes bpp ≤ min (rowBytes bpp) (len - T * rowBytes bpp) :=
      (Nat.le_div_iff_mul_le hpos).1 hx
    have hin : (T * 16 + x / 8 + 1) * tileBytes bpp ≤ len := by
      have : T * rowBytes bpp = T * 16 * tileBytes bpp := by rw [hrow, Nat.mul_assoc]
      have := Nat.min_le_right (rowBytes bpp) (len - T * rowBytes bpp)
      have hp : 0 < (x / 8 + 1) * tileBytes bpp := Nat.mul_pos (by omega) hpos
      simp only [Nat.add_mul, Nat.one_mul] at *
      omega
    have hcount : T * 16 + x / 8 + 1 ≤ len / tileBytes bpp := (Nat.le_div_iff_mul_le hpos).2 hin
    have := Nat.mul_le_mul_right (tileBytes bpp) hcount
    have e : T * rowBytes bpp = T * 16 * tileBytes bpp := by rw [hrow, Nat.mul_assoc]
    have hoff : planeOffset p y.val bpp layout < tileBytes bpp := hoff
    simp only [Nat.add_mul, Nat.one_mul] at this ⊢
    omega
  · rfl

/-- With units left a running engine builds one (R185). -/
theorem State.engineTurn_unit {s : State} (hr : s.eng = .run) (h : s.outcnt.toNat < s.unitTotal) :
    s.engineTurn = s.buildUnit.finishUnit := by
  simp [State.engineTurn, hr, h]

/-- With none left it completes (R185). -/
theorem State.engineTurn_done {s : State} (hr : s.eng = .run) (h : s.outcnt.toNat = s.unitTotal) :
    s.engineTurn = s.setEng .idle := by
  simp [State.engineTurn, hr, h]

/-- With `OUTCNT` above the number of units, which no run reaches, no rule of R185 applies (log 14). -/
theorem State.engineTurn_over {s : State} (h : s.unitTotal < s.outcnt.toNat) : s.engineTurn = s := by
  have h1 : ¬ s.outcnt.toNat < s.unitTotal := by omega
  have h2 : ¬ s.outcnt.toNat = s.unitTotal := by omega
  unfold State.engineTurn
  split <;> simp [h1, h2]

/-- In any other engine state no engine step is enabled (R185, R187). -/
theorem State.engineTurn_still {s : State} (h : s.eng ≠ .run) : s.engineTurn = s := by
  cases he : s.eng <;> simp_all [State.engineTurn]

theorem State.buildUnit_scan {s : State} (h : s.outkind = .scan) : s.buildUnit = s.unitIdx := by
  simp [State.buildUnit, h]

theorem State.buildUnit_cscan {s : State} (h : s.outkind = .cscan) : s.buildUnit = s.unitRgba := by
  simp [State.buildUnit, h]

theorem State.buildUnit_tile {s : State} (h : s.outkind = .tile) : s.buildUnit = s.unitChr := by
  simp [State.buildUnit, h]

/-- A unit that did not fault is counted and waits (R185). -/
theorem State.finishUnit_emitted {s : State} (h : s.eng ≠ .fault) :
    s.finishUnit = { s with outcnt := s.outcnt + 1, eng := .wait } := by
  simp [State.finishUnit, h]

/-- A unit that faulted is not counted (R182, R255). -/
theorem State.finishUnit_faulted {s : State} (h : s.eng = .fault) : s.finishUnit = s := by
  simp [State.finishUnit, h]

/-- All that `TOIDX` and `TORGBA` can do after the depth check (R181, R182). -/
theorem State.startDecode_cases (s : State) (kind : OutKind) :
    s.capacity .chrmem < s.chrlen.toNat ∧ s.startDecode kind = (s.beginStream kind).raiseFault .bounds 1 ∨
    s.chrlen.toNat ≤ s.capacity .chrmem ∧ s.startDecode kind = (s.beginStream kind).setEng .run := by
  by_cases h : s.capacity .chrmem < s.chrlen.toNat
  · exact .inl ⟨h, by rw [State.startDecode, if_pos (by exact h)]; rfl⟩
  · exact .inr ⟨Nat.le_of_not_lt h, by rw [State.startDecode, if_neg (by exact h)]⟩

/-- All that `TOCHR` can do after the depth check (R177, R183). -/
theorem State.startEncode_cases (s : State) :
    ¬(s.width.toNat % 8 = 0 ∧ s.height.toNat % 8 = 0) ∧
      s.startEncode = (s.beginStream .tile).setVerr.emit (.validationFailure s.width s.height) ∨
    (s.width.toNat % 8 = 0 ∧ s.height.toNat % 8 = 0) ∧
      ((s.pixlen.toNat < s.width.toNat * s.height.toNat ∨ s.capacity .pixmem < s.pixlen.toNat) ∧
          s.startEncode = (s.beginStream .tile).raiseFault .bounds 2 ∨
        (s.width.toNat * s.height.toNat ≤ s.pixlen.toNat ∧ s.pixlen.toNat ≤ s.capacity .pixmem) ∧
          s.startEncode = (s.beginStream .tile).setEng .run) := by
  have hd : dimensionsValid s.width.toNat s.height.toNat = true ↔ s.width.toNat % 8 = 0 ∧ s.height.toNat % 8 = 0 := by
    simp [dimensionsValid]
  by_cases h : dimensionsValid s.width.toNat s.height.toNat = true
  · refine .inr ⟨hd.1 h, ?_⟩
    by_cases hp : s.pixlen.toNat < s.width.toNat * s.height.toNat ∨ s.capacity .pixmem < s.pixlen.toNat
    · exact .inl ⟨hp, by rw [State.startEncode, if_pos (by exact h), if_pos (by exact hp)]; rfl⟩
    · exact .inr ⟨by omega, by rw [State.startEncode, if_pos (by exact h), if_neg (by exact hp)]⟩
  · exact .inl ⟨fun hh => h (hd.2 hh), by rw [State.startEncode, if_neg (by exact h)]; rfl⟩

/-- All that `TORGBA`'s unit can do (R182). -/
theorem State.unitRgba_cases (s : State) :
    (∃ x : Fin 128, s.palsize.val ≤ s.buildScanline.scan[x].toNat ∧
      s.unitRgba = (s.buildScanline.colourScanline x.val).raiseFault .palidx s.buildScanline.scan[x].toNat) ∨
    (∀ x : Fin 128, s.buildScanline.scan[x].toNat < s.palsize.val) ∧
      s.unitRgba = (s.buildScanline.colourScanline 128).emit
        (.rgbaScanline ((s.buildScanline.colourScanline 128).cscan.toList.map Color.unpack)) := by
  unfold State.unitRgba
  simp only
  cases h : s.buildScanline.firstBadIndex with
  | some x =>
    have := List.find?_some h
    have hp : s.buildScanline.palsize = s.palsize := rfl
    exact .inl ⟨x, by simpa [hp] using this, rfl⟩
  | none =>
    refine .inr ⟨fun x => ?_, rfl⟩
    have := List.find?_eq_none.1 h x (by simp)
    have hp : s.buildScanline.palsize = s.palsize := rfl
    simpa [hp] using this

/-- All that the engine's turn can do (R185): nothing, complete, or build one unit of the command that `OUTKIND`
names. -/
theorem State.engineTurn_cases (s : State) :
    s.engineTurn = s ∨
    s.eng = .run ∧ s.outcnt.toNat = s.unitTotal ∧ s.engineTurn = s.setEng .idle ∨
    s.eng = .run ∧ s.outcnt.toNat < s.unitTotal ∧
      (s.outkind = .scan ∧ s.engineTurn = { s.unitIdx with outcnt := s.outcnt + 1, eng := .wait } ∨
       s.outkind = .tile ∧ s.engineTurn = { s.unitChr with outcnt := s.outcnt + 1, eng := .wait } ∨
       s.outkind = .cscan ∧
        ((∃ x : Fin 128, s.palsize.val ≤ s.buildScanline.scan[x].toNat ∧ s.engineTurn =
            (s.buildScanline.colourScanline x.val).raiseFault .palidx s.buildScanline.scan[x].toNat) ∨
          (∀ x : Fin 128, s.buildScanline.scan[x].toNat < s.palsize.val) ∧
            s.engineTurn = { (s.buildScanline.colourScanline 128).emit (.rgbaScanline
              ((s.buildScanline.colourScanline 128).cscan.toList.map Color.unpack)) with
                outcnt := s.outcnt + 1, eng := .wait })) := by
  by_cases hr : s.eng = .run
  · rcases Nat.lt_trichotomy s.outcnt.toNat s.unitTotal with hlt | he | hgt
    · refine .inr (.inr ⟨hr, hlt, ?_⟩)
      have hne : s.eng ≠ .fault := by rw [hr]; decide
      rw [State.engineTurn_unit hr hlt]
      obtain ⟨kind, hk⟩ : ∃ kind, s.outkind = kind := ⟨_, rfl⟩
      cases kind with
      | none => rw [State.unitTotal, hk] at hlt; exact absurd hlt (Nat.not_lt_zero _)
      | scan =>
        rw [State.buildUnit_scan hk]
        exact .inl ⟨hk, State.finishUnit_emitted (s := s.unitIdx) hne⟩
      | tile =>
        rw [State.buildUnit_tile hk]
        exact .inr (.inl ⟨hk, State.finishUnit_emitted (s := s.unitChr) hne⟩)
      | cscan =>
        rw [State.buildUnit_cscan hk]
        refine .inr (.inr ⟨hk, ?_⟩)
        rcases s.unitRgba_cases with ⟨x, hx, he⟩ | ⟨hall, he⟩
        · exact .inl ⟨x, hx, by rw [he]; exact State.finishUnit_faulted rfl⟩
        · exact .inr ⟨hall, by rw [he]; exact State.finishUnit_emitted hne⟩
    · exact .inr (.inl ⟨hr, he, State.engineTurn_done hr he⟩)
    · exact .inl (State.engineTurn_over hgt)
  · exact .inl (State.engineTurn_still hr)

end Sys2Proof.Machine
end

