-- ==== Sys2Proof/Laws/Port.lean ====
section
/-! SUPPORT. The register map both ways round (R48), and what a write of an entry leaves every entry reading as (R49,
R50). -/

namespace Sys2Proof.Machine

/-- The offset of an entry (R48). -/
def PortEntry.offset : PortEntry → Nat
  | .cmd => 0x00
  | .status => 0x04
  | .ack => 0x08
  | .cause => 0x0C
  | .finfo => 0x10
  | .bpp => 0x14
  | .layout => 0x18
  | .palsize => 0x1C
  | .misscnt => 0x20
  | .outcnt => 0x24
  | .chrlen => 0x28
  | .pixlen => 0x2C
  | .rawlen => 0x30
  | .collen => 0x34
  | .width => 0x38
  | .height => 0x3C
  | .a0 => 0x40
  | .a1 => 0x44
  | .r0 => 0x48
  | .tile k => 0x100 + 4 * k.val
  | .grid j => 0x200 + 4 * j.val
  | .row c => 0x300 + 4 * c.val
  | .plane p => 0x320 + 4 * p.val
  | .scan x => 0x400 + 4 * x.val
  | .cscan x => 0x600 + 4 * x.val
  | .pal i => 0x800 + 4 * i.val

/-- The width of an entry the host can write (R48). -/
def PortEntry.writableWidth : PortEntry → Option Nat
  | .cmd => none
  | .status => none
  | .ack => none
  | .cause => none
  | .finfo => none
  | .bpp => some 4
  | .layout => some 1
  | .palsize => none
  | .misscnt => none
  | .outcnt => none
  | .chrlen => some 32
  | .pixlen => some 32
  | .rawlen => some 32
  | .collen => none
  | .width => some 32
  | .height => some 32
  | .a0 => some 32
  | .a1 => some 32
  | .r0 => none
  | .tile _ => some 8
  | .grid _ => some 8
  | .row _ => some 8
  | .plane _ => none
  | .scan _ => none
  | .cscan _ => none
  | .pal _ => some 32

theorem registerEntry_offset {n : Nat} {e : PortEntry} (h : registerEntry n = some e) : e.offset = 4 * n := by
  unfold registerEntry at h
  split at h <;> first | (obtain rfl := Option.some.inj h; rfl) | cases h

/-- A number below the size of a range is an element's number there. -/
theorem ofNat_val_of_lt {n k : Nat} [NeZero n] (h : k < n) : (Fin.ofNat n k).val = k := Nat.mod_eq_of_lt h

/-- An offset is the offset of the entry found there (R48). -/
theorem portEntry_offset {o : Word} {e : PortEntry} (h : portEntry o = some e) : o.toNat = e.offset := by
  simp only [portEntry] at h
  repeat' split at h
  all_goals first
    | cases h; done
    | (have := registerEntry_offset h; omega)
    | (obtain rfl := Option.some.inj h; simp only [PortEntry.offset]; rw [ofNat_val_of_lt (by omega)]; omega)

/-- Every entry is found at its offset (R48): the ranges of the map lie one above the other, so an offset is in its own
range and in none below it. -/
theorem portEntry_of_offset {o : Word} {e : PortEntry} (h : o.toNat = e.offset) : portEntry o = some e := by
  cases e
  case tile k | grid k | row k | plane k | scan k | cscan k | pal k =>
    simp only [PortEntry.offset] at h
    simp only [portEntry]
    repeat rw [if_neg (by omega)]
    rw [if_pos (by omega)]
    exact congrArg some (congrArg _ (Fin.ext ((ofNat_val_of_lt (by omega)).trans (by omega))))
  all_goals (unfold portEntry; simp only [h, PortEntry.offset]; rfl)

theorem portEntry_eq_some {o : Word} {e : PortEntry} : portEntry o = some e ↔ o.toNat = e.offset :=
  ⟨portEntry_offset, portEntry_of_offset⟩

theorem zextByte_byte (w : Word) : zextByte (byte w.toNat) = BitVec.ofNat 32 (w.toNat % 2 ^ 8) := by
  simp [zextByte, byte, word]

/-- A write of an entry: that entry reads the value truncated to its width, or as before if the host cannot write it
(R50). -/
theorem State.readEntry_storeEntry_self (s : State) (w : Word) (e : PortEntry) :
    (s.storeEntry w e).readEntry e =
      match e.writableWidth with
      | some n => BitVec.ofNat 32 (w.toNat % 2 ^ n)
      | none => s.readEntry e := by
  have full : w = BitVec.ofNat 32 (w.toNat % 2 ^ 32) := by
    rw [Nat.mod_eq_of_lt w.isLt]; simp
  cases e
  case bpp => simp [State.readEntry, State.storeEntry, PortEntry.writableWidth, word]
  case layout =>
    simp only [State.readEntry, State.storeEntry, PortEntry.writableWidth, Layout.ofWord]
    rcases Nat.mod_two_eq_zero_or_one w.toNat with h | h <;> simp [h, Layout.code, word]
  case tile k => simp [State.readEntry, State.storeEntry, PortEntry.writableWidth, zextByte_byte]
  case grid k => simp [State.readEntry, State.storeEntry, PortEntry.writableWidth, zextByte_byte]
  case row k => simp [State.readEntry, State.storeEntry, PortEntry.writableWidth, zextByte_byte]
  case pal k => simpa [State.readEntry, State.storeEntry, PortEntry.writableWidth] using full
  all_goals first | rfl | exact full

/-- Every other entry reads as before (R50). -/
theorem State.readEntry_storeEntry_of_ne (s : State) (w : Word) {e other : PortEntry} (h : other ≠ e) :
    (s.storeEntry w e).readEntry other = s.readEntry other := by
  cases e
  case tile k =>
    cases other <;> try rfl
    case tile j =>
      have : k.val ≠ j.val := fun hkj => h (congrArg PortEntry.tile (Fin.ext hkj.symm))
      simp [State.readEntry, State.storeEntry, this]
  case grid k =>
    cases other <;> try rfl
    case grid j =>
      have : k.val ≠ j.val := fun hkj => h (congrArg PortEntry.grid (Fin.ext hkj.symm))
      simp [State.readEntry, State.storeEntry, this]
  case row k =>
    cases other <;> try rfl
    case row j =>
      have : k.val ≠ j.val := fun hkj => h (congrArg PortEntry.row (Fin.ext hkj.symm))
      simp [State.readEntry, State.storeEntry, this]
  case pal k =>
    cases other <;> try rfl
    case pal j =>
      have : k.val ≠ j.val := fun hkj => h (congrArg PortEntry.pal (Fin.ext hkj.symm))
      simp [State.readEntry, State.storeEntry, this]
  all_goals (cases other <;> first | rfl | exact absurd rfl h)

/-- A read-only or write-only entry holds no written value (R50). -/
theorem State.storeEntry_of_readOnly (s : State) (w : Word) {e : PortEntry} (h : e.writableWidth = none) :
    s.storeEntry w e = s := by
  cases e <;> first | rfl | exact absurd h (by simp [PortEntry.writableWidth])

end Sys2Proof.Machine
end

