-- ==== Sys2Proof/Laws/Step.lean ====
section
/-! SUPPORT. One step, move by move (R5, R6, R262). -/

namespace Sys2Proof.Machine

/-- With a move waiting a step takes it (R262). -/
theorem step_of_move {s : State} {m : HostMove} {rest : List HostMove} (h : s.host = m :: rest) :
    step s = takeMove m { s with host := rest } := by
  rw [step, h]

/-- With no move waiting it is the engine's turn (R185; log 1). -/
theorem step_of_noMove {s : State} (h : s.host = []) : step s = .next s.engineTurn := by
  rw [step, h]

/-- The host lets the engine take its turn while other moves wait (R262; log 1). -/
theorem step_of_engineMove {s : State} {rest : List HostMove} (h : s.host = .engine :: rest) :
    step s = .next ({ s with host := rest } : State).engineTurn := step_of_move h

/-- A port write on an idle engine (R35, R50). -/
theorem step_of_write_idle {s : State} {offset w : Word} {rest : List HostMove} (h : s.host = .write offset w :: rest)
    (hi : s.eng = .idle) : step s = writeIdle offset w { s with host := rest } := by
  rw [step_of_move h]
  simp only [takeMove, writePort, hi]

end Sys2Proof.Machine
end

