-- ==== Sys2Proof/Tests/Slice0.lean ====
section
/-! SUPPORT. The model's own tests: the well-formedness checks refuse, every command's word from the spec decodes, at
most two one-step tests a command with results from 95_test_vectors.md, and a witness for the hypotheses of every
statement of Certificates/Slice0/Obligations.lean. -/

namespace Sys2Proof.Tests

open Sys2Proof Sys2Proof.Machine Sys2Proof.Rules

-- One theorem at a time: a hundred evaluations that all wait for the kernel at once each hold a thread.
set_option Elab.async false

/-! ### Small states -/

/-- The answer is a next state with a property. -/
def leads (o : Host.Outcome State Fault Refusal) (p : State → Bool) : Bool :=
  match o with
  | .next t => p t
  | .fault _ => false
  | .refused _ => false

/-- After reset, at a depth. -/
def atDepth (bpp : Nat) : State := { State.reset with bpp := BitVec.ofNat 4 bpp }

/-- The step that issues a command word on a state. -/
def issueWord (s : State) (w : Nat) : Host.Outcome State Fault Refusal := step (s.withFetchWord 32 w)

/-- The elements of a list, then zeros. -/
def fill {n : Nat} (l : List Nat) : Vector Byte n := tabulate fun k => byte (l.getD k.val 0)

/-- The words of a list, then zeros. -/
def fillWords {n : Nat} (l : List Nat) : Vector Word n := tabulate fun k => word (l.getD k.val 0)

/-- The bytes of a list at offsets 0, 1, 2 … -/
def bytesAt (l : List Nat) : Memory := l.zipIdx.foldl (fun m bk => m.write bk.2 (byte bk.1)) []

/-- The grid g2 of 95_test_vectors.md. -/
def g2 : List Nat :=
  [0, 1, 0, 0, 0, 0, 0, 3] ++ [1, 1, 2, 2, 3, 3, 0, 0] ++ [3, 3, 3, 3, 3, 3, 3, 3] ++ [0, 0, 0, 0, 0, 0, 0, 0]
    ++ [0, 1, 2, 3, 0, 1, 2, 3] ++ [3, 2, 1, 0, 3, 2, 1, 0] ++ [2, 0, 2, 0, 2, 0, 2, 0] ++ [1, 0, 0, 0, 0, 0, 0, 2]

/-- The tile V-T1: g2 at depth 2, Planar. -/
def vt1 : List Nat :=
  [0x41, 0xCC, 0xFF, 0x00, 0x55, 0xAA, 0x00, 0x80] ++ [0x01, 0x3C, 0xFF, 0x00, 0x33, 0xCC, 0xAA, 0x01]

/-- The tile V-T2: g2 at depth 2, Interleaved. -/
def vt2 : List Nat :=
  [0x41, 0x01, 0xCC, 0x3C, 0xFF, 0xFF, 0x00, 0x00] ++ [0x55, 0x33, 0xAA, 0xCC, 0x00, 0xAA, 0x80, 0x01]

/-- The custom palette of 95_test_vectors.md, section 2.6. -/
def customPalette : List Nat := [0x000000FF, 0xFF0000FF, 0x00FF00FF, 0x0000FF80]

/-- The state with that palette installed. -/
def painted : State := { atDepth 2 with pal := fillWords customPalette, palsize := 4 }

/-- A state whose next move is given. -/
def moving (m : HostMove) : State := { State.reset with host := [m] }

/-- A running stream command at depth 2 with one tile of `CHRMEM` (V-P5's buffer). -/
def streaming (kind : OutKind) : State :=
  { atDepth 2 with eng := .run, outkind := kind, chrmem := bytesAt vt1, chrlen := 16 }

/-- A running `TOCHR` of one 8×8 tile. -/
def encoding : State :=
  { atDepth 2 with eng := .run, outkind := .tile, width := 8, height := 8, pixlen := 64, pixmem := bytesAt g2 }

/-- The same with an image of zeros. -/
def encodingEmpty : State := { encoding with pixmem := [] }

/-! ### The checks of WellFormed refuse (R103) -/

theorem test_wellFormed_width_zero : Instr.wellFormed (.getbits 2 0) = false := by decide
theorem test_wellFormed_width_nine : Instr.wellFormed (.getbits 0 9) = false := by decide
theorem test_wellFormed_field_past_byte : Instr.wellFormed (.getbits 2 7) = false := by decide
theorem test_wellFormed_setbits_past_byte : Instr.wellFormed (.setbits 1 8) = false := by decide
theorem test_wellFormed_setbits_width_zero : Instr.wellFormed (.setbits 0 0) = false := by decide
theorem test_wellFormed_colch_two : Instr.wellFormed (.colch 2) = false := by decide
theorem test_wellFormed_pix2idx_zero : Instr.wellFormed (.pix2idx 0) = false := by decide
theorem test_wellFormed_pix2idx_five : Instr.wellFormed (.pix2idx 5) = false := by decide
theorem test_wellFormed_accepts : Instr.wellFormed (.getbits 7 1) = true ∧ Instr.wellFormed (.setbits 0 8) = true ∧
    Instr.wellFormed (.colch 4) = true ∧ Instr.wellFormed (.pix2idx 3) = true := by decide

/-! ### Decoding: one word a constructor, from 30_encoding.md and 95_test_vectors.md section 2.1 -/

theorem test_decode_getbit : decode 0x00000610 = .command (.getbit 6) := by decide
theorem test_decode_setbit : decode 0x00000311 = .command (.setbit 3) := by decide
theorem test_decode_getbits : decode 0x00010212 = .command (.getbits 2 4) := by decide
theorem test_decode_setbits : decode 0x0000C113 = .command (.setbits 1 3) := by decide
theorem test_decode_decpix : decode 0x00002B20 = .command (.decpix 3 5) := by decide
theorem test_decode_decrow : decode 0x00000521 = .command (.decrow 5) := by decide
theorem test_decode_dectile : decode 0x00000022 = .command .dectile := by decide
theorem test_decode_encrow : decode 0x00000023 = .command .encrow := by decide
theorem test_decode_enctile : decode 0x00000024 = .command .enctile := by decide
theorem test_decode_toidx : decode 0x00000030 = .command .toidx := by decide
theorem test_decode_torgba : decode 0x00000031 = .command .torgba := by decide
theorem test_decode_tochr : decode 0x00000032 = .command .tochr := by decide
theorem test_decode_reqh : decode 0x00000040 = .command .reqh := by decide
theorem test_decode_defpal : decode 0x00000050 = .command .defpal := by decide
theorem test_decode_palcommit : decode 0x00000051 = .command .palcommit := by decide
theorem test_decode_lookup : decode 0x00000052 = .command .lookup := by decide
theorem test_decode_find : decode 0x00000053 = .command .find := by decide
theorem test_decode_colch : decode 0x0000C054 = .command (.colch 3) := by decide
theorem test_decode_pix2idx : decode 0x00010055 = .command (.pix2idx 4) := by decide
theorem test_decode_idx2col : decode 0x00000056 = .command .idx2col := by decide
theorem test_decode_no_operation : decode 0x00000000 = .illegal .unlistedOperation := by decide
theorem test_decode_after_group : decode 0x00000057 = .illegal .unlistedOperation := by decide
theorem test_decode_unused_field : decode 0x00000810 = .illegal .unusedBitSet := by decide
theorem test_decode_high_bit : decode 0x80000030 = .illegal .unusedBitSet := by decide
theorem test_decodeTableWord : decodeTableWord 32 0x00003820 = some (.decpix 0 7) := by decide
theorem test_decodeTableWord_illegal : decodeTableWord 32 0x00040010 = none := by decide
theorem test_encode_setbits : encode (.setbits 4 4) = 0x00010413 := by decide
theorem test_encode_pix2idx : encode (.pix2idx 1) = 0x00004055 := by decide

/-! ### One step a command, results from 95_test_vectors.md -/

theorem test_getbit : leads (issueWord { State.reset with a0 := 0xFFFFFF7F } 0x710) (fun t => t.r0 == 0) := by decide +kernel
theorem test_getbit_set : leads (issueWord { State.reset with a0 := 0x41 } 0x610) (fun t => t.r0 == 1) := by decide +kernel
theorem test_setbit : leads (issueWord { State.reset with a0 := 0xFF, a1 := 0xFFFFFFFE } 0x311) (fun t => t.r0 == 0xF7) := by
  decide +kernel
theorem test_setbit_drops_high : leads (issueWord { State.reset with a0 := 0x1234, a1 := 3 } 0x411) (fun t => t.r0 == 0x34) := by
  decide +kernel
theorem test_getbits : leads (issueWord { State.reset with a0 := 0xB4 } 0x10212) (fun t => t.r0 == 0xD) := by decide +kernel
theorem test_getbits_operand : leads (issueWord State.reset 0x1C212)
    (fun t => t.cause == 2 && t.finfo == 0x1C212 && t.statusWord == 2) := by decide +kernel
theorem test_setbits : leads (issueWord { State.reset with a0 := 0xB4, a1 := 3 } 0x10213) (fun t => t.r0 == 0x8C) := by
  decide +kernel
theorem test_setbits_whole : leads (issueWord { State.reset with a0 := 0xB4, a1 := 0x1A5 } 0x20013) (fun t => t.r0 == 0xA5) := by
  decide +kernel
theorem test_decpix : leads (issueWord { atDepth 2 with tile := fill vt1 } 0x3820) (fun t => t.r0 == 3) := by decide +kernel
theorem test_decpix_depth : leads (issueWord (atDepth 5) 0x3820) (fun t => t.cause == 3 && t.finfo == 5) := by decide +kernel
theorem test_decrow : leads (issueWord { atDepth 2 with tile := fill vt1 } 0x521)
    (fun t => t.row == fill [3, 2, 1, 0, 3, 2, 1, 0]) := by decide +kernel
theorem test_dectile : leads (issueWord { atDepth 2 with tile := fill vt2, layout := .interleaved } 0x22)
    (fun t => t.grid == fill g2) := by decide +kernel
theorem test_encrow : leads (issueWord { atDepth 3 with row := fill [0, 1, 2, 3, 4, 5, 6, 7] } 0x23)
    (fun t => t.plane == fill [0x55, 0x33, 0x0F]) := by decide +kernel
theorem test_encrow_out_of_range : leads (issueWord { atDepth 2 with row := fill [4, 5, 6, 7, 255, 2, 1, 0] } 0x23)
    (fun t => t.plane == fill [0x5A, 0x3C]) := by decide +kernel
theorem test_enctile_planar : leads (issueWord { atDepth 2 with grid := fill g2 } 0x24) (fun t => t.tile == fill vt1) := by
  decide +kernel
theorem test_enctile_interleaved : leads (issueWord { atDepth 2 with grid := fill g2, layout := .interleaved } 0x24)
    (fun t => t.tile == fill vt2) := by decide +kernel
theorem test_toidx_unit : leads (step (streaming .scan))
    (fun t => t.scan == fill [0, 1, 0, 0, 0, 0, 0, 3] && t.outcnt == 1 && t.statusWord == 0x25) := by decide +kernel
theorem test_toidx_bounds : leads (issueWord { atDepth 2 with chrlen := 101, cfg := { Config.largest with chrcap := 100 } } 0x30)
    (fun t => t.cause == 4 && t.finfo == 1 && t.statusWord == 0x22) := by decide +kernel
theorem test_torgba_unit : leads (step { streaming .cscan with pal := fillWords [0xFF, 0x555555FF, 0xAAAAAAFF, 0xFFFFFFFF], palsize := 4 })
    (fun t => t.cscan.toList.take 8 == [0xFF, 0x555555FF, 0xFF, 0xFF, 0xFF, 0xFF, 0xFF, 0xFFFFFFFF]) := by decide +kernel
theorem test_torgba_no_palette : leads (step (streaming .cscan))
    (fun t => t.cause == 5 && t.finfo == 0 && t.statusWord == 0x42 && t.out.isEmpty) := by decide +kernel
theorem test_tochr_unit : leads (step encoding)
    (fun t => t.out == [Event.tileBytes (vt1.map byte)] && t.outcnt == 1) := by decide +kernel
theorem test_tochr_validation : leads (issueWord { atDepth 2 with width := 10, height := 8 } 0x32)
    (fun t => t.statusWord == 0x68 && t.out == [.validationFailure 10 8]) := by decide +kernel
theorem test_reqh : leads (issueWord { atDepth 3 with a0 := 0xFFFFFFFF } 0x40) (fun t => t.r0 == 0x05555558) := by decide +kernel
theorem test_reqh_exact : leads (issueWord { atDepth 2 with a0 := 256 } 0x40) (fun t => t.r0 == 8) := by decide +kernel
theorem test_defpal : leads (issueWord (atDepth 3) 0x50)
    (fun t => t.palsize == 8 && t.palette == [0xFF, 0x242424FF, 0x484848FF, 0x6C6C6CFF, 0x909090FF, 0xB4B4B4FF, 0xD8D8D8FF,
      0xFCFCFCFF]) := by decide +kernel
theorem test_defpal_unsupported : leads (issueWord { painted with bpp := 6 } 0x50)
    (fun t => t.palsize == 0 && t.pal.toList.take 4 == customPalette.map word && t.statusWord == 0) := by decide +kernel
theorem test_palcommit : leads (issueWord (atDepth 8) 0x51) (fun t => t.palsize == 256) := by decide +kernel
theorem test_lookup : leads (issueWord { painted with a0 := 3 } 0x52) (fun t => t.r0 == 0x0000FF80) := by decide +kernel
theorem test_lookup_not_wrapped : leads (issueWord { painted with a0 := 0x100 } 0x52)
    (fun t => t.cause == 5 && t.finfo == 0x100) := by decide +kernel
theorem test_find_lowest : leads (issueWord { atDepth 2 with
      pal := fillWords [0xFF0000FF, 0x00FF00FF, 0xFF0000FF, 0x00FF00FF], palsize := 4, a0 := 0x00FF00FF } 0x53)
    (fun t => t.r0 == 1 && t.statusWord == 0) := by decide +kernel
theorem test_find_missing : leads (issueWord { painted with a0 := 0x123456FF } 0x53)
    (fun t => t.r0 == 0xFFFFFFFF && t.statusWord == 0x10) := by decide +kernel
theorem test_colch_three : leads (issueWord { State.reset with a0 := 0xFF332211 } 0xC054) (fun t => t.r0 == 0x112233FF) := by
  decide +kernel
theorem test_colch_one : leads (issueWord { State.reset with a0 := 0x12345678 } 0x4054) (fun t => t.r0 == 0x787878FF) := by
  decide +kernel
theorem test_pix2idx : leads (issueWord { painted with
      rawlen := 14, rawmem := bytesAt ([0xFF, 0, 0, 0, 0xFF, 0, 0] ++ [0, 0xFF, 0, 0, 0, 9, 9]) } 0xC055)
    (fun t => t.pixlen == 4 && t.pixmem == bytesAt [1, 2, 0, 0] && t.misscnt == 1 &&
      t.out == [.paletteMiss 2 { r := 0, g := 0, b := 255, a := 255 }]) := by decide +kernel
theorem test_pix2idx_operand : leads (issueWord State.reset 0x8055) (fun t => t.cause == 2 && t.finfo == 0x8055) := by
  decide +kernel
theorem test_idx2col : leads (issueWord { painted with pixlen := 3, pixmem := bytesAt [3, 0, 1] } 0x56)
    (fun t => t.collen == 12 && t.colmem == bytesAt ([0, 0, 0xFF, 0x80, 0, 0] ++ [0, 0xFF, 0xFF, 0, 0, 0xFF])) := by
  decide +kernel
theorem test_idx2col_bad_index : leads (issueWord { painted with pixlen := 2, pixmem := bytesAt [1, 4] } 0x56)
    (fun t => t.cause == 5 && t.finfo == 4 && t.collen == 0 && t.colmem == bytesAt [0xFF, 0, 0, 0xFF]) := by decide +kernel
theorem test_illegal_word : leads (issueWord State.reset 0x122) (fun t => t.cause == 1 && t.finfo == 0x122) := by
  decide +kernel
theorem test_busy_write : leads (step { streaming .scan with eng := .wait, host := [.write 0x14 4] })
    (fun t => t.cause == 6 && t.finfo == 0x14 && t.statusWord == 0x22 && t.bpp == 2) := by decide +kernel
theorem test_depth_write_truncates : leads (step (moving (.write 0x14 0x102))) (fun t => t.bpp == 2) := by decide +kernel
theorem test_memory_past_capacity :
    step { moving (.memWrite .pixmem 4 1) with cfg := { Config.largest with pixcap := 4 } }
    = .fault (.noSuchByte .pixmem 4) := by rfl
theorem test_memory_write_while_busy : step { encoding with host := [.memWrite .pixmem 0 1] }
    = .refused .hostMemoryWriteOutsideIdle := by rfl

/-! ### Witnesses: a concrete state and operands that meet the hypotheses of each statement, clause by clause -/

/-- `0x00000122` is `DECTILE` with `F0 = 1`: no command's word (95_test_vectors.md section 2.1). -/
theorem test_no_command_has_0x122 (i : Instr) : (0x00000122 : Word) ≠ encode i := by
  cases i <;> first | decide | (rename_i a; revert a; decide) | (rename_i a b; revert a b; decide)

/-- No command has `OP` 0x14, the first unused one after the BitPacking group. -/
theorem test_no_command_has_op_0x14 (i : Instr) : (0x00000014 : Word) &&& 0xFF ≠ encode i &&& 0xFF := by
  cases i <;> first | decide | (rename_i a; revert a; decide) | (rename_i a b; revert a b; decide)

theorem witness_DecodeInvertsEncode : decode 0x0003C055 = .command (.pix2idx 15) ∧ (0x0003C055 : Word) = encode (.pix2idx 15) := by
  decide

theorem witness_IllegalWordsAreNamed_unused_bit :
    (∀ i : Instr, (0x00000122 : Word) ≠ encode i) ∧ ∃ i : Instr, (0x00000122 : Word) &&& 0xFF = encode i &&& 0xFF :=
  ⟨test_no_command_has_0x122, .dectile, by decide⟩

theorem witness_IllegalWordsAreNamed_unlisted :
    (∀ i : Instr, (0x00000014 : Word) ≠ encode i) ∧ ∀ i : Instr, (0x00000014 : Word) &&& 0xFF ≠ encode i &&& 0xFF :=
  ⟨fun i h => test_no_command_has_op_0x14 i (by rw [← h]), test_no_command_has_op_0x14⟩

theorem witness_CmdWriteRunsDecodedCommand :
    (moving (.write 0 0x30)).host = .write 0 0x30 :: [] ∧ (moving (.write 0 0x30)).eng = .idle ∧
      decode 0x30 = .command .toidx := ⟨rfl, rfl, by decide⟩

theorem witness_PlacedWordRunsNext : decodeTableWord 32 0x00000040 = some .reqh := by decide

theorem witness_IllegalWordFaults :
    (moving (.write 0 0x122)).host = .write 0 0x122 :: [] ∧ (moving (.write 0 0x122)).eng = .idle ∧
      ∀ i : Instr, (0x00000122 : Word) ≠ encode i := ⟨rfl, rfl, test_no_command_has_0x122⟩

theorem witness_UnsupportedDepthFaults : needsDepth .encrow ∧ ¬supported (atDepth 15).bpp.toNat := ⟨trivial, by decide⟩

theorem witness_AcceptanceClearsResultFlags_accepted :
    ∃ t, exec .find { State.reset with verr := true } = .next t ∧ Instr.wellFormed .find = true ∧ t.notfound = true :=
  ⟨_, rfl, rfl, rfl⟩

theorem witness_AcceptanceClearsResultFlags_validation :
    ∃ t, exec .tochr { atDepth 2 with width := 10, height := 8 } = .next t ∧ t.verr = true := ⟨_, rfl, rfl⟩

theorem witness_AcceptanceClearsResultFlags_refused :
    ∃ t, exec (.getbits 2 7) { State.reset with notfound := true } = .next t ∧ Instr.wellFormed (.getbits 2 7) = false :=
  ⟨_, rfl, rfl⟩

theorem witness_field_in_byte : 1 ≤ (8 : Fin 16).val ∧ (8 : Fin 16).val ≤ 8 ∧ (0 : Fin 8).val + (8 : Fin 16).val ≤ 8 := by
  decide

theorem witness_field_past_byte :
    ¬(1 ≤ (8 : Fin 16).val ∧ (8 : Fin 16).val ≤ 8 ∧ (1 : Fin 8).val + (8 : Fin 16).val ≤ 8) := by decide

theorem witness_BitFieldLaws : (255 : Nat) < 256 ∧ 7 + 1 ≤ 8 ∧ 1 ≤ (1 : Nat) ∧ ¬(7 ≤ 6 ∧ 6 < 7 + (1 : Nat)) := by decide

theorem witness_LayoutPlacesRowBytes : 1 ≤ (3 : Nat) ∧ 2 < (3 : Nat) ∧ 7 < 8 ∧ planeOffset 2 7 3 .interleaved = 23 := by decide

theorem witness_depth_supported : supported (atDepth 8).bpp.toNat ∧ supported (atDepth 2).bpp.toNat := by decide

theorem witness_depth_unsupported : ¬supported (atDepth 0).bpp.toNat ∧ ¬supported (atDepth 9).bpp.toNat := by decide

/-- `DECPIX`, `DECROW`, `DECTILE`: a plane below the depth, and its place in the tile. -/
theorem witness_plane_of_tile :
    7 < (atDepth 8).bpp.toNat ∧ (63 : Fin 64).val = planeOffset 7 7 (atDepth 8).bpp.toNat (atDepth 8).layout := by decide

theorem witness_EncrowFillsPlanes : (1 : Fin 8).val < (atDepth 2).bpp.toNat ∧ (atDepth 2).bpp.toNat ≤ (2 : Fin 8).val := by decide

theorem witness_stream_starts :
    supported (atDepth 2).bpp.toNat ∧ (atDepth 2).chrlen.toNat ≤ (atDepth 2).cfg.chrcap.toNat := by decide

/-- A buffer of `n` bytes and a memory of 100. -/
def holding (n : Nat) : State := { atDepth 2 with chrlen := word n, cfg := { Config.largest with chrcap := 100 } }

theorem witness_stream_at_capacity :
    supported (holding 100).bpp.toNat ∧ (holding 100).chrlen.toNat = (holding 100).cfg.chrcap.toNat := by decide

theorem witness_stream_exceeds_capacity :
    supported (holding 101).bpp.toNat ∧ (holding 101).cfg.chrcap.toNat < (holding 101).chrlen.toNat := by decide

theorem witness_TochrValidatesThenStarts_invalid :
    ¬(({ atDepth 2 with width := 10, height := 8 } : State).width.toNat % 8 = 0 ∧
      ({ atDepth 2 with width := 10, height := 8 } : State).height.toNat % 8 = 0) := by decide

theorem witness_TochrValidatesThenStarts_starts :
    encoding.width.toNat % 8 = 0 ∧ encoding.height.toNat % 8 = 0 ∧
      encoding.width.toNat * encoding.height.toNat ≤ encoding.pixlen.toNat ∧
      encoding.pixlen.toNat ≤ encoding.cfg.pixcap.toNat := ⟨rfl, rfl, by decide, by decide⟩

theorem witness_TochrValidatesThenStarts_short :
    ({ encoding with pixlen := 63 } : State).pixlen.toNat
      < ({ encoding with pixlen := 63 } : State).width.toNat * ({ encoding with pixlen := 63 } : State).height.toNat := by
  decide

/-- An image large enough for its dimensions, in a memory too small for it. -/
theorem witness_TochrValidatesThenStarts_past_capacity :
    let s : State := { encoding with cfg := { Config.largest with pixcap := 63 } }
    supported s.bpp.toNat ∧ s.width.toNat * s.height.toNat ≤ s.pixlen.toNat ∧ s.cfg.pixcap.toNat < s.pixlen.toNat := by
  decide

/-- Both ways for the engine's turn to be next: no move waits, or the host lets the engine go before its next move. -/
theorem witness_engineNext :
    engineNext encoding [] ∧ engineNext { encoding with host := [.engine, .write 8 0] } [.write 8 0] :=
  ⟨.inr ⟨rfl, rfl⟩, .inl rfl⟩

theorem witness_IndexUnitEmitsScanline :
    engineNext (streaming .scan) [] ∧ (streaming .scan).eng = .run ∧ (streaming .scan).outkind = .scan ∧
      supported (streaming .scan).bpp.toNat ∧ (streaming .scan).outcnt.toNat < scanlines (streaming .scan) :=
  ⟨.inr ⟨rfl, rfl⟩, rfl, rfl, .inl rfl, by decide⟩

theorem witness_RgbaUnitEmitsColoursOrFaults :
    engineNext (streaming .cscan) [] ∧ (streaming .cscan).eng = .run ∧ (streaming .cscan).outkind = .cscan ∧
      supported (streaming .cscan).bpp.toNat ∧ (streaming .cscan).outcnt.toNat < scanlines (streaming .cscan) :=
  ⟨.inr ⟨rfl, rfl⟩, rfl, rfl, .inl rfl, by decide⟩

/-- With 4 entries every index of a depth 2 scanline is in the palette; with none, the index at `x = 0` is the first
that is not. -/
theorem witness_RgbaUnit_clauses :
    (∀ x : Fin 128, ({ streaming .cscan with palsize := 4 } : State).buildScanline.scan[x].toNat < 4) ∧
      (streaming .cscan).palsize.val ≤ (streaming .cscan).buildScanline.scan[(0 : Fin 128)].toNat ∧
      ∀ y : Fin 128, y < 0 → False := by
  refine ⟨by decide +kernel, Nat.zero_le _, fun y h => absurd h (by simp)⟩

theorem witness_TileUnitEmitsEncodedBlock :
    engineNext encoding [] ∧ encoding.eng = .run ∧ encoding.outkind = .tile ∧ supported encoding.bpp.toNat ∧
      encoding.outcnt.toNat < tiles encoding := ⟨.inr ⟨rfl, rfl⟩, rfl, rfl, .inl rfl, by decide⟩

theorem witness_EngineCompletesOrStays :
    (({ streaming .scan with outcnt := 8 } : State).outcnt.toNat = scanlines { streaming .scan with outcnt := 8 }) ∧
      (({ encoding with outcnt := 1 } : State).outcnt.toNat = tiles { encoding with outcnt := 1 }) ∧
      engineNext State.reset [] ∧ State.reset.eng ≠ .run := ⟨rfl, rfl, .inr ⟨rfl, rfl⟩, by decide⟩

/-- V-P1's 40 bytes: two whole tiles, then 8 bytes that may be anything. -/
theorem witness_TrailingChrBytesNeverRead :
    supported ({ atDepth 2 with chrlen := 40 } : State).bpp.toNat ∧
      ({ atDepth 2 with chrlen := 40 } : State).chrlen.toNat / (8 * 2) * (8 * 2) = 32 ∧
      ∀ a, a < 32 → Memory.read [(32, 255)] a = State.reset.chrmem.read a := by
  refine ⟨.inl rfl, rfl, fun a h => ?_⟩
  have : ¬ 32 = a := by omega
  simp [Memory.read, this, State.reset]

theorem witness_ToidxDeliversEveryScanline :
    let s : State := { atDepth 2 with chrlen := 16, host := .write 0 0x30 :: (acknowledgeAll 8 ++ []) }
    s.eng = .idle ∧ supported s.bpp.toNat ∧ s.chrlen.toNat ≤ s.cfg.chrcap.toNat ∧
      s.host = .write 0 0x30 :: (acknowledgeAll (scanlines s) ++ []) := ⟨rfl, .inl rfl, by decide, rfl⟩

theorem witness_TorgbaDeliversEveryScanline :
    let s : State := { painted with chrlen := 16, host := .write 0 0x31 :: (acknowledgeAll 8 ++ []) }
    s.eng = .idle ∧ supported s.bpp.toNat ∧ s.chrlen.toNat ≤ s.cfg.chrcap.toNat ∧ 2 ^ s.bpp.toNat ≤ s.palsize.val ∧
      s.host = .write 0 0x31 :: (acknowledgeAll (scanlines s) ++ []) := ⟨rfl, .inl rfl, by decide, by decide, rfl⟩

theorem witness_TochrDeliversEveryTile :
    let s : State := { encoding with eng := .idle, host := .write 0 0x32 :: (acknowledgeAll 1 ++ []) }
    s.eng = .idle ∧ supported s.bpp.toNat ∧ s.width.toNat % 8 = 0 ∧ s.height.toNat % 8 = 0 ∧
      s.width.toNat * s.height.toNat ≤ s.pixlen.toNat ∧ s.pixlen.toNat ≤ s.cfg.pixcap.toNat ∧
      s.host = .write 0 0x32 :: (acknowledgeAll (tiles s) ++ []) :=
  ⟨rfl, .inl rfl, rfl, rfl, by decide, by decide, rfl⟩

theorem witness_RequiredHeightLaws :
    1 ≤ (2 : Nat) ∧ 1 ≤ (256 : Nat) ∧ 256 ≤ 128 * 2 ∧ (255 : Nat) ≤ 256 ∧ (atDepth 2).bpp.toNat = 2 ∧
      (streaming .scan).outkind = .scan ∧ 2 ^ 32 - 1 < 2 ^ 32 := ⟨by decide, by decide, by decide, by decide, rfl, rfl, by decide⟩

theorem witness_DefpalInstallsRamp : (3 : Fin 256).val < 2 ^ (atDepth 2).bpp.toNat ∧ 2 ^ (atDepth 2).bpp.toNat ≤ (4 : Fin 256).val := by
  decide

theorem witness_LookupReadsEntryOrFaults :
    ({ painted with a0 := 3 } : State).a0.toNat = (3 : Fin 256).val ∧ (3 : Fin 256).val < painted.palsize.val ∧
      painted.palsize.val ≤ ({ painted with a0 := 4 } : State).a0.toNat := by decide

theorem witness_FindReturnsLowestIndex_found :
    (1 : Fin 256).val < painted.palsize.val ∧ painted.pal[(1 : Fin 256)] = ({ painted with a0 := 0xFF0000FF } : State).a0 ∧
      ∀ j : Fin 256, j < 1 → painted.pal[j] ≠ ({ painted with a0 := 0xFF0000FF } : State).a0 := by
  refine ⟨by decide, by decide +kernel, fun j h => ?_⟩
  have : j = 0 := by apply Fin.ext; have := Fin.lt_def.1 h; show j.val = 0; simp at this; omega
  subst this
  decide +kernel

theorem witness_FindReturnsLowestIndex_missing :
    ∀ i : Fin 256, i.val < painted.palsize.val → painted.pal[i] ≠ ({ painted with a0 := 0x123456FF } : State).a0 := by
  decide +kernel

theorem witness_channel_fields : (1 : Fin 16).val = 1 ∧ (3 : Fin 16).val = 3 ∧ (4 : Fin 16).val = 4 ∧
    ((2 : Fin 16).val ≠ 1 ∧ (2 : Fin 16).val ≠ 3 ∧ (2 : Fin 16).val ≠ 4) := by decide

theorem witness_Pix2idxConvertsPixels_runs :
    ({ painted with rawlen := 14 } : State).rawlen.toNat ≤ painted.cfg.rawcap.toNat ∧
      ({ painted with rawlen := 14 } : State).rawlen.toNat / (3 : Fin 16).val ≤ painted.cfg.pixcap.toNat ∧
      painted.pixmem.wf ∧ 3 < ({ painted with rawlen := 14 } : State).rawlen.toNat / (3 : Fin 16).val :=
  ⟨by decide, by decide, Memory.nil_wf, by decide⟩

theorem witness_Pix2idxConvertsPixels_too_large :
    ({ painted with rawlen := 9, cfg := { Config.largest with rawcap := 8 } } : State).cfg.rawcap.toNat < 9 ∧
      ({ painted with rawlen := 9, cfg := { Config.largest with pixcap := 2 } } : State).cfg.pixcap.toNat < 9 / 3 := by decide

theorem witness_Idx2colConvertsIndices_complete :
    let s : State := { painted with pixlen := 3, pixmem := bytesAt [3, 0, 1] }
    s.pixlen.toNat ≤ s.cfg.pixcap.toNat ∧ 4 * s.pixlen.toNat ≤ s.cfg.colcap.toNat ∧ s.colmem.wf ∧
      ∀ k, k < 3 → (s.pixmem.read k).toNat < s.palsize.val :=
  ⟨by decide, by decide, Memory.nil_wf, by decide⟩

theorem witness_Idx2colConvertsIndices_stopped :
    let s : State := { painted with pixlen := 2, pixmem := bytesAt [1, 4] }
    (∀ k, k < 1 → (s.pixmem.read k).toNat < s.palsize.val) ∧ s.palsize.val ≤ (s.pixmem.read 1).toNat := by decide

theorem witness_Idx2colConvertsIndices_too_large :
    ({ painted with pixlen := 3, cfg := { Config.largest with pixcap := 2 } } : State).cfg.pixcap.toNat < 3 ∧
      ({ painted with pixlen := 3, cfg := { Config.largest with colcap := 11 } } : State).cfg.colcap.toNat < 4 * 3 := by decide

theorem witness_EngineNeverWritesConfiguration : ∃ t, exec .idx2col painted = .next t := ⟨_, rfl⟩

theorem witness_ScalarCommandsNeverStream : ¬isStream .reqh ∧ ∃ t, exec .reqh (atDepth 2) = .next t := ⟨id, _, rfl⟩

theorem witness_OnlyPaletteCommandsWritePalette :
    Instr.find ≠ .defpal ∧ Instr.find ≠ .palcommit ∧ ∃ t, exec .find State.reset = .next t :=
  ⟨by decide, by decide, _, rfl⟩

theorem witness_MemoriesFrozenWhileBusy :
    encoding.busy = true ∧ (∃ t, step encoding = .next t) ∧
      ({ encoding with host := [.memWrite .chrmem 0 1] } : State).host = .memWrite .chrmem 0 1 :: [] := ⟨rfl, ⟨_, rfl⟩, rfl⟩

theorem witness_OutIsAppendOnly : encoding.host.head? ≠ some .reset ∧ ∃ t, step encoding = .next t := ⟨by decide, _, rfl⟩

theorem witness_FaultFreezesBlock :
    ({ moving (.read 4) with eng := .fault } : State).eng = .fault ∧
      ({ moving (.read 4) with eng := .fault } : State).host = .read 4 :: [] ∧ HostMove.read 4 ≠ .reset ∧
      ∃ t, step { moving (.read 4) with eng := .fault } = .next t := ⟨rfl, rfl, by decide, _, rfl⟩

theorem witness_BusyWritesFaultAndAckReleases :
    ({ moving (.write 4 0) with eng := .wait } : State).host = .write 4 0 :: [] ∧ (4 : Word) ≠ 8 ∧
      ({ moving (.write 8 0) with eng := .wait } : State).eng = .wait ∧ (moving (.write 8 0)).eng ≠ .wait := by decide

theorem witness_IdleWritesReadBack :
    (moving (.write 0x318 5)).host = .write 0x318 5 :: [] ∧ (moving (.write 0x318 5)).eng = .idle ∧ (0x318 : Word) ≠ 0 ∧
      writableWidth (0x318 : Word).toNat = some 8 ∧ writableWidth (0xBFC : Word).toNat = some 32 ∧
      writableWidth (0x320 : Word).toNat = none ∧ writableWidth (0xC00 : Word).toNat = none := by decide

/-- The clauses of `storedAt` and `readAs`: the first and the last element of each range of R48 is a writable or readable
offset, and the ranges do not meet. -/
theorem witness_port_ranges :
    0x100 + 4 * (0 : Fin 64).val = 0x100 ∧ 0x100 + 4 * (63 : Fin 64).val < 0x200 ∧ 0x200 + 4 * (63 : Fin 64).val < 0x300 ∧
      0x300 + 4 * (7 : Fin 8).val < 0x320 ∧ 0x320 + 4 * (7 : Fin 8).val < 0x340 ∧ 0x400 + 4 * (127 : Fin 128).val < 0x600 ∧
      0x600 + 4 * (127 : Fin 128).val < 0x800 ∧ 0x800 + 4 * (255 : Fin 256).val < 0xC00 := by decide

/-- Every scalar writable entry, and both ends of every writable range, has the width R48 gives it. -/
theorem witness_writable_offsets :
    [0x28, 0x2C, 0x30, 0x38, 0x3C, 0x40, 0x44, 0x800, 0xBFC].all (fun o => writableWidth o == some 32) = true ∧
      [0x100, 0x1FC, 0x200, 0x2FC, 0x300, 0x31C].all (fun o => writableWidth o == some 8) = true ∧
      writableWidth 0x14 = some 4 ∧ writableWidth 0x18 = some 1 := by decide

/-- R39, R48: `GRID[7][7]` stands at 0x2FC; the byte is the low byte of the word. -/
theorem test_grid_write : leads (step (moving (.write 0x2FC 0x1A5)))
    (fun t => t.grid[(63 : Fin 64)] == 0xA5 && t.tile[(63 : Fin 64)] == 0 && t.readPort 0x2FC == 0xA5) := by decide +kernel

/-- R48: `A1` stands at 0x044 and `R0` at 0x048. -/
theorem test_operand_write : leads (step (moving (.write 0x44 7))) (fun t => t.a1 == 7 && t.a0 == 0 && t.r0 == 0) := by
  decide +kernel
theorem test_result_read : leads (step { moving (.read 0x48) with r0 := 5, a1 := 6 }) (fun t => t.reads == [5]) := by
  decide +kernel

theorem witness_ReadsHaveNoSideEffect :
    (moving (.read 0x4C)).host = .read 0x4C :: [] ∧ 0x4C ≤ (0x4C : Word).toNat ∧ (0xFF : Word).toNat < 0x100 ∧
      0x340 ≤ (0x340 : Word).toNat ∧ (0x3FC : Word).toNat < 0x400 ∧ 0xC00 ≤ (0xC00 : Word).toNat ∧
      (0x6 : Word).toNat % 4 ≠ 0 := by decide

theorem witness_HostByteWriteChangesOneByte :
    let s : State := { moving (.memWrite .pixmem 3 1) with cfg := { Config.largest with pixcap := 4 } }
    s.host = .memWrite .pixmem 3 1 :: [] ∧ s.eng = .idle ∧ (s.memory .pixmem).wf ∧ 3 < s.capacity .pixmem ∧
      s.capacity .pixmem ≤ 4 := ⟨rfl, rfl, Memory.nil_wf, by decide, by decide⟩

theorem witness_HostByteReadGivesByte :
    let s : State := { moving (.memRead .rawmem 3) with cfg := { Config.largest with rawcap := 4 } }
    s.host = .memRead .rawmem 3 :: [] ∧ 3 < s.capacity .rawmem ∧ s.capacity .rawmem ≤ 4 := ⟨rfl, by decide, by decide⟩

theorem witness_ResetInputRestoresRegisters : (moving .reset).host = .reset :: [] := rfl

/-- A running stream that satisfies the invariant, and takes a step. -/
theorem witness_StepKeepsInvariant : encodingEmpty.Inv ∧ ∃ t, step encodingEmpty = .next t := by
  refine ⟨⟨fun sp => ?_, by decide, by decide, by decide, fun _ => ?_, fun _ => by decide, fun h => absurd h (by decide),
    fun h => absurd h (by decide), fun h => absurd h (by decide), by decide, fun e he => absurd he List.not_mem_nil⟩, _, rfl⟩
  · cases sp <;> exact ⟨Memory.nil_wf, fun c hc => absurd hc List.not_mem_nil⟩
  · exact ⟨rfl, rfl, rfl, by decide, by decide⟩

end Sys2Proof.Tests
end

section
/-! PROOF. What every command, engine turn and host move can leave: one inversion lemma each, from which the statements
about all of them follow. -/

namespace Sys2Proof.Machine

open Sys2Proof.Rules

/-! ### Commands (R100, R104, R262) -/

/-- What an accepted command can leave of the state `s` that acceptance left (R24, R100, R262). -/
inductive State.Completes (s : State) : Instr → State → Prop
  /-- A fault of checks 3 to 5 with nothing else written. -/
  | fault (i : Instr) (c : Cause) (info : Nat) : s.Completes i (s.raiseFault c info)
  /-- A result in `R0`. -/
  | result {i : Instr} (hi : ¬isStream i) (v : Word) : s.Completes i (s.setR0 v)
  /-- `FIND` without a matching entry (R223). -/
  | missing : s.Completes .find (s.setNotfound.setR0 0xFFFFFFFF)
  /-- The row of `DECROW` (R152). -/
  | row (r : Fin 8) (f : Fin 8 → Byte) : s.Completes (.decrow r) (s.setRow f)
  /-- The grid of `DECTILE` (R153). -/
  | grid (f : Fin 64 → Byte) : s.Completes .dectile (s.setGrid f)
  /-- The planes of `ENCROW` (R154). -/
  | planes (n : Nat) (f : Fin 8 → Byte) : s.Completes .encrow (s.setPlane n f)
  /-- The tile of `ENCTILE` (R155). -/
  | tile : s.Completes .enctile s.encodeGrid
  /-- The ramp of `DEFPAL` (R214, R220). -/
  | ramp (n bpp : Nat) (f : Fin 256 → Word) : s.Completes .defpal ((s.setPal n f).setPalsize (installedSize bpp))
  /-- The new `PALSIZE` of `PALCOMMIT`, or of `DEFPAL` at an unsupported depth (R220, R221). -/
  | palsize {i : Instr} (hi : i = .defpal ∨ i = .palcommit) (bpp : Nat) :
      s.Completes i (s.setPalsize (installedSize bpp))
  /-- A stream command whose buffer is measured too short or too large (R181 to R183; log 20). -/
  | streamBounds {i : Instr} (hi : isStream i) (kind : OutKind) (info : Nat) :
      s.Completes i ((s.beginStream kind).raiseFault .bounds info)
  /-- A stream command that starts (R181 to R183; log 21). -/
  | started {i : Instr} (hi : isStream i) (kind : OutKind) (ready : ((s.beginStream kind).setEng .run).streamReady) :
      s.Completes i ((s.beginStream kind).setEng .run)
  /-- `TOCHR` on dimensions that are not multiples of 8 (R177, R183). -/
  | invalid (h : ¬(s.width.toNat % 8 = 0 ∧ s.height.toNat % 8 = 0)) :
      s.Completes .tochr ((s.beginStream .tile).setVerr.emit (.validationFailure s.width s.height))
  /-- `PIX2IDX` on a buffer that is too large (R225; log 20). -/
  | pixelBounds (ch : Fin 16) (info : Nat) :
      s.Completes (.pix2idx ch) (({ s with misscnt := 0 } : State).raiseFault .bounds info)
  /-- `PIX2IDX` converts every pixel (R225). -/
  | pixels (ch : Fin 16) (m : Memory) (count len : Word) (misses : List Event) (wf : s.pixmem.wf → m.wf)
      (below : (∀ c ∈ s.pixmem, c.1 < s.capacity .pixmem) → ∀ c ∈ m, c.1 < s.capacity .pixmem)
      (legal : ∀ e ∈ misses, e.legal) :
      s.Completes (.pix2idx ch) { s with pixmem := m, misscnt := count, out := s.out ++ misses, pixlen := len }
  /-- `IDX2COL` converts every pixel (R226). -/
  | colours (m : Memory) (len : Word) (wf : s.colmem.wf → m.wf)
      (below : (∀ c ∈ s.colmem, c.1 < s.capacity .colmem) → ∀ c ∈ m, c.1 < s.capacity .colmem) :
      s.Completes .idx2col { s with colmem := m, collen := len }
  /-- `IDX2COL` meets an index that is not in the palette, the pixels before it converted (R219, R226). -/
  | coloursStopped (m : Memory) (info : Nat) (wf : s.colmem.wf → m.wf)
      (below : (∀ c ∈ s.colmem, c.1 < s.capacity .colmem) → ∀ c ∈ m, c.1 < s.capacity .colmem) :
      s.Completes .idx2col (({ s with colmem := m } : State).raiseFault .palidx info)

/-- A command behind the depth check faults or goes on at a supported depth (R253). -/
theorem State.completes_withDepth {s : State} {i : Instr} {rest : State → State}
    (h : depthSupported s.depth = true → s.Completes i (rest s)) : s.Completes i (s.withDepth rest) := by
  rcases s.withDepth_cases rest with ⟨hd, he⟩ | ⟨_, he⟩
  · rw [he]; exact h hd
  · rw [he]; exact .fault i _ _

theorem State.completes_installDefault (s : State) : s.Completes .defpal s.installDefault := by
  unfold State.installDefault
  split
  · exact .ramp _ _ _
  · exact .palsize (.inl rfl) _

theorem State.completes_startDecode {s : State} {i : Instr} (hi : isStream i) {kind : OutKind}
    (hk : kind = .scan ∨ kind = .cscan) (hd : depthSupported s.depth = true) :
    s.Completes i (s.startDecode kind) := by
  rcases s.startDecode_cases kind with ⟨_, he⟩ | ⟨hlen, he⟩
  · rw [he]; exact .streamBounds hi kind 1
  · rw [he]
    refine .started hi kind ⟨hd, ?_⟩
    rcases hk with rfl | rfl <;> exact hlen

theorem State.completes_startEncode {s : State} (hd : depthSupported s.depth = true) :
    s.Completes .tochr s.startEncode := by
  rcases s.startEncode_cases with ⟨hdim, he⟩ | ⟨⟨hw, hh⟩, ⟨_, he⟩ | ⟨⟨hp, hcap⟩, he⟩⟩
  · rw [he]; exact .invalid hdim
  · rw [he]; exact .streamBounds trivial .tile 2
  · rw [he]; exact .started trivial .tile ⟨hd, hw, hh, hp, hcap⟩

theorem State.pixelMiss_legal (s : State) (ch : Channels) (l : List Nat) :
    ∀ e ∈ l.filterMap (s.pixelMiss ch), e.legal := by
  intro e he
  obtain ⟨k, _, hk⟩ := List.mem_filterMap.1 he
  unfold State.pixelMiss at hk
  split at hk
  · cases hk; trivial
  · cases hk

theorem State.completes_pixelsToIndexed (s : State) (ch : Fin 16) (n : Channels) :
    s.Completes (.pix2idx ch) (s.pixelsToIndexed n) := by
  rcases s.pixelsToIndexed_cases n with he | he | ⟨m, hcap, he, hwf, hmem⟩
  · rw [he]; exact .pixelBounds ch 3
  · rw [he]; exact .pixelBounds ch 2
  · rw [he]
    exact .pixels ch m _ _ _ hwf (fun hs c hc => (hmem c hc).elim (hs c) fun hlt => Nat.lt_of_lt_of_le hlt hcap)
      (s.pixelMiss_legal n _)

theorem State.completes_indexedToColors (s : State) : s.Completes .idx2col s.indexedToColors := by
  rcases s.indexedToColors_cases with he | he | ⟨m, he | ⟨j, _, he⟩, hwf, hmem⟩
  · rw [he]; exact .fault _ _ _
  · rw [he]; exact .fault _ _ _
  · rw [he]; exact .colours m _ hwf hmem
  · rw [he]; exact .coloursStopped m _ hwf hmem

theorem execLookup_completes {s t : State} (h : execLookup s = .next t) : s.accept.Completes .lookup t := by
  simp only [execLookup] at h
  split at h <;> cases h
  · exact .result id _
  · exact .fault _ _ _

theorem execFind_completes {s t : State} (h : execFind s = .next t) : s.accept.Completes .find t := by
  simp only [execFind] at h
  split at h <;> cases h
  · exact .result id _
  · exact .missing

/-- All that a command can do (R100, R252, R262): refuse its operand fields before acceptance, or be accepted and
complete. -/
theorem exec_cases {i : Instr} {s t : State} (h : exec i s = .next t) :
    i.wellFormed = false ∧ t = s.raiseOperand i ∨ i.wellFormed = true ∧ s.accept.Completes i t := by
  cases i with
  | getbit | setbit => cases h; exact .inr ⟨rfl, .result id _⟩
  | getbits idx n | setbits idx n =>
    rw [Instr.wellFormed, ← fieldInByte_eq_fieldInRange]
    simp only [exec, execGetbits, execSetbits] at h
    split at h <;> cases h
    · next hf => exact .inr ⟨hf, .result id _⟩
    · next hf => exact .inl ⟨eq_false_of_ne_true hf, rfl⟩
  | colch ch =>
    rw [Instr.wellFormed, ← channelsOfField_isSome]
    simp only [exec, execColch] at h
    split at h <;> cases h
    · next hf => exact .inr ⟨by rw [hf]; rfl, .result id _⟩
    · next hf => exact .inl ⟨by rw [hf]; rfl, rfl⟩
  | pix2idx ch =>
    rw [Instr.wellFormed, ← channelsOfField_isSome]
    simp only [exec, execPix2idx] at h
    split at h <;> cases h
    · next n hf => exact .inr ⟨by rw [hf]; rfl, s.accept.completes_pixelsToIndexed ch n⟩
    · next hf => exact .inl ⟨by rw [hf]; rfl, rfl⟩
  | decpix | reqh => cases h; exact .inr ⟨rfl, State.completes_withDepth fun _ => .result id _⟩
  | decrow r => cases h; exact .inr ⟨rfl, State.completes_withDepth fun _ => .row r _⟩
  | dectile => cases h; exact .inr ⟨rfl, State.completes_withDepth fun _ => .grid _⟩
  | encrow => cases h; exact .inr ⟨rfl, State.completes_withDepth fun _ => .planes _ _⟩
  | enctile => cases h; exact .inr ⟨rfl, State.completes_withDepth fun _ => .tile⟩
  | toidx => cases h; exact .inr ⟨rfl, State.completes_withDepth (State.completes_startDecode trivial (.inl rfl))⟩
  | torgba => cases h; exact .inr ⟨rfl, State.completes_withDepth (State.completes_startDecode trivial (.inr rfl))⟩
  | tochr => cases h; exact .inr ⟨rfl, State.completes_withDepth State.completes_startEncode⟩
  | defpal => cases h; exact .inr ⟨rfl, s.accept.completes_installDefault⟩
  | palcommit => cases h; exact .inr ⟨rfl, State.completes_withDepth fun _ => .palsize (.inr rfl) _⟩
  | lookup => exact .inr ⟨rfl, execLookup_completes h⟩
  | find => exact .inr ⟨rfl, execFind_completes h⟩
  | idx2col => cases h; exact .inr ⟨rfl, s.accept.completes_indexedToColors⟩

end Sys2Proof.Machine
end

section
/-! PROOF. What every command, engine turn and step keeps of the configuration, the stream registers, the result flags
and the output trace (O42, O43, O8, O46). -/

namespace Sys2Proof.Machine

open Sys2Proof.Rules

/-- A word's number is the word. -/
@[simp] theorem word_toNat_self (w : Word) : word w.toNat = w := by
  simp [word]

/-! ### What every command and every engine turn leaves -/

/-- The registers and memories that only the host writes (R48, R45), and the capacities. -/
def State.configuration (s : State) :
    Word × Word × BitVec 4 × Layout × Word × Word × Word × Word × Memory × Memory × Config :=
  (s.a0, s.a1, s.bpp, s.layout, s.chrlen, s.rawlen, s.width, s.height, s.chrmem, s.rawmem, s.cfg)

theorem State.Completes.configuration {s t : State} {i : Instr} (h : s.Completes i t) :
    t.configuration = s.configuration := by
  cases h <;> rfl

theorem exec_configuration {i : Instr} {s t : State} (h : exec i s = .next t) : t.configuration = s.configuration := by
  rcases exec_cases h with ⟨_, rfl⟩ | ⟨_, hc⟩
  · rfl
  · exact hc.configuration

theorem State.engineTurn_configuration (s : State) : s.engineTurn.configuration = s.configuration := by
  rcases s.engineTurn_cases with
    he | ⟨_, _, he⟩ | ⟨_, _, ⟨_, he⟩ | ⟨_, he⟩ | ⟨_, ⟨_, _, he⟩ | ⟨_, he⟩⟩⟩ <;> rw [he] <;> rfl

/-- Settles O42, from what each command and the engine's turn leave of the configuration. -/
theorem engineNeverWritesConfiguration : Obligations.EngineNeverWritesConfiguration := by
  unfold Obligations.EngineNeverWritesConfiguration
  intro s t h
  have hconf : t.configuration = s.configuration := by
    rcases h with rfl | ⟨i, hi⟩
    · exact s.engineTurn_configuration
    · exact exec_configuration hi
  simpa only [State.configuration, Prod.mk.injEq] using hconf

theorem State.Completes.stream_eq {s t : State} {i : Instr} (h : s.Completes i t) (hi : ¬isStream i) :
    t.outcnt = s.outcnt ∧ t.outkind = s.outkind ∧ (t.eng = s.eng ∨ t.eng = .fault) := by
  cases h with
  | streamBounds hs | started hs => exact absurd hs hi
  | invalid => exact absurd trivial hi
  | fault | pixelBounds | coloursStopped => exact ⟨rfl, rfl, .inr rfl⟩
  | _ => exact ⟨rfl, rfl, .inl rfl⟩

/-- Settles O43: only a stream command completes by starting a stream. -/
theorem scalarCommandsNeverStream : Obligations.ScalarCommandsNeverStream := by
  unfold Obligations.ScalarCommandsNeverStream
  intro i s t hi h
  rcases exec_cases h with ⟨_, rfl⟩ | ⟨_, hc⟩
  · exact ⟨rfl, rfl, .inr rfl⟩
  · exact hc.stream_eq hi

theorem State.Completes.flags {s t : State} {i : Instr} (h : s.Completes i t) :
    (t.verr = s.verr ∨ i = .tochr) ∧ (t.notfound = s.notfound ∨ i = .find) := by
  cases h with
  | missing => exact ⟨.inl rfl, .inr rfl⟩
  | invalid => exact ⟨.inr rfl, .inl rfl⟩
  | _ => exact ⟨.inl rfl, .inl rfl⟩

/-- Settles O8: acceptance clears both flags, and of an accepted command only `TOCHR` and `FIND` write one. -/
theorem acceptanceClearsResultFlags : Obligations.AcceptanceClearsResultFlags := by
  unfold Obligations.AcceptanceClearsResultFlags
  intro i s t h
  rcases exec_cases h with ⟨hw, rfl⟩ | ⟨hw, hc⟩
  · refine ⟨fun hw' => absurd hw' (ne_true_of_eq_false hw), fun _ => ⟨rfl, rfl, rfl, ?_⟩⟩
    exact word_toNat_self _
  · refine ⟨fun _ => ?_, fun hw' => absurd (hw'.symm.trans hw) Bool.false_ne_true⟩
    obtain ⟨hv, hn⟩ := hc.flags
    exact ⟨fun ht => hv.resolve_left fun he => absurd ht (ne_true_of_eq_false he),
      fun ht => hn.resolve_left fun he => absurd ht (ne_true_of_eq_false he)⟩

/-! ### Steps (R5, R6, R262) -/

/-- What a step other than a reset can leave of the state `s` whose next move is taken off. -/
inductive State.Steps (s : State) : State → Prop
  /-- The engine's turn (R185). -/
  | engine : s.Steps s.engineTurn
  /-- A host read (R49). -/
  | read (w : Word) : s.Steps (s.record w)
  /-- A write that has no effect (R36, R50, R258). -/
  | ignored : s.Steps s
  /-- A command issued on an idle engine (R100). -/
  | command (hi : s.eng = .idle) {i : Instr} {t : State} (h : exec i s = .next t) : s.Steps t
  /-- `F_ILLCMD` or `F_BUSY` (R105, R257). -/
  | fault (c : Cause) (info : Nat) : s.Steps (s.raiseFault c info)
  /-- A port write on an idle engine (R50). -/
  | store (hi : s.eng = .idle) (w : Word) (e : PortEntry) : s.Steps (s.storeEntry w e)
  /-- An acknowledge (R36). -/
  | acknowledge : s.Steps s.acknowledge
  /-- A host byte write (R45). -/
  | byteWrite (hi : s.eng = .idle) {space : Space} {offset : Nat} (h : offset < s.capacity space) (v : Byte) :
      s.Steps (s.writeByte space offset v)

theorem writeIdle_steps {offset w : Word} {s t : State} (hi : s.eng = .idle) (h : writeIdle offset w s = .next t) :
    s.Steps t := by
  unfold writeIdle at h
  split at h
  · unfold issue at h
    split at h
    · exact .command hi h
    · cases h; exact .fault _ _
  · cases h; exact .store hi _ _
  · cases h; exact .ignored

theorem writeBusy_steps {offset : Word} {s t : State} (h : writeBusy offset s = .next t) : s.Steps t := by
  unfold writeBusy at h
  split at h <;> cases h
  · exact .acknowledge
  · exact .fault _ _

theorem writePort_steps {offset w : Word} {s t : State} (h : writePort offset w s = .next t) : s.Steps t := by
  unfold writePort at h
  split at h
  · next hi => exact writeIdle_steps hi h
  · exact writeBusy_steps h
  · exact writeBusy_steps h
  · cases h; exact .ignored

theorem hostWriteByte_steps {space : Space} {offset : Nat} {v : Byte} {s t : State}
    (h : hostWriteByte space offset v s = .next t) : s.Steps t := by
  unfold hostWriteByte at h
  split at h
  · cases h
  · next hi =>
    split at h <;> cases h
    next hlt => exact .byteWrite (Decidable.not_not.1 hi) hlt v

theorem hostReadByte_steps {space : Space} {offset : Nat} {s t : State} (h : hostReadByte space offset s = .next t) :
    s.Steps t := by
  unfold hostReadByte at h
  split at h <;> cases h
  exact .read _

theorem takeMove_steps {m : HostMove} {s t : State} (hm : m ≠ .reset) (h : takeMove m s = .next t) : s.Steps t := by
  cases m with
  | write => exact writePort_steps h
  | read => cases h; exact .read _
  | memWrite => exact hostWriteByte_steps h
  | memRead => exact hostReadByte_steps h
  | reset => exact absurd rfl hm
  | engine => cases h; exact .engine

/-- All that a step can do (R262): a reset input, or one of State.Steps. -/
theorem step_cases {s t : State} (h : step s = .next t) :
    (∃ rest, s.host = .reset :: rest ∧ t = ({ s with host := rest } : State).resetInput) ∨
    ∃ rest, ({ s with host := rest } : State).Steps t := by
  cases hh : s.host with
  | nil =>
    rw [step_of_noMove hh] at h
    cases h
    exact .inr ⟨s.host, .engine⟩
  | cons m rest =>
    rw [step_of_move hh] at h
    by_cases hm : m = .reset
    · subst hm; cases h; exact .inl ⟨rest, rfl, rfl⟩
    · exact .inr ⟨rest, takeMove_steps hm h⟩

/-! ### The output trace (R46) -/

theorem State.Completes.out_prefix {s t : State} {i : Instr} (h : s.Completes i t) : s.out <+: t.out := by
  cases h with
  | invalid | pixels => exact List.prefix_append _ _
  | _ => exact List.prefix_refl _

theorem exec_out_prefix {i : Instr} {s t : State} (h : exec i s = .next t) : s.out <+: t.out := by
  rcases exec_cases h with ⟨_, rfl⟩ | ⟨_, hc⟩
  · exact List.prefix_refl _
  · exact hc.out_prefix

theorem State.engineTurn_out_prefix (s : State) : s.out <+: s.engineTurn.out := by
  rcases s.engineTurn_cases with
    he | ⟨_, _, he⟩ | ⟨_, _, ⟨_, he⟩ | ⟨_, he⟩ | ⟨_, ⟨_, _, he⟩ | ⟨_, he⟩⟩⟩ <;> rw [he]
  case inr.inr.inl | inr.inr.inr.inl | inr.inr.inr.inr.inr => exact List.prefix_append _ _
  all_goals exact List.prefix_refl _

@[simp] theorem State.storeEntry_out (s : State) (w : Word) (e : PortEntry) : (s.storeEntry w e).out = s.out := by
  cases e <;> rfl

@[simp] theorem State.acknowledge_out (s : State) : s.acknowledge.out = s.out := by
  unfold State.acknowledge
  split <;> rfl

theorem State.Steps.out_prefix {s t : State} (h : s.Steps t) : s.out <+: t.out := by
  cases h with
  | engine => exact s.engineTurn_out_prefix
  | command _ h => exact exec_out_prefix h
  | store | acknowledge | byteWrite => simp
  | read | ignored | fault => exact List.prefix_refl _

/-- Settles O46: no step but a reset takes an event of `OUT` away. -/
theorem outIsAppendOnly : Obligations.OutIsAppendOnly := by
  unfold Obligations.OutIsAppendOnly
  intro s t hr h
  rcases step_cases h with ⟨rest, hh, _⟩ | ⟨rest, hs⟩
  · exact absurd (congrArg List.head? hh) hr
  · exact hs.out_prefix

end Sys2Proof.Machine
end

section
/-! PROOF. The invariant (O56, O57): first update by update, then command by command and move by move. -/

namespace Sys2Proof.Machine

open Sys2Proof.Rules

/-! ### Facts the invariant needs -/

/-- A running stream has fewer units than `OUTCNT` can count (R181, R183). -/
theorem State.unitTotal_lt {s : State} (h : s.streamReady) : s.unitTotal < 2 ^ 32 := by
  obtain ⟨hd, hk⟩ := h
  have hscan : scanlineCount s.chrlen.toNat s.depth < 2 ^ 32 := by
    have hlen := s.chrlen.isLt
    rcases (depthSupported_iff _).1 hd with hd | hd | hd | hd <;>
      (simp only [scanlineCount, ceilDiv, rowBytes, hd]; omega)
  unfold State.unitTotal
  cases ho : s.outkind <;> simp only [ho] at hk ⊢
  case scan => exact hscan
  case cscan => exact hscan
  case tile =>
    obtain ⟨_, _, hp, _⟩ := hk
    calc tileCount s.width.toNat s.height.toNat
        ≤ s.width.toNat * s.height.toNat := Nat.mul_le_mul (Nat.div_le_self _ _) (Nat.div_le_self _ _)
      _ ≤ s.pixlen.toNat := hp
      _ < 2 ^ 32 := s.pixlen.isLt

/-- The sizes `DEFPAL` and `PALCOMMIT` install (R213, R214). -/
theorem installedSize_legal (bpp : Nat) : (installedSize bpp).val ∈ [0, 4, 8, 16, 256] := by
  cases h : depthSupported bpp
  · rw [installedSize_of_unsupported h]; decide
  · rw [installedSize_of_supported h]
    rcases (depthSupported_iff _).1 h with rfl | rfl | rfl | rfl <;> decide

/-- The codes of R251 are 1 to 6. -/
theorem Cause.code_range (c : Cause) : c.code ≠ 0 ∧ c.code.toNat ≤ 6 := by
  cases c <;> decide

theorem tileBytes_le {bpp : Nat} (h : depthSupported bpp = true) : tileBytes bpp ≤ 64 := by
  rcases (depthSupported_iff _).1 h with rfl | rfl | rfl | rfl <;> decide

/-- The bytes a tile event carries are those of one tile (R11). -/
theorem tileEvent_legal {bpp : Nat} (h : depthSupported bpp = true) (t : Vector Byte 64) :
    (Event.tileBytes (t.toList.take (tileBytes bpp))).legal := by
  refine ⟨bpp, h, ?_⟩
  rw [List.length_take, Vector.length_toList, Nat.min_eq_left (tileBytes_le h), tileBytes]

/-- The colours of a scanline are 128 (R43). -/
theorem rgbaEvent_legal (v : Vector Word 128) : (Event.rgbaScanline (v.toList.map Color.unpack)).legal :=
  (List.length_map _).trans Vector.length_toList

theorem State.busy_of_run {s : State} (h : s.eng = .run) : s.busy = true := by
  simp [State.busy, h]

theorem State.busy_of_wait {s : State} (h : s.eng = .wait) : s.busy = true := by
  simp [State.busy, h]

theorem State.not_busy_of_idle {s : State} (h : s.eng = .idle) : ¬s.busy = true := by
  simp [State.busy, h]

theorem State.not_outv_of_idle {s : State} (h : s.eng = .idle) : ¬s.outv = true := by
  simp [State.outv, h]

/-- A byte write below the capacity keeps every memory canonical and inside its capacity (R45). -/
theorem State.memorySafe_writeByte {s : State} (h : ∀ sp, s.memorySafe sp) {space : Space} {k : Nat}
    (hk : k < s.capacity space) (v : Byte) (sp : Space) : (s.writeByte space k v).memorySafe sp := by
  by_cases hsp : sp = space
  · subst hsp
    obtain ⟨hwf, hb⟩ := h sp
    rw [State.memorySafe, State.writeByte_memory_same, State.writeByte_capacity]
    exact ⟨Memory.write_wf hwf k v, Memory.write_below hb hk v⟩
  · rw [State.memorySafe, State.writeByte_memory_other _ hsp, State.writeByte_capacity]
    exact h sp

/-! ### What keeps the invariant, update by update -/

namespace State.Inv

variable {s : State}

theorem setRow (h : s.Inv) (f : Fin 8 → Byte) : (s.setRow f).Inv := { h with }

theorem setGrid (h : s.Inv) (f : Fin 64 → Byte) : (s.setGrid f).Inv := { h with }

theorem setPlane (h : s.Inv) (n : Nat) (f : Fin 8 → Byte) : (s.setPlane n f).Inv := { h with }

theorem setTile (h : s.Inv) (n : Nat) (f : Fin 64 → Byte) : (s.setTile n f).Inv := { h with }

theorem setScan (h : s.Inv) (f : Fin 128 → Byte) : (s.setScan f).Inv := { h with }

theorem setCscan (h : s.Inv) (n : Nat) (f : Fin 128 → Word) : (s.setCscan n f).Inv := { h with }

theorem setPal (h : s.Inv) (n : Nat) (f : Fin 256 → Word) : (s.setPal n f).Inv := { h with }

theorem setHost (h : s.Inv) (rest : List HostMove) : ({ s with host := rest } : State).Inv := { h with }

theorem record (h : s.Inv) (w : Word) : (s.record w).Inv := { h with }

theorem setMisscnt (h : s.Inv) (n : Word) : ({ s with misscnt := n } : State).Inv := { h with }

theorem setPalsize (h : s.Inv) (bpp : Nat) : (s.setPalsize (installedSize bpp)).Inv :=
  { h with palsize := installedSize_legal bpp }

theorem accept (h : s.Inv) : s.accept.Inv :=
  { h with verr := fun hv => absurd hv Bool.false_ne_true, notfound := fun hn => absurd hn Bool.false_ne_true,
           flags := fun hf => absurd hf.1 Bool.false_ne_true }

/-- A fault ends whatever ran, and leaves the flags and `R0` (R255). -/
theorem raiseFault (h : s.Inv) (c : Cause) (info : Nat) : (s.raiseFault c info).Inv :=
  { h with
    cause := ⟨fun _ => rfl, fun _ => c.code_range.1⟩
    causeCode := c.code_range.2
    stream := fun hb => absurd hb Bool.false_ne_true
    count := fun hb => absurd hb Bool.false_ne_true
    pending := fun hb => absurd hb Bool.false_ne_true
    verr := fun hv => ⟨(h.verr hv).1, (h.verr hv).2.1, rfl⟩
    notfound := fun hn => ⟨(h.notfound hn).1, rfl⟩ }

/-- An event the engine can emit joins `OUT` (R46). -/
theorem appendOut (h : s.Inv) {es : List Event} (hes : ∀ e ∈ es, e.legal) :
    ({ s with out := s.out ++ es } : State).Inv :=
  { h with events := fun e he => (List.mem_append.1 he).elim (h.events e) (hes e) }

theorem emit (h : s.Inv) {e : Event} (he : e.legal) : (s.emit e).Inv :=
  h.appendOut fun _ hm => List.mem_singleton.1 hm ▸ he

/-- `R0` is free once `NOTFOUND` is clear (R24). -/
theorem setR0 (h : s.Inv) (hn : s.notfound = false) (v : Word) : (s.setR0 v).Inv :=
  { h with notfound := fun hn' => absurd hn' (ne_true_of_eq_false hn) }

/-- `FIND` on an idle engine without a matching entry (R223). -/
theorem setMissing (h : s.Inv) (hi : s.eng = .idle) (hv : s.verr = false) :
    (s.setNotfound.setR0 0xFFFFFFFF).Inv :=
  { h with notfound := fun _ => ⟨rfl, eq_false_of_ne_true (State.not_busy_of_idle hi)⟩,
           flags := fun hf => absurd hf.1 (ne_true_of_eq_false hv) }

theorem setPixmem (h : s.Inv) {m : Memory} (hwf : m.wf) (hb : ∀ c ∈ m, c.1 < s.capacity .pixmem) :
    ({ s with pixmem := m } : State).Inv :=
  { h with memories := fun sp => match sp with
      | .pixmem => ⟨hwf, hb⟩
      | .chrmem => h.memories .chrmem
      | .rawmem => h.memories .rawmem
      | .colmem => h.memories .colmem }

theorem setColmem (h : s.Inv) {m : Memory} (hwf : m.wf) (hb : ∀ c ∈ m, c.1 < s.capacity .colmem) :
    ({ s with colmem := m } : State).Inv :=
  { h with memories := fun sp => match sp with
      | .colmem => ⟨hwf, hb⟩
      | .chrmem => h.memories .chrmem
      | .pixmem => h.memories .pixmem
      | .rawmem => h.memories .rawmem }

theorem writeByte (h : s.Inv) {space : Space} {k : Nat} (hk : k < s.capacity space) (v : Byte) :
    (s.writeByte space k v).Inv := by
  have hm := State.memorySafe_writeByte h.memories hk v
  cases space <;> exact { h with memories := hm }

/-- `PIXLEN` is free while nothing runs (R30, R47). -/
theorem setPixlen (h : s.Inv) (hi : s.eng = .idle) (n : Word) : ({ s with pixlen := n } : State).Inv :=
  { h with stream := fun hb => absurd hb (State.not_busy_of_idle hi) }

theorem setCollen (h : s.Inv) (n : Word) : ({ s with collen := n } : State).Inv := { h with }

/-- While nothing runs, the registers of a stream are free once `VERR` is clear (R181 to R183). -/
theorem beginStream (h : s.Inv) (hi : s.eng = .idle) (hv : s.verr = false) (kind : OutKind) :
    (s.beginStream kind).Inv :=
  { h with
    stream := fun hb => absurd hb (State.not_busy_of_idle hi)
    count := fun hb => absurd hb (State.not_busy_of_idle hi)
    pending := fun ho => absurd ho (State.not_outv_of_idle hi)
    verr := fun hv' => absurd hv' (ne_true_of_eq_false hv) }

/-- `TOCHR` on an idle engine finds its dimensions invalid (R177, R183). -/
theorem setVerr (h : s.Inv) (hi : s.eng = .idle) (hn : s.notfound = false) (hkind : s.outkind = .tile)
    (hcount : s.outcnt = 0) : s.setVerr.Inv :=
  { h with verr := fun _ => ⟨hkind, hcount, eq_false_of_ne_true (State.not_busy_of_idle hi)⟩,
           flags := fun hf => absurd hf.2 (ne_true_of_eq_false hn) }

/-- Outside `FAULT` no cause is recorded (R34, R258). -/
theorem cause_of_unfaulted (h : s.Inv) (hs : s.eng ≠ .fault) {e : Eng} (he : e ≠ .fault) :
    s.cause ≠ 0 ↔ e = .fault :=
  ⟨fun hc => absurd (h.cause.1 hc) hs, fun hf => absurd hf he⟩

/-- A stream starts with its checks passed and no unit counted (R181 to R183). -/
theorem startStream (h : s.Inv) (hi : s.eng = .idle) (hv : s.verr = false) (hn : s.notfound = false) {kind : OutKind}
    (ready : ((s.beginStream kind).setEng .run).streamReady) : ((s.beginStream kind).setEng .run).Inv :=
  { h with
    cause := h.cause_of_unfaulted (by simp [hi]) (e := .run) (by decide)
    stream := fun _ => ready
    count := fun _ => Nat.zero_le _
    pending := fun ho => absurd ho Bool.false_ne_true
    verr := fun hv' => absurd hv' (ne_true_of_eq_false hv)
    notfound := fun hn' => absurd hn' (ne_true_of_eq_false hn) }

/-- While a stream command is in progress both result flags are clear (R24). -/
theorem flags_of_busy (h : s.Inv) (hb : s.busy = true) : s.verr = false ∧ s.notfound = false :=
  ⟨eq_false_of_ne_true fun hv => Bool.noConfusion (hb.symm.trans (h.verr hv).2.2),
    eq_false_of_ne_true fun hn => Bool.noConfusion (hb.symm.trans (h.notfound hn).2)⟩

/-- A unit is counted and then waits (R185): `OUTCNT` does not wrap, since the units of a stream are fewer. -/
theorem countUnit (h : s.Inv) (hr : s.eng = .run) (hlt : s.outcnt.toNat < s.unitTotal) :
    ({ s with outcnt := s.outcnt + 1, eng := .wait } : State).Inv :=
  have hb := State.busy_of_run hr
  have hcount : (s.outcnt + 1).toNat = s.outcnt.toNat + 1 := by
    have := State.unitTotal_lt (h.stream hb)
    rw [BitVec.toNat_add]
    exact Nat.mod_eq_of_lt (by show s.outcnt.toNat + 1 < 2 ^ 32; omega)
  { h with
    cause := h.cause_of_unfaulted (by simp [hr]) (e := .wait) (by decide)
    stream := fun _ => h.stream hb
    count := fun _ => Nat.le_trans (Nat.le_of_eq hcount) hlt
    pending := fun _ => Nat.lt_of_lt_of_eq (Nat.succ_pos _) hcount.symm
    verr := fun hv => absurd hv (ne_true_of_eq_false (h.flags_of_busy hb).1)
    notfound := fun hn => absurd hn (ne_true_of_eq_false (h.flags_of_busy hb).2) }

/-- A stream completes (R185). -/
theorem complete (h : s.Inv) (hr : s.eng = .run) : (s.setEng .idle).Inv :=
  { h with
    cause := h.cause_of_unfaulted (by simp [hr]) (e := .idle) (by decide)
    stream := fun hb => absurd hb Bool.false_ne_true
    count := fun hb => absurd hb Bool.false_ne_true
    pending := fun ho => absurd ho Bool.false_ne_true
    verr := fun hv => ⟨(h.verr hv).1, (h.verr hv).2.1, rfl⟩
    notfound := fun hn => ⟨(h.notfound hn).1, rfl⟩ }

/-- An acknowledged stream goes on (R36, R186). -/
theorem acknowledge (h : s.Inv) : s.acknowledge.Inv := by
  unfold State.acknowledge
  split
  · next hw =>
    have hb := State.busy_of_wait hw
    exact { h with
      cause := h.cause_of_unfaulted (by simp [hw]) (e := .run) (by decide)
      stream := fun _ => h.stream hb
      count := fun _ => h.count hb
      pending := fun ho => absurd ho Bool.false_ne_true
      verr := fun hv => absurd hv (ne_true_of_eq_false (h.flags_of_busy hb).1)
      notfound := fun hn => absurd hn (ne_true_of_eq_false (h.flags_of_busy hb).2) }
  all_goals exact h

/-- A port write on an idle engine (R47, R50): no field it reaches is read by the invariant while nothing runs. -/
theorem storeEntry (h : s.Inv) (hi : s.eng = .idle) (w : Word) (e : PortEntry) : (s.storeEntry w e).Inv := by
  have hb := State.not_busy_of_idle hi
  cases e <;> exact { h with stream := fun hb' => absurd hb' hb, count := fun hb' => absurd hb' hb }

/-- The state after reset satisfies the invariant (R51): the memories list nothing and no flag is set. -/
theorem reset : State.reset.Inv where
  memories := fun sp => by cases sp <;> exact ⟨Memory.nil_wf, fun _ hc => absurd hc List.not_mem_nil⟩
  palsize := by decide
  cause := by decide
  causeCode := by decide
  stream := fun hb => absurd hb Bool.false_ne_true
  count := fun hb => absurd hb Bool.false_ne_true
  pending := fun ho => absurd ho Bool.false_ne_true
  verr := fun hv => absurd hv Bool.false_ne_true
  notfound := fun hn => absurd hn Bool.false_ne_true
  flags := fun hf => absurd hf.1 Bool.false_ne_true
  events := fun _ he => absurd he List.not_mem_nil

/-- A reset input gives every register its reset value and leaves the memories (R280). -/
theorem resetInput (h : s.Inv) : s.resetInput.Inv := { reset with memories := h.memories }

end State.Inv

/-! ### What keeps the invariant, command by command and move by move -/

theorem State.Completes.inv {s t : State} {i : Instr} (h : s.Completes i t) (hs : s.Inv) (hi : s.eng = .idle)
    (hv : s.verr = false) (hn : s.notfound = false) : t.Inv := by
  cases h with
  | fault => exact hs.raiseFault _ _
  | result => exact hs.setR0 hn _
  | missing => exact hs.setMissing hi hv
  | row => exact hs.setRow _
  | grid => exact hs.setGrid _
  | planes => exact hs.setPlane _ _
  | tile => exact hs.setTile _ _
  | ramp => exact (hs.setPal _ _).setPalsize _
  | palsize => exact hs.setPalsize _
  | streamBounds => exact (hs.beginStream hi hv _).raiseFault _ _
  | started _ _ ready => exact hs.startStream hi hv hn ready
  | invalid hdim => exact ((hs.beginStream hi hv .tile).setVerr hi hn rfl rfl).emit hdim
  | pixelBounds => exact (hs.setMisscnt 0).raiseFault _ _
  | pixels _ m count len misses wf below legal =>
    obtain ⟨hwf, hb⟩ := hs.memories .pixmem
    exact (((hs.setPixmem (wf hwf) (below hb)).setMisscnt count).appendOut legal).setPixlen hi len
  | colours m len wf below =>
    obtain ⟨hwf, hb⟩ := hs.memories .colmem
    exact (hs.setColmem (wf hwf) (below hb)).setCollen len
  | coloursStopped m info wf below =>
    obtain ⟨hwf, hb⟩ := hs.memories .colmem
    exact (hs.setColmem (wf hwf) (below hb)).raiseFault _ _

theorem exec_inv {i : Instr} {s t : State} (hs : s.Inv) (hi : s.eng = .idle) (h : exec i s = .next t) : t.Inv := by
  rcases exec_cases h with ⟨_, rfl⟩ | ⟨_, hc⟩
  · exact hs.raiseFault _ _
  · exact hc.inv hs.accept hi rfl rfl

/-- The engine's turn keeps the invariant: a unit writes buffers, emits a legal event and is counted, or faults. -/
theorem State.Inv.engineTurn {s : State} (h : s.Inv) : s.engineTurn.Inv := by
  rcases s.engineTurn_cases with he | ⟨hr, _, he⟩ | ⟨hr, hlt, ⟨_, he⟩ | ⟨_, he⟩ | ⟨_, ⟨x, _, he⟩ | ⟨_, he⟩⟩⟩
  · rw [he]; exact h
  · rw [he]; exact h.complete hr
  · rw [he]
    have hunit : s.unitIdx.Inv := (h.setScan _).emit Vector.length_toList
    exact hunit.countUnit hr hlt
  · rw [he]
    obtain ⟨hd, _⟩ := h.stream (State.busy_of_run hr)
    have hunit : s.unitChr.Inv := ((h.setGrid _).setTile _ _).emit (tileEvent_legal hd _)
    exact hunit.countUnit hr hlt
  · rw [he]; exact ((h.setScan _).setCscan _ _).raiseFault _ _
  · rw [he]
    have hcscan : (s.buildScanline.colourScanline 128).Inv := (h.setScan _).setCscan _ _
    exact (hcscan.emit (rgbaEvent_legal _)).countUnit hr hlt

theorem State.Steps.inv {s t : State} (h : s.Steps t) (hs : s.Inv) : t.Inv := by
  cases h with
  | engine => exact hs.engineTurn
  | read w => exact hs.record w
  | ignored => exact hs
  | command hi h => exact exec_inv hs hi h
  | fault c info => exact hs.raiseFault c info
  | store hi w e => exact hs.storeEntry hi w e
  | acknowledge => exact hs.acknowledge
  | byteWrite _ hk v => exact hs.writeByte hk v

/-- Settles O57: a reset and every other move keep the invariant. -/
theorem stepKeepsInvariant : Obligations.StepKeepsInvariant := by
  unfold Obligations.StepKeepsInvariant
  intro s t hs h
  rcases step_cases h with ⟨rest, _, rfl⟩ | ⟨rest, hst⟩
  · exact (hs.setHost rest).resetInput
  · exact hst.inv (hs.setHost rest)

/-- Settles O56: the invariant's own lemma about the reset state. -/
theorem resetSatisfiesInvariant : Obligations.ResetSatisfiesInvariant := by
  unfold Obligations.ResetSatisfiesInvariant
  exact State.Inv.reset

end Sys2Proof.Machine
end

section
/-! PROOF. The register port (R48 to R50), `STATUS` (R24), and the host's byte accesses (R45). -/

namespace Sys2Proof.Machine

open Sys2Proof.Rules

/-! ### Issue and byte accesses -/

/-- Settles O4: offset 0 is `CMD`'s, and the word's decoding is what is issued. -/
theorem cmdWriteRunsDecodedCommand : Obligations.CmdWriteRunsDecodedCommand := by
  unfold Obligations.CmdWriteRunsDecodedCommand
  intro s w i rest hh hi hd
  have hcmd : portEntry 0 = some .cmd := portEntry_of_offset rfl
  rw [step_of_write_idle hh hi, writeIdle, hcmd]
  simp only [issue, hd]

/-- A byte write changes what its own offset of its own space reads as, and no other (R45). -/
theorem State.read_writeByte {s : State} {space : Space} (h : (s.memory space).wf) (offset : Nat) (v : Byte)
    (sp : Space) (a : Nat) :
    ((s.writeByte space offset v).memory sp).read a =
      if sp = space ∧ a = offset then v else (s.memory sp).read a := by
  by_cases hsp : sp = space
  · subst hsp
    rw [State.writeByte_memory_same, Memory.read_write h]
    simp only [true_and]
  · rw [State.writeByte_memory_other _ hsp, if_neg fun hc => hsp hc.1]

/-- A byte write leaves everything but the memories. -/
theorem State.writeByte_frame (s : State) (space : Space) (offset : Nat) (v : Byte) :
    { s.writeByte space offset v with
      chrmem := s.chrmem, pixmem := s.pixmem, rawmem := s.rawmem, colmem := s.colmem } = s := by
  cases space <;> rfl

/-- Settles O52, by the law of a read after a write. -/
theorem hostByteWriteChangesOneByte : Obligations.HostByteWriteChangesOneByte := by
  unfold Obligations.HostByteWriteChangesOneByte
  intro s space offset v rest hh hi hwf
  have hstep : step s = hostWriteByte space offset v { s with host := rest } := step_of_move hh
  rw [hstep, hostWriteByte, if_neg (not_not_intro hi)]
  refine ⟨fun hlt => ⟨_, if_pos hlt, State.read_writeByte (s := { s with host := rest }) hwf offset v, ?_⟩,
    fun hle => if_neg (Nat.not_lt.2 hle)⟩
  exact State.writeByte_frame { s with host := rest } space offset v

@[simp] theorem zextByte_toNat (b : Byte) : (zextByte b).toNat = b.toNat :=
  word_toNat (Nat.lt_trans b.isLt (by decide))

/-- Settles O53: the value read is the byte, zero-extended. -/
theorem hostByteReadGivesByte : Obligations.HostByteReadGivesByte := by
  unfold Obligations.HostByteReadGivesByte
  intro s space offset rest hh
  have hstep : step s = hostReadByte space offset { s with host := rest } := step_of_move hh
  rw [hstep, hostReadByte]
  exact ⟨fun hlt => ⟨_, if_pos hlt, zextByte_toNat _⟩, fun hle => if_neg (Nat.not_lt.2 hle)⟩

/-- Settles O55: every row is a value of State.reset. -/
theorem resetStateHasSpecifiedValues : Obligations.ResetStateHasSpecifiedValues := by
  unfold Obligations.ResetStateHasSpecifiedValues
  decide

/-! ### Writes while a stream command is in progress (R36, R257) -/

theorem portEntry_ack {offset : Word} : portEntry offset = some .ack ↔ offset = 8 := by
  rw [portEntry_eq_some, ← BitVec.toNat_inj]
  rfl

theorem writeBusy_ack (s : State) : writeBusy 8 s = .next s.acknowledge := by
  rw [writeBusy, portEntry_ack.2 rfl]

theorem writeBusy_other {offset : Word} (h : offset ≠ 8) (s : State) :
    writeBusy offset s = .next (s.raiseFault .busy offset.toNat) := by
  unfold writeBusy
  split
  · next he => exact absurd (portEntry_ack.1 he) h
  · rfl

theorem writeIdle_ack (w : Word) (s : State) : writeIdle 8 w s = .next s := by
  rw [writeIdle, portEntry_ack.2 rfl]
  rfl

/-- Settles O48, by the engine state and whether the offset is `ACK`'s. -/
theorem busyWritesFaultAndAckReleases : Obligations.BusyWritesFaultAndAckReleases := by
  unfold Obligations.BusyWritesFaultAndAckReleases
  intro s offset w rest hh
  have hstep : step s = writePort offset w { s with host := rest } := step_of_move hh
  rw [hstep]
  refine ⟨fun hb hne => ?_, ?_, ?_⟩
  · have hbusy : writePort offset w { s with host := rest } = writeBusy offset { s with host := rest } := by
      rcases hb with hb | hb <;> simp only [writePort, hb]
    rw [hbusy, writeBusy_other hne]
    simp only [State.raiseFault, word_toNat_self, Cause.code]
  · rintro rfl hw
    simp only [writePort, hw, writeBusy_ack, State.acknowledge]
    rfl
  · rintro rfl hw
    cases he : s.eng with
    | idle => simp only [writePort, writeIdle_ack]
    | run => simp only [writePort, writeBusy_ack, State.acknowledge]
    | wait => exact absurd he hw
    | fault => simp only [writePort]

/-! ### The bits of `STATUS` (R24) -/

/-- Bit `k` of `STATUS` (R24). -/
def State.statusBit (s : State) : Nat → Bool
  | 0 => s.busy
  | 1 => s.faulted
  | 2 => s.outv
  | 3 => s.verr
  | 4 => s.notfound
  | 5 => s.outkind.code.testBit 0
  | 6 => s.outkind.code.testBit 1
  | _ => false

theorem OutKind.code_bits (k : OutKind) : k.code = (k.code.testBit 0).toNat + (k.code.testBit 1).toNat <<< 1 := by
  cases k <;> decide

theorem State.statusWord_toNat (s : State) :
    s.statusWord.toNat = sumBelow 7 fun k => (s.statusBit k).toNat <<< k := by
  have hlt := sumBelow_bits_lt s.statusBit 7
  have hsum : s.busy.toNat + s.faulted.toNat <<< 1 + s.outv.toNat <<< 2 + s.verr.toNat <<< 3 + s.notfound.toNat <<< 4
      + s.outkind.code <<< 5 = sumBelow 7 fun k => (s.statusBit k).toNat <<< k := by
    conv => lhs; rw [s.outkind.code_bits]
    simp only [sumBelow, State.statusBit, Nat.shiftLeft_eq]
    omega
  rw [State.statusWord, hsum]
  exact word_toNat (Nat.lt_trans hlt (by decide))

theorem State.statusWord_bit (s : State) {k : Nat} (hk : k < 7) : s.statusWord.getLsbD k = s.statusBit k := by
  rw [BitVec.getLsbD, State.statusWord_toNat, sumBelow_bits_testBit]
  simp [hk]

theorem State.busy_eq (s : State) : s.busy = decide (s.eng = .run ∨ s.eng = .wait) := by
  rw [Bool.decide_or]
  rfl

/-- Bits 6:5 of `STATUS` are the number of `OUTKIND` (R24): the five flags below them are less than `2^5`. -/
theorem State.statusWord_outkind (s : State) : (s.statusWord.extractLsb' 5 2).toNat = s.outkind.code := by
  have hlow := sumBelow_bits_lt s.statusBit 5
  have hlt : s.outkind.code < 2 ^ 2 := by cases s.outkind <;> decide
  have hsplit : s.statusWord.toNat = sumBelow 5 (fun k => (s.statusBit k).toNat <<< k) + s.outkind.code * 2 ^ 5 := by
    rw [s.statusWord_toNat]
    conv => rhs; rw [s.outkind.code_bits]
    simp only [sumBelow, State.statusBit, Nat.shiftLeft_eq]
    omega
  rw [BitVec.extractLsb'_toNat, hsplit, Nat.shiftRight_eq_div_pow]
  omega

theorem State.statusWord_isStatus (s : State) : isStatus s s.statusWord := by
  refine ⟨?_, s.statusWord_bit (by decide), s.statusWord_bit (by decide), s.statusWord_bit (by decide),
    s.statusWord_bit (by decide), ?_, ?_⟩
  · rw [s.statusWord_bit (by decide)]
    exact s.busy_eq
  · rw [s.statusWord_outkind]
    cases s.outkind <;> rfl
  · rw [s.statusWord_toNat]
    exact sumBelow_bits_lt _ 7

theorem State.readPort_of_offset (s : State) {o : Word} {e : PortEntry} (h : o.toNat = e.offset) :
    s.readPort o = s.readEntry e := by
  rw [State.readPort, portEntry_of_offset h]

/-- Settles O49: offset 4 is `STATUS`'s. -/
theorem statusBits : Obligations.StatusBits := by
  unfold Obligations.StatusBits
  intro s
  rw [s.readPort_of_offset (e := .status) rfl]
  exact s.statusWord_isStatus

/-! ### Reads of the port (R48, R49) -/

theorem Layout.word_code (l : Layout) : (word l.code).toNat = match l with | .planar => 0 | .interleaved => 1 := by
  cases l <;> rfl

/-- Where no readable entry stands, a read answers 0 (R49). -/
theorem State.readPort_unreadable (s : State) {o : Word}
    (h : o.toNat = 0 ∨ o.toNat = 8 ∨ o.toNat % 4 ≠ 0 ∨ 0xC00 ≤ o.toNat ∨ (0x4C ≤ o.toNat ∧ o.toNat < 0x100) ∨
      (0x340 ≤ o.toNat ∧ o.toNat < 0x400)) : s.readPort o = 0 := by
  unfold State.readPort
  split
  · next e he =>
    have ho := portEntry_offset he
    cases e
    case cmd | ack => rfl
    all_goals (simp only [PortEntry.offset] at ho; omega)
  · rfl

theorem State.readPort_readAs (s : State) (o : Word) : readAs s o.toNat (s.readPort o) := by
  have at_entry (e : PortEntry) (h : o.toNat = e.offset) : s.readPort o = s.readEntry e := s.readPort_of_offset h
  have small {n : Nat} (h : n < 257) : (word n).toNat = n := word_toNat (by omega)
  refine ⟨fun h => ?_, fun h => ?_, at_entry .finfo, fun h => ?_, fun h => ?_, fun h => ?_, at_entry .misscnt,
    at_entry .outcnt, at_entry .chrlen, at_entry .pixlen, at_entry .rawlen, at_entry .collen, at_entry .width,
    at_entry .height, at_entry .a0, at_entry .a1, at_entry .r0, fun k h => ?_, fun j h => ?_, fun c h => ?_,
    fun p h => ?_, fun x h => ?_, fun x => at_entry (.cscan x), fun i => at_entry (.pal i), s.readPort_unreadable⟩
  · rw [at_entry .status h]; exact s.statusWord_isStatus
  · rw [at_entry .cause h]; exact small (Nat.lt_trans s.cause.isLt (by decide))
  · rw [at_entry .bpp h]; exact small (Nat.lt_trans s.bpp.isLt (by decide))
  · rw [at_entry .layout h]; exact s.layout.word_code
  · rw [at_entry .palsize h]; exact small s.palsize.isLt
  · rw [at_entry (.tile k) h]; exact zextByte_toNat _
  · rw [at_entry (.grid j) h]; exact zextByte_toNat _
  · rw [at_entry (.row c) h]; exact zextByte_toNat _
  · rw [at_entry (.plane p) h]; exact zextByte_toNat _
  · rw [at_entry (.scan x) h]; exact zextByte_toNat _

/-- Settles O51: a read joins the values read, and its value is the entry's. -/
theorem readsHaveNoSideEffect : Obligations.ReadsHaveNoSideEffect := by
  unfold Obligations.ReadsHaveNoSideEffect
  intro s offset rest hh
  exact ⟨step_of_move hh, s.readPort_readAs offset⟩

/-! ### Writes of the port on an idle engine (R48, R50) -/

/-- Where no entry stands (R48): at a misaligned offset and between and above the ranges of the map. -/
theorem portEntry_none {o : Word} (h : portEntry o = none) :
    o.toNat % 4 ≠ 0 ∨ 0x4C ≤ o.toNat ∧ o.toNat < 0x100 ∨ 0x340 ≤ o.toNat ∧ o.toNat < 0x400 ∨ 0xC00 ≤ o.toNat := by
  have hreg : ∀ n < 0x13, registerEntry n ≠ none := by decide
  simp only [portEntry] at h
  split at h
  · next h4 => exact .inl h4
  split at h
  · next hlt => exact .inr (.inl ⟨Nat.not_lt.1 fun hn => hreg _ (by omega) h, hlt⟩)
  repeat (split at h; · cases h)
  split at h
  · exact .inr (.inr (.inl (by omega)))
  repeat (split at h; · cases h)
  exact .inr (.inr (.inr (by omega)))

/-- Offsets where the host writes no value (R48): misaligned ones, and those between the writable ranges. -/
theorem writableWidth_none {o : Nat}
    (h : o % 4 ≠ 0 ∨ 0x4C ≤ o ∧ o < 0x100 ∨ 0x320 ≤ o ∧ o < 0x800 ∨ 0xC00 ≤ o) : Rules.writableWidth o = none := by
  unfold Rules.writableWidth
  split
  · rfl
  · repeat rw [if_neg (by omega)]

/-- The elements of `TILE`, `GRID` and `ROW` (R48). -/
theorem writableWidth_byteBuffer {o : Nat} (h4 : o % 4 = 0) (h : 0x100 ≤ o ∧ o < 0x320) :
    Rules.writableWidth o = some 8 := by
  unfold Rules.writableWidth
  rw [if_neg (by omega), if_neg (by omega), if_neg (by omega), if_neg (by omega), if_pos h]

/-- The elements of `PAL` (R48). -/
theorem writableWidth_pal {o : Nat} (h4 : o % 4 = 0) (h : 0x800 ≤ o ∧ o < 0xC00) :
    Rules.writableWidth o = some 32 := by
  unfold Rules.writableWidth
  rw [if_neg (by omega), if_neg (by omega), if_neg (by omega), if_neg (by omega), if_neg (by omega), if_pos h]

/-- The two maps of the writable entries agree (R48). -/
theorem writableWidth_offset (e : PortEntry) : Rules.writableWidth e.offset = e.writableWidth := by
  cases e
  case tile | grid | row => apply writableWidth_byteBuffer <;> simp only [PortEntry.offset] <;> omega
  case plane | scan | cscan => apply writableWidth_none; simp only [PortEntry.offset]; omega
  case pal => apply writableWidth_pal <;> simp only [PortEntry.offset] <;> omega
  all_goals rfl

theorem writableWidth_eq (o : Word) : Rules.writableWidth o.toNat = (portEntry o).bind PortEntry.writableWidth := by
  cases he : portEntry o with
  | some e => rw [portEntry_offset he, writableWidth_offset]; rfl
  | none => exact writableWidth_none (by have := portEntry_none he; omega)

theorem ofNat_mod_two_pow (n k : Nat) : BitVec.ofNat n (k % 2 ^ n) = BitVec.ofNat n k :=
  BitVec.eq_of_toNat_eq (by simp)

theorem State.storeEntry_storedAt (s : State) {o : Word} {e : PortEntry} (he : portEntry o = some e) (w : Word) :
    storedAt s o.toNat w (s.storeEntry w e) := by
  have at_entry (e' : PortEntry) (h : o.toNat = e'.offset) : s.storeEntry w e = s.storeEntry w e' := by
    rw [Option.some.inj (he.symm.trans (portEntry_of_offset h))]
  refine ⟨fun h => ?_, at_entry .layout, at_entry .chrlen, at_entry .pixlen, at_entry .rawlen, at_entry .width,
    at_entry .height, at_entry .a0, at_entry .a1, fun k h => ?_, fun j h => ?_, fun c h => ?_,
    fun i => at_entry (.pal i)⟩
  · rw [at_entry .bpp h, ofNat_mod_two_pow]; rfl
  · rw [at_entry (.tile k) h, ofNat_mod_two_pow]; rfl
  · rw [at_entry (.grid j) h, ofNat_mod_two_pow]; rfl
  · rw [at_entry (.row c) h, ofNat_mod_two_pow]; rfl

theorem State.readPort_storeEntry_self (s : State) {o : Word} {e : PortEntry} (he : portEntry o = some e) (w : Word)
    {n : Nat} (hn : e.writableWidth = some n) : (s.storeEntry w e).readPort o = BitVec.ofNat 32 (w.toNat % 2 ^ n) := by
  rw [State.readPort, he]
  simp only
  rw [s.readEntry_storeEntry_self, hn]

theorem State.readPort_storeEntry_of_ne (s : State) {o other : Word} {e : PortEntry} (he : portEntry o = some e)
    (w : Word) (hne : other ≠ o) : (s.storeEntry w e).readPort other = s.readPort other := by
  unfold State.readPort
  split
  · next e' he' =>
    refine s.readEntry_storeEntry_of_ne w fun hee => hne (BitVec.eq_of_toNat_eq ?_)
    rw [portEntry_offset he, portEntry_offset he', hee]
  · rfl

theorem writeIdle_entry {offset : Word} {e : PortEntry} (he : portEntry offset = some e) (hne : offset ≠ 0) (w : Word)
    (s : State) : writeIdle offset w s = .next (s.storeEntry w e) := by
  unfold writeIdle
  split
  · next hc => exact absurd (BitVec.eq_of_toNat_eq (portEntry_offset hc)) hne
  · next hc => rw [Option.some.inj (hc.symm.trans he)]
  · next hc => exact absurd (hc.symm.trans he) (by simp)

theorem writeIdle_unmapped {offset : Word} (he : portEntry offset = none) (w : Word) (s : State) :
    writeIdle offset w s = .next s := by
  rw [writeIdle, he]

/-- Settles O50, by the two maps of the register port agreeing and the law of a read after a stored entry. -/
theorem idleWritesReadBack : Obligations.IdleWritesReadBack := by
  unfold Obligations.IdleWritesReadBack
  intro s offset w rest hh hi hne
  rw [step_of_write_idle hh hi, writableWidth_eq]
  cases he : portEntry offset with
  | none =>
    exact ⟨fun n hn => absurd hn (by simp), fun _ => writeIdle_unmapped he w _⟩
  | some e =>
    rw [Option.bind_some, writeIdle_entry he hne]
    refine ⟨fun n hn => ⟨_, rfl, State.storeEntry_storedAt _ he w, State.readPort_storeEntry_self _ he w hn,
      fun other ho => State.readPort_storeEntry_of_ne _ he w ho⟩, fun hn => ?_⟩
    rw [State.storeEntry_of_readOnly _ w hn]

end Sys2Proof.Machine
end

section
/-! PROOF. While a stream command is in progress the external memories do not change (R84, R286): only a command and a
host byte write change one, and both need an idle engine. -/

namespace Sys2Proof.Machine

theorem State.not_idle_of_busy {s : State} (h : s.busy = true) : s.eng ≠ .idle :=
  fun hi => State.not_busy_of_idle hi h

@[simp] theorem State.resetInput_memory (s : State) (sp : Space) : s.resetInput.memory sp = s.memory sp := by
  cases sp <;> rfl

@[simp] theorem State.acknowledge_memory (s : State) (sp : Space) : s.acknowledge.memory sp = s.memory sp := by
  unfold State.acknowledge
  split <;> rfl

/-- A unit writes buffers and the output trace only (R181 to R183). -/
@[simp] theorem State.engineTurn_memory (s : State) (sp : Space) : s.engineTurn.memory sp = s.memory sp := by
  rcases s.engineTurn_cases with
    he | ⟨_, _, he⟩ | ⟨_, _, ⟨_, he⟩ | ⟨_, he⟩ | ⟨_, ⟨_, _, he⟩ | ⟨_, he⟩⟩⟩ <;> rw [he] <;> rfl

/-- Outside `IDLE` no move but a reset changes an external memory. -/
theorem State.Steps.memory_of_not_idle {s t : State} (h : s.Steps t) (hs : s.eng ≠ .idle) (sp : Space) :
    t.memory sp = s.memory sp := by
  cases h with
  | engine => exact s.engineTurn_memory sp
  | acknowledge => exact s.acknowledge_memory sp
  | read | ignored | fault => rfl
  | command hi | store hi | byteWrite hi => exact absurd hi hs

theorem step_memory_of_not_idle {s t : State} (hs : s.eng ≠ .idle) (h : step s = .next t) (sp : Space) :
    t.memory sp = s.memory sp := by
  rcases step_cases h with ⟨rest, _, rfl⟩ | ⟨rest, hst⟩
  · exact State.resetInput_memory _ sp
  · exact hst.memory_of_not_idle hs sp

/-- Outside `IDLE` the model has no host byte write (R84, R286; log 8). -/
theorem step_of_memWrite_not_idle {s : State} {space : Space} {offset : Nat} {v : Byte} {rest : List HostMove}
    (h : s.host = .memWrite space offset v :: rest) (hs : s.eng ≠ .idle) :
    step s = .refused .hostMemoryWriteOutsideIdle :=
  (step_of_move h).trans (if_pos hs)

/-- Settles O45: a busy engine is not idle. -/
theorem memoriesFrozenWhileBusy : Obligations.MemoriesFrozenWhileBusy := by
  unfold Obligations.MemoriesFrozenWhileBusy
  intro s hb
  have hs : s.eng ≠ .idle := State.not_idle_of_busy hb
  exact ⟨fun _ space h => step_memory_of_not_idle hs h space,
    fun _ _ _ _ hh => step_of_memWrite_not_idle hh hs⟩

end Sys2Proof.Machine
end

section
/-! PROOF. The command encoding (R101 to R105): decoding and assembling are inverse to each other, and what becomes of
a word that is no command's. -/

namespace Sys2Proof

/-! ### Fields in place (R101) -/

/-- A field cut out of a word and shifted back to its place is the word under the field's mask. -/
theorem ofNat_field_shiftLeft (w : Word) (lo len : Nat) :
    BitVec.ofNat 32 ((w.toNat / 2 ^ lo % 2 ^ len) <<< lo) = w &&& BitVec.ofNat 32 ((2 ^ len - 1) <<< lo) := by
  refine BitVec.eq_of_getLsbD_eq fun k hk => ?_
  rw [BitVec.getLsbD_and, BitVec.getLsbD_ofNat, BitVec.getLsbD_ofNat]
  by_cases hlo : lo ≤ k
  · simp [hk, hlo, Nat.testBit_div_two_pow, BitVec.testBit_toNat, Bool.and_comm]
  · simp [hlo]

theorem fieldF0_in_place (w : Word) : BitVec.ofNat 32 ((fieldF0 w).val <<< 8) = w &&& 0x700 :=
  ofNat_field_shiftLeft w 8 3

theorem fieldF1_in_place (w : Word) : BitVec.ofNat 32 ((fieldF1 w).val <<< 11) = w &&& 0x3800 :=
  ofNat_field_shiftLeft w 11 3

theorem fieldF2_in_place (w : Word) : BitVec.ofNat 32 ((fieldF2 w).val <<< 14) = w &&& 0x3C000 :=
  ofNat_field_shiftLeft w 14 4

/-! ### The rows of the opcode map (R104) -/

/-- The word of the command that a row reads is the row's pattern with the word's own bits in the fields, the places
the mask leaves open. -/
theorem encode_build (w : Word) : ∀ r ∈ commandTable, encode (r.build w) = r.pattern ||| (w &&& ~~~r.mask) := by
  simp only [commandTable, bitPackingRows, tileCodecRows, streamRows, paletteRows, List.forall_mem_append,
    List.forall_mem_cons, encode, assemble, BitVec.ofNat_or, fieldF0_in_place, fieldF1_in_place, fieldF2_in_place]
  simp [BitVec.or_assoc, ← BitVec.and_or_distrib_left]

/-- Every mask includes bits 7:0 (R104). -/
theorem mask_and_op : ∀ r ∈ commandTable, r.mask &&& 0xFF = 0xFF := by decide

/-- A row accepts a word only if the word's `OP` is the row's. -/
theorem op_of_accepts {r : CommandRow} (hr : r ∈ commandTable) {w : Word} (h : r.accepts w) :
    r.pattern &&& 0xFF = w &&& 0xFF := by
  rw [← eq_of_beq h, BitVec.and_assoc, mask_and_op r hr]

/-- A row reads an accepted word without dropping a bit of it. -/
theorem encode_build_of_accepts {r : CommandRow} (hr : r ∈ commandTable) {w : Word} (h : r.accepts w) :
    encode (r.build w) = w := by
  have hw : w &&& r.mask = r.pattern := eq_of_beq h
  rw [encode_build w r hr, ← hw, ← BitVec.and_or_distrib_left, BitVec.or_not_self, BitVec.and_allOnes]

/-! ### The decoder (R104, R105) -/

/-- The word's `OP` is in some row of the opcode map (R105). -/
def opListed (w : Word) : Bool := commandTable.any fun r => r.pattern &&& 0xFF == w &&& 0xFF

/-- What the decoder answers: the command of a row that accepts the word, or the reason of R105. -/
theorem decode_cases (w : Word) :
    (∃ r ∈ commandTable, r.accepts w ∧ decode w = .command (r.build w)) ∨
    decode w = .illegal (if opListed w then .unusedBitSet else .unlistedOperation) := by
  unfold decode
  split
  · next r hr => exact .inl ⟨r, List.mem_of_find?_eq_some hr, by simpa using List.find?_some hr, rfl⟩
  · exact .inr rfl

/-- Every command's word decodes to it, whatever its fields hold: they are at most seven bits, few enough to decode
each word. -/
theorem decode_encode (i : Instr) : decode (encode i) = .command i := by
  cases i with
  | getbit f | setbit f | decrow f => revert f; decide
  | colch f | pix2idx f => revert f; decide
  | decpix f g | getbits f g | setbits f g => revert f g; decide
  | _ => decide

theorem decode_eq_command_iff {w : Word} {i : Instr} : decode w = .command i ↔ w = encode i := by
  refine ⟨fun h => ?_, fun h => h ▸ decode_encode i⟩
  rcases decode_cases w with ⟨r, hr, hacc, hd⟩ | hd
  · rw [← Decoded.command.inj (hd.symm.trans h), encode_build_of_accepts hr hacc]
  · cases hd.symm.trans h

/-- The rows' `OP` values are those of the commands' words. -/
theorem opListed_iff {w : Word} : opListed w ↔ ∃ i : Instr, w &&& 0xFF = encode i &&& 0xFF := by
  simp only [opListed, List.any_eq_true, beq_iff_eq]
  constructor
  · rintro ⟨r, hr, hop⟩
    have hz : encode (r.build 0) = r.pattern := by simpa using encode_build 0 r hr
    exact ⟨r.build 0, by rw [hz, hop]⟩
  · rintro ⟨i, hi⟩
    rcases decode_cases (encode i) with ⟨r, hr, hacc, _⟩ | hd
    · exact ⟨r, hr, by rw [op_of_accepts hr hacc, hi]⟩
    · cases hd.symm.trans (decode_encode i)

theorem decode_of_no_command {w : Word} (h : ∀ i : Instr, w ≠ encode i) :
    decode w = .illegal (if opListed w then .unusedBitSet else .unlistedOperation) :=
  (decode_cases w).resolve_left fun ⟨_, hr, hacc, _⟩ => h _ (encode_build_of_accepts hr hacc).symm

/-- Settles O2: a row fixes the bits of its mask and reads the others into the fields, so that a decoded word is its
command's, and every command's word decodes to it. -/
theorem decodeInvertsEncode : Obligations.DecodeInvertsEncode := by
  unfold Obligations.DecodeInvertsEncode
  exact fun _ _ => decode_eq_command_iff

/-- Settles O3: the rows' `OP` values, by which the decoder names the reason, are those of the commands' words. -/
theorem illegalWordsAreNamed : Obligations.IllegalWordsAreNamed := by
  unfold Obligations.IllegalWordsAreNamed
  intro w h
  rw [decode_of_no_command h]
  refine ⟨fun hop => ?_, fun hop => ?_⟩
  · rw [if_pos (opListed_iff.2 hop)]
  · rw [if_neg fun hl => not_exists.2 hop (opListed_iff.1 hl)]

/-- Settles O1: each of the words is the one the spec assembles from the command. -/
theorem specWordsDecode : Obligations.SpecWordsDecode := by
  unfold Obligations.SpecWordsDecode
  simp only [decode_eq_command_iff]
  decide

end Sys2Proof

namespace Sys2Proof.Machine

/-- Issue of a word that is no command's (R100). -/
theorem issue_of_no_command {w : Word} (h : ∀ i : Instr, w ≠ encode i) (s : State) :
    issue w s = .next (s.raiseFault .illcmd w.toNat) := by
  simp only [issue, decode_of_no_command h]

/-- Settles O6: the write reaches `CMD`, whose word has no command, and `FINFO` takes the whole word. -/
theorem illegalWordFaults : Obligations.IllegalWordFaults := by
  unfold Obligations.IllegalWordFaults
  intro s w rest hh hi h
  have hcmd : portEntry 0 = some .cmd := portEntry_of_offset rfl
  have hw : word w.toNat = w := BitVec.eq_of_toNat_eq (word_toNat w.isLt)
  rw [step_of_write_idle hh hi, writeIdle, hcmd]
  simp only [issue_of_no_command h, State.raiseFault, hw, Cause.code]

end Sys2Proof.Machine
end

section
/-! PROOF. The bit commands `GETBIT`, `SETBIT`, `GETBITS` and `SETBITS` (R124 to R127), and the laws of their four
functions (R128): each is a statement about the bits of a byte. -/

namespace Sys2Proof

/-! ### The word of a command as a sum (R103) -/

/-- The fields of a command word do not overlap, so that assembling them is adding them. -/
theorem assemble_eq_add {op f0 : Nat} (hop : op < 2 ^ 8) (hf0 : f0 < 2 ^ 3) (f2 : Nat) :
    assemble op f0 0 f2 = BitVec.ofNat 32 (op + f0 * 2 ^ 8 + f2 * 2 ^ 14) := by
  have hlow : op ||| f0 <<< 8 = op + f0 * 2 ^ 8 := by
    rw [Nat.or_comm, ← Nat.shiftLeft_add_eq_or_of_lt hop, Nat.shiftLeft_eq, Nat.add_comm]
  have hlt : op + f0 * 2 ^ 8 < 2 ^ 14 := by omega
  rw [assemble, Nat.zero_shiftLeft, Nat.or_zero, hlow, Nat.or_comm, ← Nat.shiftLeft_add_eq_or_of_lt hlt,
    Nat.shiftLeft_eq, Nat.add_comm]

theorem encode_getbit (idx : Fin 8) : encode (.getbit idx) = BitVec.ofNat 32 (0x10 + idx.val * 2 ^ 8) :=
  assemble_eq_add (by decide) idx.isLt 0

theorem encode_setbit (idx : Fin 8) : encode (.setbit idx) = BitVec.ofNat 32 (0x11 + idx.val * 2 ^ 8) :=
  assemble_eq_add (by decide) idx.isLt 0

theorem encode_getbits (idx : Fin 8) (n : Fin 16) :
    encode (.getbits idx n) = BitVec.ofNat 32 (0x12 + idx.val * 2 ^ 8 + n.val * 2 ^ 14) :=
  assemble_eq_add (by decide) idx.isLt n.val

theorem encode_setbits (idx : Fin 8) (n : Fin 16) :
    encode (.setbits idx n) = BitVec.ofNat 32 (0x13 + idx.val * 2 ^ 8 + n.val * 2 ^ 14) :=
  assemble_eq_add (by decide) idx.isLt n.val

end Sys2Proof

namespace Sys2Proof.Machine

open Sys2Proof.Rules

/-! ### Results are bytes (R128, law d) -/

theorem getBit_lt (v i : Nat) : getBit v i < 256 :=
  getBit_eq v i ▸ Nat.lt_trans (Bool.toNat_lt _) (by decide)

theorem setBit_lt {v i : Nat} (hv : v < 256) (hi : i < 8) (b : Nat) : setBit v i b < 256 := by
  refine Nat.lt_pow_two_of_testBit (n := 8) _ fun j hj => ?_
  rw [setBit_testBit v i b j hv hi, if_neg (by omega), byte_testBit_ge hv (by omega)]

theorem getBits_lt {v : Nat} (hv : v < 256) (i n : Nat) : getBits v i n < 256 :=
  Nat.lt_of_le_of_lt (Nat.le_trans Nat.and_le_left (Nat.shiftRight_le v i)) hv

theorem setBits_lt (v i n x : Nat) : setBits v i n x < 256 :=
  Nat.mod_lt _ (by decide)

/-! ### The laws of a field (R128, laws a to c) -/

section
variable {v i n : Nat} (hv : v < 256) (hn : i + n ≤ 8)
include hv hn

/-- Law (a). -/
theorem getBits_setBits (x : Nat) : getBits (setBits v i n x) i n = x % 2 ^ n := by
  refine Nat.eq_of_testBit_eq fun j => ?_
  rw [getBits_testBit, setBits_testBit _ _ _ _ _ hv hn, Nat.testBit_mod_two_pow]
  by_cases hj : j < n
  · rw [if_pos (by omega), Nat.add_sub_cancel_left]
  · simp [hj]

/-- Law (b). -/
theorem setBits_getBits : setBits v i n (getBits v i n) = v := by
  refine Nat.eq_of_testBit_eq fun j => ?_
  rw [setBits_testBit _ _ _ _ _ hv hn]
  split
  · next hj =>
    have hlt : j - i < n := by omega
    rw [getBits_testBit, Nat.add_sub_cancel' hj.1]
    simp [hlt]
  · rfl

/-- Law (c). -/
theorem getBit_setBits_outside (x : Nat) {j : Nat} (hj : ¬(i ≤ j ∧ j < i + n)) :
    getBit (setBits v i n x) j = getBit v j := by
  rw [getBit_eq, getBit_eq, setBits_testBit _ _ _ _ _ hv hn, if_neg hj]

end

/-- Settles O14: the field laws follow from the bits of the two field functions (R122, R123). -/
theorem bitFieldLaws : Obligations.BitFieldLaws := by
  unfold Obligations.BitFieldLaws
  intro v i n x hv hn h1
  exact ⟨getBits_setBits hv hn x, setBits_getBits hv hn, fun _ => getBit_setBits_outside hv hn x, getBit_lt v i,
    setBit_lt hv (by omega) x, getBits_lt hv i n, setBits_lt v i n x⟩

/-! ### The operand byte and the result word (R21, R22) -/

theorem State.byteOperand_lt (s : State) : s.byteOperand < 256 :=
  Nat.mod_lt _ (by decide)

@[simp] theorem State.byteOperand_testBit (s : State) (j : Nat) :
    s.byteOperand.testBit j = (decide (j < 8) && s.a0.getLsbD j) := by
  rw [State.byteOperand, Nat.testBit_mod_two_pow, BitVec.testBit_toNat]

/-- A byte keeps its bits in a result word. -/
theorem word_getLsbD_of_lt {n : Nat} (h : n < 256) (j : Nat) : (word n).getLsbD j = n.testBit j := by
  rw [← BitVec.testBit_toNat, word_toNat (by omega)]

theorem word_toNat_bool (b : Bool) : word b.toNat = if b then 1 else 0 := by
  cases b <;> rfl

/-! ### The operand check of a field (R126, R127) -/

section
variable {idx : Fin 8} {n : Fin 16}

theorem execGetbits_of_inByte (h : 1 ≤ n.val ∧ n.val ≤ 8 ∧ idx.val + n.val ≤ 8) (s : State) :
    execGetbits idx n s = .next (s.accept.setR0 (word (getBits s.byteOperand idx n))) :=
  if_pos ((fieldInByte_iff idx n).2 h)

theorem execSetbits_of_inByte (h : 1 ≤ n.val ∧ n.val ≤ 8 ∧ idx.val + n.val ≤ 8) (s : State) :
    execSetbits idx n s = .next (s.accept.setR0 (word (setBits s.byteOperand idx n s.a1.toNat))) :=
  if_pos ((fieldInByte_iff idx n).2 h)

theorem execGetbits_of_not_inByte (h : ¬(1 ≤ n.val ∧ n.val ≤ 8 ∧ idx.val + n.val ≤ 8)) (s : State) :
    execGetbits idx n s = .next (s.raiseOperand (.getbits idx n)) :=
  if_neg (mt (fieldInByte_iff idx n).1 h)

theorem execSetbits_of_not_inByte (h : ¬(1 ≤ n.val ∧ n.val ≤ 8 ∧ idx.val + n.val ≤ 8)) (s : State) :
    execSetbits idx n s = .next (s.raiseOperand (.setbits idx n)) :=
  if_neg (mt (fieldInByte_iff idx n).1 h)

end

/-- `F_OPERAND` records the command's own word (R252). -/
theorem State.raiseOperand_of_encode {i : Instr} {w : Nat} (h : encode i = BitVec.ofNat 32 w) (s : State) :
    s.raiseOperand i = operandFault s w := by
  rw [State.raiseOperand, State.raiseFault, word_toNat_self, h]
  rfl

/-! ### The commands (R124 to R127) -/

/-- Settles O10: the one bit is the whole of the result. -/
theorem getbitReadsOneBit : Obligations.GetbitReadsOneBit := by
  unfold Obligations.GetbitReadsOneBit
  intro idx s
  refine ⟨decode_eq_command_iff.2 (encode_getbit idx).symm, ?_⟩
  have hr : word (getBit s.byteOperand idx.val) = if s.a0.getLsbD idx.val then 1 else 0 := by
    rw [getBit_eq, s.byteOperand_testBit, decide_eq_true idx.isLt, Bool.true_and, word_toNat_bool]
  rw [exec, execGetbit, hr]
  rfl

/-- Settles O11, bit by bit. -/
theorem setbitWritesOneBit : Obligations.SetbitWritesOneBit := by
  unfold Obligations.SetbitWritesOneBit
  intro idx s
  refine ⟨decode_eq_command_iff.2 (encode_setbit idx).symm, _, rfl, fun j => ?_⟩
  have hbit : (s.a1.toNat % 2).testBit 0 = s.a1.getLsbD 0 := Nat.testBit_mod_two_pow s.a1.toNat 1 0
  rw [word_getLsbD_of_lt (setBit_lt s.byteOperand_lt idx.isLt _), setBit_testBit _ _ _ _ s.byteOperand_lt idx.isLt,
    hbit, s.byteOperand_testBit]

/-- Settles O12: a field inside the byte is read bit by bit, and any other fails the operand check. -/
theorem getbitsReadsField : Obligations.GetbitsReadsField := by
  unfold Obligations.GetbitsReadsField
  intro idx n s
  refine ⟨decode_eq_command_iff.2 (encode_getbits idx n).symm, fun h => ?_, fun h => ?_⟩
  · refine ⟨_, execGetbits_of_inByte h s, fun j => ?_⟩
    rw [word_getLsbD_of_lt (getBits_lt s.byteOperand_lt _ _), getBits_testBit, s.byteOperand_testBit]
    by_cases hj : j < n.val
    · have h8 : idx.val + j < 8 := by omega
      rw [decide_eq_true h8, Bool.true_and]
    · simp [hj]
  · rw [exec, execGetbits_of_not_inByte h, s.raiseOperand_of_encode (encode_getbits idx n)]

/-- Settles O13: a field inside the byte is replaced bit by bit, and any other fails the operand check. -/
theorem setbitsWritesField : Obligations.SetbitsWritesField := by
  unfold Obligations.SetbitsWritesField
  intro idx n s
  refine ⟨decode_eq_command_iff.2 (encode_setbits idx n).symm, fun h => ?_, fun h => ?_⟩
  · refine ⟨_, execSetbits_of_inByte h s, fun j => ?_⟩
    obtain ⟨-, -, hn⟩ := h
    rw [word_getLsbD_of_lt (setBits_lt _ _ _ _), setBits_testBit _ _ _ _ _ s.byteOperand_lt hn,
      s.byteOperand_testBit, BitVec.testBit_toNat]
  · rw [exec, execSetbits_of_not_inByte h, s.raiseOperand_of_encode (encode_setbits idx n)]

end Sys2Proof.Machine
end

section
/-! PROOF. The tile codec (41_tilecodec.md): the layout rule as a bijection (R141 to R143), the five commands (R151 to
R155) read off the bits of a pixel and of a row-byte, and the round trips (R149). -/

namespace Sys2Proof

theorem encode_decpix (row col : Fin 8) :
    encode (.decpix row col) = BitVec.ofNat 32 (0x20 + row.val * 2 ^ 8 + col.val * 2 ^ 11) := by
  revert row col; decide

theorem encode_decrow (row : Fin 8) : encode (.decrow row) = BitVec.ofNat 32 (0x21 + row.val * 2 ^ 8) :=
  assemble_eq_add (by decide) row.isLt 0

end Sys2Proof

namespace Sys2Proof.Machine

open Sys2Proof.Rules

/-! ### The layout rule is onto (R143) -/

/-- Every byte of a tile is the row-byte of some plane and row: in Planar the offset's quotient and remainder by 8; in
Interleaved the unpaired plane from `(bpp div 2) × 16` on, and below it the offset's pair of planes, row and parity. -/
theorem exists_planeOffset_eq {k bpp : Nat} (hk : k < tileBytes bpp) (layout : Layout) :
    ∃ p y, p < bpp ∧ y < 8 ∧ planeOffset p y bpp layout = k := by
  simp only [tileBytes] at hk
  cases layout with
  | planar =>
    refine ⟨k / 8, k % 8, ?_⟩
    simp only [planeOffset]
    omega
  | interleaved =>
    by_cases hlast : bpp / 2 * 16 ≤ k
    · refine ⟨bpp - 1, k - bpp / 2 * 16, ?_⟩
      simp only [planeOffset]
      rw [if_pos (by omega)]
      omega
    · refine ⟨k / 16 * 2 + k % 2, k % 16 / 2, ?_⟩
      simp only [planeOffset]
      rw [if_neg (by omega)]
      omega

/-- Settles O15: the formulas are the model's, and the place is one to one (`planeOffset_inj`) and onto. -/
theorem layoutPlacesRowBytes : Obligations.LayoutPlacesRowBytes := by
  unfold Obligations.LayoutPlacesRowBytes
  intro bpp hbpp
  refine ⟨fun p y _ _ => ⟨rfl, ?_⟩, fun layout => ⟨fun p y hp hy => planeOffset_lt hp hy layout, fun k hk => ?_⟩⟩
  · have hlast : p + 1 = bpp ↔ p = bpp - 1 := by omega
    simp only [planeOffset, hlast]
  · obtain ⟨p, y, hp, hy, hpy⟩ := exists_planeOffset_eq hk layout
    exact ⟨p, y, ⟨hp, hy, hpy⟩, fun q z hq hz hqz => planeOffset_inj hq hp hz hy (hqz.trans hpy.symm)⟩

/-! ### The depth check (R251, R253) -/

theorem le_eight_of_supported {bpp : Nat} (h : supported bpp) : bpp ≤ 8 := by
  omega

/-- At a supported depth an accepted command goes on. -/
theorem State.next_accept_withDepth {s : State} (h : supported s.bpp.toNat) (rest : State → State) :
    (.next (s.accept.withDepth rest) : Host.Outcome State Fault Refusal) = .next (rest s.accept) :=
  congrArg _ (State.accept_withDepth_of_supported ((depthSupported_iff _).2 h) rest)

/-- At any other depth every command that needs one raises `F_CONFIG`. -/
theorem exec_of_not_supported {i : Instr} (hi : needsDepth i) {s : State} (h : ¬supported s.bpp.toNat) :
    exec i s = .next (faulted s 3 s.bpp.toNat) := by
  have hd : depthSupported s.bpp.toNat = false := eq_false_of_ne_true (mt (depthSupported_iff _).1 h)
  cases i with
  | getbit | setbit | getbits | setbits | defpal | lookup | find | colch | pix2idx | idx2col => exact hi.elim
  | _ => exact congrArg Host.Outcome.next (State.accept_withDepth_of_unsupported hd _)

/-! ### Pixels and row-bytes as bytes (R144, R147, R149) -/

/-- A byte keeps the bits of a number that fits it. -/
theorem byte_getLsbD_of_lt {n : Nat} (h : n < 256) (j : Nat) : (byte n).getLsbD j = n.testBit j := by
  rw [← BitVec.testBit_toNat, byte_toNat h]

theorem decodePixel_lt_byte {bpp : Nat} (h : bpp ≤ 8) (t : Nat → Byte) (row col : Fin 8) (layout : Layout) :
    decodePixel t row col bpp layout < 256 :=
  Nat.lt_of_lt_of_le (decodePixel_lt t row col bpp layout) (Nat.pow_le_pow_right (n := 2) (by decide) h)

/-- Bit `7 − c` of the row-byte of plane `p` is bit `p` of the pixel of column `c`. -/
theorem byte_encodeRow_getLsbD (px : Fin 8 → Byte) (p : Nat) (c : Fin 8) :
    (byte (encodeRow px p)).getLsbD (7 - c.val) = (px c).getLsbD p := by
  have h8 : 7 - c.val < 8 := by omega
  have hc : Fin.ofNat 8 (7 - (7 - c.val)) = c := by apply Fin.ext; simp only [Fin.ofNat]; omega
  rw [byte_getLsbD_of_lt (encodeRow_lt px p), encodeRow_testBit, hc, decide_eq_true h8, Bool.true_and]

/-- Encode, then decode: a pixel of a row whose row-bytes are in place comes back modulo `2^bpp`. -/
theorem decodePixel_of_rowBytes {t : Nat → Byte} {px : Fin 8 → Byte} {row : Fin 8} {bpp : Nat} {layout : Layout}
    (h : ∀ p, p < bpp → t (planeOffset p row bpp layout) = byte (encodeRow px p)) (col : Fin 8) :
    decodePixel t row col bpp layout = (px col).toNat % 2 ^ bpp := by
  refine Nat.eq_of_testBit_eq fun p => ?_
  rw [decodePixel_testBit, Nat.testBit_mod_two_pow, BitVec.testBit_toNat]
  by_cases hp : p < bpp
  · rw [h p hp, byte_encodeRow_getLsbD]
  · simp [hp]

/-- Decode, then encode: the row-byte of the decoded pixels of a row is the byte it was decoded from. -/
theorem encodeRow_decodePixel (t : Nat → Byte) (row : Fin 8) {p bpp : Nat} (hp : p < bpp) (hbpp : bpp ≤ 8)
    (layout : Layout) :
    byte (encodeRow (fun c => byte (decodePixel t row c bpp layout)) p) = t (planeOffset p row bpp layout) := by
  refine BitVec.eq_of_getLsbD_eq fun j hj => ?_
  have hbit := byte_encodeRow_getLsbD (fun c => byte (decodePixel t row c bpp layout)) p ⟨7 - j, by omega⟩
  have hcol : 7 - (7 - j) = j := by omega
  rwa [byte_getLsbD_of_lt (decodePixel_lt_byte hbpp t row _ layout), decodePixel_testBit, decide_eq_true hp,
    Bool.true_and, hcol] at hbit

/-! ### Pixels of `TILE` (R151 to R153) -/

theorem State.tileByte_val (s : State) (k : Fin 64) : s.tileByte k.val = s.tile[k] :=
  dif_pos k.isLt

/-- Bit `p` of a pixel of `TILE` is bit `7 − col` of the row-byte of plane `p`. -/
theorem State.decodePixel_tile_testBit (s : State) {row col : Fin 8} {p bpp : Nat} {layout : Layout} (hp : p < bpp)
    {k : Fin 64} (hk : k.val = planeOffset p row bpp layout) :
    (decodePixel s.tileByte row col bpp layout).testBit p = s.tile[k].getLsbD (7 - col.val) := by
  rw [decodePixel_testBit, ← hk, s.tileByte_val, decide_eq_true hp, Bool.true_and]

/-- What a buffer element that receives a pixel of `TILE` holds. -/
theorem State.byte_decodePixel_tile (s : State) (row col : Fin 8) {bpp : Nat} (h : bpp ≤ 8) (layout : Layout) :
    (byte (decodePixel s.tileByte row col bpp layout)).toNat < 2 ^ bpp ∧
      ∀ (p : Nat) (k : Fin 64), p < bpp → k.val = planeOffset p row.val bpp layout →
        (byte (decodePixel s.tileByte row col bpp layout)).getLsbD p = s.tile[k].getLsbD (7 - col.val) := by
  have hlt := decodePixel_lt_byte h s.tileByte row col layout
  refine ⟨?_, fun p k hp hk => ?_⟩
  · rw [byte_toNat hlt]
    exact decodePixel_lt _ _ _ _ _
  · rw [byte_getLsbD_of_lt hlt, s.decodePixel_tile_testBit hp hk]

/-- Settles O16: the pixel is a number below `2^BPP`, whose bits `R0` keeps. -/
theorem decpixDecodesOnePixel : Obligations.DecpixDecodesOnePixel := by
  unfold Obligations.DecpixDecodesOnePixel
  intro row col s
  refine ⟨decode_eq_command_iff.2 (encode_decpix row col).symm, fun h => ?_, exec_of_not_supported trivial⟩
  have hlt := decodePixel_lt_byte (le_eight_of_supported h) s.tileByte row col s.layout
  refine ⟨word (decodePixel s.tileByte row col s.bpp.toNat s.layout), State.next_accept_withDepth h _, ?_,
    fun p k hp hk => ?_⟩
  · rw [word_toNat (Nat.lt_trans hlt (by decide))]
    exact decodePixel_lt _ _ _ _ _
  · rw [word_getLsbD_of_lt hlt, s.decodePixel_tile_testBit hp hk]

/-- Settles O17: every element of `ROW` receives its pixel. -/
theorem decrowFillsRow : Obligations.DecrowFillsRow := by
  unfold Obligations.DecrowFillsRow
  intro row s
  refine ⟨decode_eq_command_iff.2 (encode_decrow row).symm, fun h => ?_, exec_of_not_supported trivial⟩
  refine ⟨tabulate fun c => byte (decodePixel s.tileByte row c s.bpp.toNat s.layout),
    State.next_accept_withDepth h _, fun c => ?_⟩
  rw [tabulate_getFin]
  exact s.byte_decodePixel_tile row c (le_eight_of_supported h) s.layout

/-- The element of `GRID` at its own row and column (R39). -/
theorem State.gridAt_row_col (s : State) (k : Fin 64) : s.gridAt (gridRow k) (gridCol k) = s.grid[k] := by
  have hk : 8 * (gridRow k).val + (gridCol k).val = k.val := Nat.div_add_mod k.val 8
  simp only [State.gridAt, hk, Fin.getElem_fin]

/-- `GRID` receives the 64 pixels of `TILE` (R153). -/
def State.decodeTile (s : State) : State :=
  s.setGrid fun k => byte (decodePixel s.tileByte (gridRow k) (gridCol k) s.bpp.toNat s.layout)

theorem State.decodeTile_gridAt (s : State) (r c : Fin 8) :
    s.decodeTile.gridAt r c = byte (decodePixel s.tileByte r c s.bpp.toNat s.layout) := by
  rw [State.gridAt, State.decodeTile, State.setGrid, tabulate_get, gridRow_mk, gridCol_mk]

theorem exec_dectile {s : State} (h : supported s.bpp.toNat) : exec .dectile s = .next s.accept.decodeTile :=
  State.next_accept_withDepth h _

/-- Settles O18: every element of `GRID` receives its pixel. -/
theorem dectileFillsGrid : Obligations.DectileFillsGrid := by
  unfold Obligations.DectileFillsGrid
  intro s
  refine ⟨decode_eq_command_iff.2 rfl, fun h => ?_, exec_of_not_supported trivial⟩
  refine ⟨s.decodeTile.grid, exec_dectile h, fun r c => ?_⟩
  have hpixel := s.byte_decodePixel_tile r c (le_eight_of_supported h) s.layout
  rwa [← s.decodeTile_gridAt] at hpixel

/-! ### Row-bytes of `ROW` and `GRID` (R154, R155) -/

/-- Settles O19: the planes of the depth receive their row-bytes. -/
theorem encrowFillsPlanes : Obligations.EncrowFillsPlanes := by
  unfold Obligations.EncrowFillsPlanes
  intro s
  refine ⟨decode_eq_command_iff.2 rfl, fun h => ?_, exec_of_not_supported trivial⟩
  refine ⟨(s.setPlane s.depth fun p => byte (encodeRow (fun c => s.row[c]) p)).plane,
    State.next_accept_withDepth h _, fun p => ?_⟩
  rw [State.setPlane, tabulate_getFin]
  refine ⟨fun hp c => ?_, fun hp => if_neg (Nat.not_lt.2 hp)⟩
  rw [if_pos (show p.val < s.depth from hp), byte_encodeRow_getLsbD]

theorem exec_enctile {s : State} (h : supported s.bpp.toNat) : exec .enctile s = .next s.accept.encodeGrid :=
  State.next_accept_withDepth h _

/-- The byte of `TILE` at the place of plane `p` and row `r` is that row-byte of `GRID` (R148, R155). -/
theorem State.encodeGrid_tile_at (s : State) {p : Nat} (hp : p < s.bpp.toNat) (r : Fin 8) {k : Fin 64}
    (hk : k.val = planeOffset p r s.bpp.toNat s.layout) :
    s.encodeGrid.tile[k] = byte (encodeRow (s.gridAt r) p) := by
  have hlt : k.val < tileBytes s.depth := hk ▸ planeOffset_lt hp r.isLt s.layout
  have hat : (encodeTile s.gridAt s.depth s.layout)[k.val]? = some (byte (encodeRow (s.gridAt r) p)) :=
    hk ▸ encodeTile_at s.gridAt r s.layout hp
  exact (s.encodeGrid_tile_below k.val hlt k.isLt).trans (by rw [List.getD_eq_getElem?_getD, hat, Option.getD_some])

theorem State.encodeGrid_isTileOf (s : State) :
    isTileOf s.bpp.toNat s.layout s.grid s.encodeGrid.tile s.tile := by
  refine ⟨fun p r c k hp hk => ?_, fun k hk => s.encodeGrid_tile_above k.val hk k.isLt⟩
  rw [s.encodeGrid_tile_at hp r hk, byte_encodeRow_getLsbD, State.gridAt]

/-- Settles O20: every byte of the tile receives its row-byte, and the bytes past the tile stay. -/
theorem enctileFillsTile : Obligations.EnctileFillsTile := by
  unfold Obligations.EnctileFillsTile
  intro s
  exact ⟨decode_eq_command_iff.2 rfl, fun h => ⟨s.encodeGrid.tile, exec_enctile h, s.encodeGrid_isTileOf⟩,
    exec_of_not_supported trivial⟩

/-! ### The round trips (R149) -/

/-- `ENCTILE` then `DECTILE`: each pixel of `GRID` comes back modulo `2^BPP`. -/
theorem State.encodeGrid_decodeTile_gridAt (s : State) (h : s.bpp.toNat ≤ 8) (r c : Fin 8) :
    (s.encodeGrid.accept.decodeTile.gridAt r c).toNat = (s.gridAt r c).toNat % 2 ^ s.bpp.toNat := by
  have hbytes : ∀ p, p < s.bpp.toNat →
      s.encodeGrid.tileByte (planeOffset p r s.bpp.toNat s.layout) = byte (encodeRow (s.gridAt r) p) := by
    intro p hp
    have hlt : planeOffset p r s.bpp.toNat s.layout < 64 := by
      have hoff := planeOffset_lt hp r.isLt s.layout
      simp only [tileBytes] at hoff
      omega
    exact (s.encodeGrid.tileByte_val ⟨_, hlt⟩).trans (s.encodeGrid_tile_at hp r rfl)
  rw [State.decodeTile_gridAt]
  exact (byte_toNat (decodePixel_lt_byte h _ _ _ _)).trans (decodePixel_of_rowBytes hbytes c)

/-- `DECTILE` then `ENCTILE`: `TILE` comes back, its row-bytes because they were decoded from it and the bytes past them
because neither command writes them. -/
theorem State.decodeTile_encodeGrid_tile (s : State) (h : s.bpp.toNat ≤ 8) :
    s.decodeTile.accept.encodeGrid.tile = s.tile := by
  refine Vector.ext fun k hk => ?_
  by_cases hlt : k < tileBytes s.bpp.toNat
  · obtain ⟨p, y, hp, hy, rfl⟩ := exists_planeOffset_eq hlt s.layout
    have hrow : s.decodeTile.accept.gridAt ⟨y, hy⟩
        = fun c => byte (decodePixel s.tileByte ⟨y, hy⟩ c s.bpp.toNat s.layout) :=
      funext fun c => s.decodeTile_gridAt ⟨y, hy⟩ c
    calc s.decodeTile.accept.encodeGrid.tile[planeOffset p y s.bpp.toNat s.layout]
        = byte (encodeRow (s.decodeTile.accept.gridAt ⟨y, hy⟩) p) :=
          s.decodeTile.accept.encodeGrid_tile_at hp ⟨y, hy⟩ (k := ⟨_, hk⟩) rfl
      _ = s.tileByte (planeOffset p y s.bpp.toNat s.layout) := by
          rw [hrow, encodeRow_decodePixel s.tileByte ⟨y, hy⟩ hp h]
      _ = s.tile[planeOffset p y s.bpp.toNat s.layout] := s.tileByte_val ⟨_, hk⟩
  · exact s.decodeTile.accept.encodeGrid_tile_above k (Nat.not_lt.1 hlt) hk

/-- Settles O21: both round trips, run from the accepted state. -/
theorem tileCodecRoundTrips : Obligations.TileCodecRoundTrips := by
  unfold Obligations.TileCodecRoundTrips
  intro s h
  have hbpp := le_eight_of_supported h
  refine ⟨⟨_, _, exec_enctile h, exec_dectile h, fun k => ?_⟩, ⟨_, _, exec_dectile h, exec_enctile h, ?_⟩⟩
  · have hpixel := s.accept.encodeGrid_decodeTile_gridAt hbpp (gridRow k) (gridCol k)
    rwa [State.gridAt_row_col, State.gridAt_row_col] at hpixel
  · exact s.accept.decodeTile_encodeGrid_tile hbpp

end Sys2Proof.Machine
end

section
/-! PROOF. The start of the stream commands (R181 to R183) and the engine's turns of a running one (R185): what each
unit reads, writes and emits. -/

namespace Sys2Proof.Machine

open Sys2Proof.Rules

/-! ### Starts (R181 to R183) -/

/-- What a command does that checks the depth and then starts the decode direction (R181, R182). -/
theorem exec_startDecode {i : Instr} {kind : OutKind}
    (hi : ∀ s, exec i s = .next (s.accept.withDepth fun s => s.startDecode kind)) (hn : needsDepth i) (s : State) :
    (supported s.bpp.toNat → s.chrlen.toNat ≤ s.cfg.chrcap.toNat →
      exec i s = .next { s with verr := false, notfound := false, outkind := kind, outcnt := 0, eng := .run }) ∧
    (supported s.bpp.toNat → s.cfg.chrcap.toNat < s.chrlen.toNat →
      exec i s = .next (faulted { s with outkind := kind, outcnt := 0 } 4 1)) ∧
    (¬supported s.bpp.toNat → exec i s = .next (faulted s 3 s.bpp.toNat)) := by
  have hstart (hd : supported s.bpp.toNat) : exec i s = .next (s.accept.startDecode kind) :=
    (hi s).trans (State.next_accept_withDepth hd _)
  refine ⟨fun hd hlen => ?_, fun hd hlen => ?_, exec_of_not_supported hn⟩ <;> rw [hstart hd]
  · rcases s.accept.startDecode_cases kind with ⟨hlt, _⟩ | ⟨_, he⟩
    · exact absurd hlt (Nat.not_lt.2 hlen)
    · rw [he]; rfl
  · rcases s.accept.startDecode_cases kind with ⟨_, he⟩ | ⟨hle, _⟩
    · rw [he]; rfl
    · exact absurd hle (Nat.not_le.2 hlen)

/-- Settles O22: the kind of output is `SCAN`'s. -/
theorem toidxStartsStream : Obligations.ToidxStartsStream := by
  unfold Obligations.ToidxStartsStream
  exact fun s => ⟨decode_eq_command_iff.2 rfl, exec_startDecode (fun _ => rfl) trivial s⟩

/-- Settles O23: the kind of output is `CSCAN`'s. -/
theorem torgbaStartsStream : Obligations.TorgbaStartsStream := by
  unfold Obligations.TorgbaStartsStream
  exact fun s => ⟨decode_eq_command_iff.2 rfl, exec_startDecode (fun _ => rfl) trivial s⟩

theorem exec_tochr {s : State} (hd : supported s.bpp.toNat) : exec .tochr s = .next s.accept.startEncode :=
  State.next_accept_withDepth hd _

/-- Settles O24: past the depth check, the three outcomes of `State.startEncode_cases` exclude each other. -/
theorem tochrValidatesThenStarts : Obligations.TochrValidatesThenStarts := by
  unfold Obligations.TochrValidatesThenStarts
  intro s
  refine ⟨decode_eq_command_iff.2 rfl, exec_of_not_supported trivial, fun hd hdim => ?_, fun hd hw hh => ?_⟩
  · rw [exec_tochr hd]
    rcases s.accept.startEncode_cases with ⟨_, he⟩ | ⟨hmul, _⟩
    · rw [he]; rfl
    · exact absurd hmul hdim
  · rw [exec_tochr hd]
    rcases s.accept.startEncode_cases with ⟨hdim, _⟩ | ⟨_, ⟨hbad, he⟩ | ⟨⟨hp, hc⟩, he⟩⟩
    · exact absurd ⟨hw, hh⟩ hdim
    · rw [he]
      refine ⟨fun hok => ?_, fun _ => rfl⟩
      exact hbad.elim (fun h => absurd hok.1 (Nat.not_le.2 h)) fun h => absurd hok.2 (Nat.not_le.2 h)
    · rw [he]
      refine ⟨fun _ => rfl, fun hbad => ?_⟩
      exact hbad.elim (fun h => absurd hp (Nat.not_le.2 h)) fun h => absurd hc (Nat.not_le.2 h)

/-! ### The engine's turn (R185; log 1) -/

/-- The engine's turn comes with other moves waiting or with none. -/
theorem step_of_engineNext {s : State} {rest : List HostMove} (h : engineNext s rest) :
    step s = .next ({ s with host := rest } : State).engineTurn := by
  rcases h with hh | ⟨hh, rfl⟩
  · exact step_of_engineMove hh
  · rw [step_of_noMove hh, ← hh]

/-- The units of `TOIDX` and `TORGBA` (R171, R185). -/
theorem State.unitTotal_scanlines {s : State} (h : s.outkind = .scan ∨ s.outkind = .cscan) :
    s.unitTotal = scanlines s := by
  rcases h with h | h <;> rw [State.unitTotal, h] <;> rfl

/-- The units of `TOCHR` (R179, R185). -/
theorem State.unitTotal_tiles {s : State} (h : s.outkind = .tile) : s.unitTotal = tiles s := by
  rw [State.unitTotal, h]
  rfl

/-- Settles O28: a running engine with every unit counted completes, and one that does not run stays. -/
theorem engineCompletesOrStays : Obligations.EngineCompletesOrStays := by
  unfold Obligations.EngineCompletesOrStays
  intro s rest hn
  rw [step_of_engineNext hn]
  have hdone (u : State) (hr : u.eng = .run) (hc : u.outcnt.toNat = u.unitTotal) :
      (.next u.engineTurn : Host.Outcome State Fault Refusal) = .next { u with eng := .idle } :=
    congrArg _ (State.engineTurn_done hr hc)
  refine ⟨fun hr hk hc => hdone _ hr ?_, fun hr hk hc => hdone _ hr ?_, fun hne => ?_⟩
  · exact hc.trans (State.unitTotal_scanlines (s := { s with host := rest }) hk).symm
  · exact hc.trans (State.unitTotal_tiles (s := { s with host := rest }) hk).symm
  · exact congrArg _ (State.engineTurn_still (s := { s with host := rest }) hne)

/-- A unit that leaves the engine running is counted and waits (R185). -/
theorem State.engineTurn_of_emitted {s u : State} (hr : s.eng = .run) (h : s.outcnt.toNat < s.unitTotal)
    (hu : s.buildUnit = u) (he : u.eng = s.eng) : s.engineTurn = { u with outcnt := u.outcnt + 1, eng := .wait } := by
  rw [State.engineTurn_unit hr h, hu]
  exact State.finishUnit_emitted (by rw [he, hr]; decide)

/-! ### Scanlines (R171 to R173, R181) -/

/-- The scanline of unit `OUTCNT`, as a buffer (R181, R182). -/
def State.unitScan (s : State) : Vector Byte 128 := s.buildScanline.scan

theorem State.unitScan_toNat {s : State} (h : supported s.bpp.toNat) (x : Nat) (hx : x < 128) :
    s.unitScan[x].toNat = unitScanline s.chrmem.read s.chrlen.toNat s.outcnt.toNat s.bpp.toNat s.layout x := by
  have hlt := scanlineIndex_lt s.chrmem.read s.chrlen.toNat (s.outcnt.toNat / 8) (Fin.ofNat 8 s.outcnt.toNat)
    s.bpp.toNat s.layout x
  have hbyte := Nat.lt_of_lt_of_le hlt (Nat.pow_le_pow_right (n := 2) (by decide) (le_eight_of_supported h))
  exact (congrArg BitVec.toNat (tabulate_get _ x hx)).trans (byte_toNat hbyte)

/-- An index of a scanline is below `2^BPP` (R144, R173). -/
theorem State.unitScan_lt {s : State} (h : supported s.bpp.toNat) (x : Fin 128) :
    s.unitScan[x].toNat < 2 ^ s.bpp.toNat := by
  rw [Fin.getElem_fin, State.unitScan_toNat h]
  exact scanlineIndex_lt _ _ _ _ _ _ _

theorem State.unitScan_isScanline {s : State} (h : supported s.bpp.toNat) : isScanline s s.unitScan := by
  intro slot c p
  rw [← BitVec.testBit_toNat, State.unitScan_toNat h, unitScanline, scanlineIndex_testBit, ← Bool.and_assoc, numTiles,
    availableBytes, rowBytes, tileBytes, Nat.mul_comm s.bpp.toNat 8]
  rfl

/-- A turn that builds a scanline fills `SCAN`, emits it, counts it and waits (R181, R185). -/
theorem State.engineTurn_scan {s : State} (hr : s.eng = .run) (hk : s.outkind = .scan)
    (h : s.outcnt.toNat < s.unitTotal) :
    s.engineTurn = { s with scan := s.unitScan, out := s.out ++ [.scanline s.unitScan.toList],
                            outcnt := s.outcnt + 1, eng := .wait } := by
  have hunit : s.unitIdx = { s with scan := s.unitScan, out := s.out ++ [.scanline s.unitScan.toList] } := rfl
  exact State.engineTurn_of_emitted hr h ((State.buildUnit_scan hk).trans hunit) rfl

/-- Settles O25: the unit's scanline is the one of R173. -/
theorem indexUnitEmitsScanline : Obligations.IndexUnitEmitsScanline := by
  unfold Obligations.IndexUnitEmitsScanline
  intro s rest hn hr hk hd hlt
  rw [← State.unitTotal_scanlines (.inl hk)] at hlt
  rw [step_of_engineNext hn]
  refine ⟨s.unitScan, State.unitScan_isScanline hd, ?_⟩
  exact congrArg _ (State.engineTurn_scan (s := { s with host := rest }) hr hk hlt)

/-! ### Colour scanlines (R182) -/

/-- `CSCAN` after the first `n` indices of the unit's scanline are converted (R182). -/
def State.unitCscan (s : State) (n : Nat) : Vector Word 128 := (s.buildScanline.colourScanline n).cscan

/-- A converted element is the palette's entry. -/
theorem State.unitCscan_below (s : State) {n : Nat} {x : Fin 128} (hx : x.val < n) {i : Fin 256}
    (hi : s.unitScan[x].toNat = i.val) (hp : s.unitScan[x].toNat < s.palsize.val) : (s.unitCscan n)[x] = s.pal[i] := by
  have hentry : s.lookupByIndex s.unitScan[x].toNat = some s.pal[i] := by
    rw [State.lookupByIndex_of_lt s hp]
    exact congrArg some (getElem_congr_idx hi)
  rw [State.unitCscan, State.colourScanline, State.setCscan, tabulate_getFin, if_pos hx]
  exact congrArg (·.getD 0) hentry

/-- An element not yet converted stays. -/
theorem State.unitCscan_above (s : State) {n : Nat} {x : Fin 128} (hx : n ≤ x.val) :
    (s.unitCscan n)[x] = s.cscan[x] := by
  rw [State.unitCscan, State.colourScanline, State.setCscan, tabulate_getFin, if_neg (Nat.not_lt.2 hx)]
  rfl

/-- With every index converted nothing of the old `CSCAN` is left. -/
theorem State.unitCscan_all (s : State) :
    s.unitCscan 128 = tabulate fun x => (s.lookupByIndex s.unitScan[x].toNat).getD 0 :=
  congrArg tabulate (funext fun x => if_pos x.isLt)

theorem State.firstBadIndex_eq_none {s : State} :
    s.firstBadIndex = none ↔ ∀ x : Fin 128, s.scan[x].toNat < s.palsize.val := by
  simp [State.firstBadIndex]

/-- The index at which `TORGBA`'s unit stops is the lowest one not below `PALSIZE`. -/
theorem State.firstBadIndex_eq_some {s : State} {x : Fin 128} :
    s.firstBadIndex = some x ↔
      s.palsize.val ≤ s.scan[x].toNat ∧ ∀ y : Fin 128, y < x → s.scan[y].toNat < s.palsize.val := by
  rw [State.firstBadIndex, List.find?_eq_some_iff_getElem]
  simp only [Bool.not_eq_true', decide_eq_false_iff_not, Nat.not_lt, Bool.not_not, decide_eq_true_eq]
  refine and_congr_right fun _ => ⟨?_, fun hlow => ?_⟩
  · rintro ⟨i, hi, rfl, hlow⟩ y hy
    simpa using hlow y.val (by simpa [Fin.lt_def] using hy)
  · exact ⟨x.val, by simp, by simp, fun j hj => by simpa using hlow ⟨j, by omega⟩ hj⟩

/-- A turn that converts every index of its scanline emits the colours, counts the unit and waits (R182, R185). -/
theorem State.engineTurn_cscan {s : State} (hr : s.eng = .run) (hk : s.outkind = .cscan)
    (h : s.outcnt.toNat < s.unitTotal) (hall : ∀ x : Fin 128, s.unitScan[x].toNat < s.palsize.val) :
    s.engineTurn = { s with scan := s.unitScan, cscan := s.unitCscan 128,
                            out := s.out ++ [.rgbaScanline ((s.unitCscan 128).toList.map Color.unpack)],
                            outcnt := s.outcnt + 1, eng := .wait } := by
  have hunit : s.unitRgba = { s with
      scan := s.unitScan, cscan := s.unitCscan 128,
      out := s.out ++ [.rgbaScanline ((s.unitCscan 128).toList.map Color.unpack)] } := by
    simp only [State.unitRgba, State.firstBadIndex_eq_none.2 hall]
    rfl
  exact State.engineTurn_of_emitted hr h ((State.buildUnit_cscan hk).trans hunit) rfl

/-- A turn that meets an index not below `PALSIZE` faults there, with the elements before it converted (R182, R254). -/
theorem State.engineTurn_badIndex {s : State} (hr : s.eng = .run) (hk : s.outkind = .cscan)
    (h : s.outcnt.toNat < s.unitTotal) {x : Fin 128} (hx : s.buildScanline.firstBadIndex = some x) :
    s.engineTurn = { s with scan := s.unitScan, cscan := s.unitCscan x.val, eng := .fault, cause := 5,
                            finfo := BitVec.ofNat 32 s.unitScan[x].toNat } := by
  have hunit : s.unitRgba = (s.buildScanline.colourScanline x.val).raiseFault .palidx s.unitScan[x].toNat := by
    simp only [State.unitRgba, hx]
    rfl
  rw [State.engineTurn_unit hr h, State.buildUnit_cscan hk, hunit]
  exact State.finishUnit_faulted rfl

theorem Color.map_pack_unpack (ws : List Word) :
    (ws.map Color.unpack).map (fun c => c.r ++ c.g ++ c.b ++ c.a) = ws := by
  rw [List.map_map]
  exact List.map_id'' (fun w => (Color.pack_eq _).symm.trans (Color.pack_unpack w)) ws

/-- Settles O26, by whether the unit's scanline has a bad index. -/
theorem rgbaUnitEmitsColoursOrFaults : Obligations.RgbaUnitEmitsColoursOrFaults := by
  unfold Obligations.RgbaUnitEmitsColoursOrFaults
  intro s rest hn hr hk hd hlt
  rw [← State.unitTotal_scanlines (.inr hk)] at hlt
  rw [step_of_engineNext hn]
  cases hbad : s.buildScanline.firstBadIndex with
  | none =>
    have hall : ∀ x : Fin 128, s.unitScan[x].toNat < s.palsize.val := State.firstBadIndex_eq_none.1 hbad
    refine ⟨s.unitScan, s.unitCscan 128, State.unitScan_isScanline hd, fun _ => ⟨fun x i hi => ?_, ?_⟩,
      fun x hx _ => absurd (hall x) (Nat.not_lt.2 hx)⟩
    · exact s.unitCscan_below x.isLt hi (hall x)
    · refine ⟨_, Color.map_pack_unpack _, ?_⟩
      exact congrArg _ (State.engineTurn_cscan (s := { s with host := rest }) hr hk hlt hall)
  | some x =>
    obtain ⟨hx, _⟩ := State.firstBadIndex_eq_some.1 hbad
    refine ⟨s.unitScan, s.unitCscan x.val, State.unitScan_isScanline hd,
      fun hall => absurd (hall x) (Nat.not_lt.2 hx), fun x' hx' hlow => ?_⟩
    have heq : s.buildScanline.firstBadIndex = some x' := State.firstBadIndex_eq_some.2 ⟨hx', hlow⟩
    obtain rfl : x = x' := Option.some.inj (hbad.symm.trans heq)
    refine ⟨fun y i hy hi => s.unitCscan_below hy hi (hlow y hy), fun y hy => s.unitCscan_above hy, ?_⟩
    exact congrArg _ (State.engineTurn_badIndex (s := { s with host := rest }) hr hk hlt hbad)

/-! ### Tiles (R178, R183) -/

/-- The buffer `TILE` after the unit `OUTCNT` is loaded and encoded (R183). -/
def State.unitTile (s : State) : Vector Byte 64 := s.loadBlock.encodeGrid.tile

theorem State.loadBlock_isBlock (s : State) : isBlock s s.outcnt.toNat s.loadBlock.grid := by
  intro r c
  rw [State.loadBlock, State.setGrid, tabulate_get, gridRow_mk, gridCol_mk]
  rfl

/-- The bytes the unit emits are the block's encoding, whatever `TILE` held before (R148, R183). -/
theorem State.unitTile_take {s : State} (h : supported s.bpp.toNat) :
    s.unitTile.toList.take (s.bpp.toNat * 8) = encodeTile s.loadBlock.gridAt s.bpp.toNat s.layout :=
  s.loadBlock.encodeGrid_tile_take (tileBytes_le ((depthSupported_iff _).2 h))

/-- A turn that encodes a block emits its bytes, counts the unit and waits (R183, R185). -/
theorem State.engineTurn_tile {s : State} (hr : s.eng = .run) (hk : s.outkind = .tile)
    (h : s.outcnt.toNat < s.unitTotal) :
    s.engineTurn = { s with grid := s.loadBlock.grid, tile := s.unitTile,
                            out := s.out ++ [.tileBytes (s.unitTile.toList.take (s.bpp.toNat * 8))],
                            outcnt := s.outcnt + 1, eng := .wait } := by
  have hunit : s.unitChr = { s with
      grid := s.loadBlock.grid, tile := s.unitTile,
      out := s.out ++ [.tileBytes (s.unitTile.toList.take (s.bpp.toNat * 8))] } := rfl
  exact State.engineTurn_of_emitted hr h ((State.buildUnit_tile hk).trans hunit) rfl

/-- Settles O27: the block loaded is that of R178, and `TILE` receives its encoding (R148). -/
theorem tileUnitEmitsEncodedBlock : Obligations.TileUnitEmitsEncodedBlock := by
  unfold Obligations.TileUnitEmitsEncodedBlock
  intro s rest hn hr hk _ hlt
  rw [← State.unitTotal_tiles hk] at hlt
  rw [step_of_engineNext hn]
  refine ⟨s.loadBlock.grid, s.unitTile, s.loadBlock_isBlock, s.loadBlock.encodeGrid_isTileOf, ?_⟩
  exact congrArg _ (State.engineTurn_tile (s := { s with host := rest }) hr hk hlt)

/-! ### What the engine reads of `CHRMEM` (R172, R308) -/

/-- The state with another `CHRMEM`. -/
def State.setChrmem (s : State) (m : Memory) : State := { s with chrmem := m }

/-- A scanline is built from the bytes of whole tiles. -/
theorem State.buildScanline_setChrmem {s : State} {m : Memory}
    (h : ∀ a, a < s.chrlen.toNat / (8 * s.bpp.toNat) * (8 * s.bpp.toNat) → m.read a = s.chrmem.read a) :
    (s.setChrmem m).buildScanline = s.buildScanline.setChrmem m := by
  have hindex (x : Fin 128) : unitScanline m.read s.chrlen.toNat s.outcnt.toNat s.depth s.layout x.val =
      unitScanline s.chrmem.read s.chrlen.toNat s.outcnt.toNat s.depth s.layout x.val :=
    scanlineIndex_congr _ _ _ _ (by rwa [tileBytes, Nat.mul_comm s.depth 8])
  exact congrArg (fun f => (s.setScan f).setChrmem m) (funext fun x => congrArg byte (hindex x))

/-- Only a scanline is built from `CHRMEM`; `TOCHR`'s unit does not read it. -/
theorem State.buildUnit_setChrmem {s : State} {m : Memory}
    (h : (s.setChrmem m).buildScanline = s.buildScanline.setChrmem m) :
    (s.setChrmem m).buildUnit = s.buildUnit.setChrmem m := by
  cases hk : s.outkind with
  | none => simp only [State.buildUnit, State.setChrmem, hk]
  | scan =>
    rw [State.buildUnit_scan hk, State.buildUnit_scan (s := s.setChrmem m) hk, State.unitIdx, h]
    rfl
  | tile =>
    rw [State.buildUnit_tile hk, State.buildUnit_tile (s := s.setChrmem m) hk]
    rfl
  | cscan =>
    rw [State.buildUnit_cscan hk, State.buildUnit_cscan (s := s.setChrmem m) hk]
    have hbad : (s.buildScanline.setChrmem m).firstBadIndex = s.buildScanline.firstBadIndex := rfl
    simp only [State.unitRgba, h, hbad]
    cases s.buildScanline.firstBadIndex <;> rfl

theorem State.finishUnit_setChrmem (s : State) (m : Memory) :
    (s.setChrmem m).finishUnit = s.finishUnit.setChrmem m := by
  by_cases hf : s.eng = .fault
  · rw [State.finishUnit_faulted hf, State.finishUnit_faulted (s := s.setChrmem m) hf]
  · rw [State.finishUnit_emitted hf, State.finishUnit_emitted (s := s.setChrmem m) hf]
    rfl

/-- Settles O29: the turn reads `CHRMEM` only to build a scanline. -/
theorem trailingChrBytesNeverRead : Obligations.TrailingChrBytesNeverRead := by
  unfold Obligations.TrailingChrBytesNeverRead
  intro s m _ h
  show (s.setChrmem m).engineTurn = s.engineTurn.setChrmem m
  by_cases hr : s.eng = .run
  · rcases Nat.lt_trichotomy s.outcnt.toNat s.unitTotal with hlt | he | hgt
    · rw [State.engineTurn_unit hr hlt, State.engineTurn_unit (s := s.setChrmem m) hr hlt,
        State.buildUnit_setChrmem (State.buildScanline_setChrmem h), State.finishUnit_setChrmem]
    · rw [State.engineTurn_done hr he, State.engineTurn_done (s := s.setChrmem m) hr he]
      rfl
    · rw [State.engineTurn_over hgt, State.engineTurn_over (s := s.setChrmem m) hgt]
  · rw [State.engineTurn_still hr, State.engineTurn_still (s := s.setChrmem m) hr]

end Sys2Proof.Machine
end

section
/-! PROOF. The delivery of a whole stream to a host that acknowledges every unit (R186): one induction on the units
left, from which the statements about the three stream commands follow. -/

namespace Sys2Proof.Machine

open Sys2Proof.Rules

/-! ### Runs -/

theorem run_succ_of_step {s t : State} (h : step s = .next t) (n : Nat) :
    Host.Core.run Sys2Proof.core (n + 1) s = Host.Core.run Sys2Proof.core n t := by
  have hcore : Sys2Proof.core.step s = .next t := h
  simp only [Host.Core.run, hcore]

/-- An acknowledge of a pending unit (R36). -/
theorem step_of_ack {s : State} {rest : List HostMove} (hh : s.host = .write 8 0 :: rest) (hw : s.eng = .wait) :
    step s = .next { s with host := rest, eng := .run } :=
  (busyWritesFaultAndAckReleases s 8 0 rest hh).2.1 rfl hw

theorem acknowledgeAll_succ (n : Nat) (rest : List HostMove) :
    acknowledgeAll (n + 1) ++ rest = .engine :: .write 8 0 :: (acknowledgeAll n ++ rest) := rfl

/-! ### A stream with `k` units acknowledged (R185, R186) -/

/-- The state `s` with unit `k` next. -/
def State.atCount (s : State) (k : Nat) : State := { s with outcnt := word k }

/-- `u` is the running stream `s`, from unit 0, after `k` units are emitted and acknowledged: the units' events have
joined `OUT`, and of the rest of the state only the moves left and the buffers a unit is built in may differ. -/
def State.AtUnit (s : State) (event : Nat → Event) (k : Nat) (u : State) : Prop :=
  ∃ host scan cscan grid tile, u = { s with
    host := host, scan := scan, cscan := cscan, grid := grid, tile := tile, outcnt := word k,
    out := s.out ++ (List.range k).map event }

/-- The engine's turn emits an event, counts the unit and waits, and writes no more than the buffers a unit is built
in. -/
def State.Emits (u : State) (e : Event) : Prop :=
  ∃ scan cscan grid tile, u.engineTurn = { u with
    scan := scan, cscan := cscan, grid := grid, tile := tile, out := u.out ++ [e], outcnt := u.outcnt + 1,
    eng := .wait }

section Stream

variable {s : State} {event : Nat → Event}

theorem State.AtUnit.setHost {k : Nat} {u : State} (h : s.AtUnit event k u) (host : List HostMove) :
    s.AtUnit event k { u with host := host } := by
  obtain ⟨_, scan, cscan, grid, tile, rfl⟩ := h
  exact ⟨host, scan, cscan, grid, tile, rfl⟩

theorem State.atUnit_zero (hc : s.outcnt = 0) : s.AtUnit event 0 s := by
  refine ⟨s.host, s.scan, s.cscan, s.grid, s.tile, ?_⟩
  have hw : word 0 = s.outcnt := hc.symm
  rw [List.range_zero, List.map_nil, List.append_nil, hw]

theorem State.Emits.host_eq {u : State} {e : Event} (h : u.Emits e) : u.engineTurn.host = u.host := by
  obtain ⟨_, _, _, _, he⟩ := h
  rw [he]

theorem State.Emits.eng_eq {u : State} {e : Event} (h : u.Emits e) : u.engineTurn.eng = .wait := by
  obtain ⟨_, _, _, _, he⟩ := h
  rw [he]

/-- One unit: the engine's turn emits it, the host acknowledges it. -/
theorem State.AtUnit.acknowledged {k : Nat} {u : State} (hr : s.eng = .run) (hu : s.AtUnit event k u)
    (he : u.Emits (event k)) (rest : List HostMove) :
    s.AtUnit event (k + 1) { u.engineTurn with host := rest, eng := .run } := by
  obtain ⟨_, _, _, _, _, rfl⟩ := hu
  obtain ⟨scan, cscan, grid, tile, he⟩ := he
  refine ⟨rest, scan, cscan, grid, tile, ?_⟩
  have hcount : word k + 1 = word (k + 1) := (BitVec.ofNat_add k 1).symm
  rw [he, List.range_succ, List.map_append, ← List.append_assoc, hr]
  simp only [hcount]
  rfl

theorem State.AtUnit.outcnt_toNat {k : Nat} {u : State} (hu : s.AtUnit event k u) (hk : k < 2 ^ 32) :
    u.outcnt.toNat = k := by
  obtain ⟨_, _, _, _, _, rfl⟩ := hu
  exact word_toNat hk

theorem State.AtUnit.eng_eq {k : Nat} {u : State} (hu : s.AtUnit event k u) : u.eng = s.eng := by
  obtain ⟨_, _, _, _, _, rfl⟩ := hu
  rfl

theorem State.AtUnit.outkind_eq {k : Nat} {u : State} (hu : s.AtUnit event k u) : u.outkind = s.outkind := by
  obtain ⟨_, _, _, _, _, rfl⟩ := hu
  rfl

theorem State.AtUnit.unitTotal_eq {k : Nat} {u : State} (hu : s.AtUnit event k u) : u.unitTotal = s.unitTotal := by
  obtain ⟨_, _, _, _, _, rfl⟩ := hu
  rfl

/-- A stream of `SCAN` units emits its scanlines (R181). -/
theorem State.AtUnit.emits_scan {k : Nat} {u : State} (hr : s.eng = .run) (hk : s.outkind = .scan)
    (hu : s.AtUnit event k u) (hlt : u.outcnt.toNat < u.unitTotal) :
    u.Emits (.scanline (s.atCount k).unitScan.toList) := by
  have hscan : u.unitScan = (s.atCount k).unitScan := by
    obtain ⟨_, _, _, _, _, rfl⟩ := hu
    rfl
  rw [← hscan]
  exact ⟨_, u.cscan, u.grid, u.tile, State.engineTurn_scan (hu.eng_eq.trans hr) (hu.outkind_eq.trans hk) hlt⟩

/-- A stream of `CSCAN` units whose scanlines have no bad index emits their colours (R182). -/
theorem State.AtUnit.emits_cscan {k : Nat} {u : State} (hr : s.eng = .run) (hk : s.outkind = .cscan)
    (hu : s.AtUnit event k u) (hlt : u.outcnt.toNat < u.unitTotal)
    (hall : ∀ x : Fin 128, (s.atCount k).unitScan[x].toNat < s.palsize.val) :
    u.Emits (.rgbaScanline (((s.atCount k).unitCscan 128).toList.map Color.unpack)) := by
  have hcscan : u.unitCscan 128 = (s.atCount k).unitCscan 128 := by
    rw [State.unitCscan_all, State.unitCscan_all]
    obtain ⟨_, _, _, _, _, rfl⟩ := hu
    rfl
  have hgood : ∀ x : Fin 128, u.unitScan[x].toNat < u.palsize.val := by
    obtain ⟨_, _, _, _, _, rfl⟩ := hu
    exact hall
  rw [← hcscan]
  exact ⟨_, _, u.grid, u.tile, State.engineTurn_cscan (hu.eng_eq.trans hr) (hu.outkind_eq.trans hk) hlt hgood⟩

/-- A stream of `TILE` units emits the encodings of its blocks (R183). -/
theorem State.AtUnit.emits_tile {k : Nat} {u : State} (hr : s.eng = .run) (hk : s.outkind = .tile)
    (hu : s.AtUnit event k u) (hlt : u.outcnt.toNat < u.unitTotal) (hd : supported s.bpp.toNat) :
    u.Emits (.tileBytes ((s.atCount k).unitTile.toList.take (s.bpp.toNat * 8))) := by
  have htile : u.unitTile.toList.take (u.bpp.toNat * 8) = (s.atCount k).unitTile.toList.take (s.bpp.toNat * 8) := by
    obtain ⟨_, _, _, _, _, rfl⟩ := hu
    refine (State.unitTile_take ?_).trans (State.unitTile_take (s := s.atCount k) hd).symm
    exact hd
  rw [← htile]
  exact ⟨u.scan, u.cscan, _, _, State.engineTurn_tile (hu.eng_eq.trans hr) (hu.outkind_eq.trans hk) hlt⟩

/-- From unit `k` on, with `n` units left, a host that acknowledges every unit receives the events of all of them, and
the engine completes. -/
theorem State.AtUnit.run_acknowledgeAll (hr : s.eng = .run) (hlt : s.unitTotal < 2 ^ 32)
    (hunit : ∀ k u, s.AtUnit event k u → u.outcnt.toNat < u.unitTotal → u.Emits (event k))
    (rest : List HostMove) (n : Nat) :
    ∀ (k : Nat) (u : State), k + n = s.unitTotal → s.AtUnit event k u → u.host = acknowledgeAll n ++ rest →
      ∃ t, s.AtUnit event s.unitTotal t ∧ t.host = rest ∧
        Host.Core.run Sys2Proof.core (2 * n + 1) u = .next (t.setEng .idle) := by
  induction n with
  | zero =>
    intro k u hk hu hh
    obtain rfl : k = s.unitTotal := hk
    have hu' := hu.setHost rest
    have hmove : u.host = .engine :: rest := hh
    have hdone := State.engineTurn_done (hu'.eng_eq.trans hr) ((hu'.outcnt_toNat hlt).trans hu'.unitTotal_eq.symm)
    exact ⟨_, hu', rfl, (run_succ_of_step (step_of_engineMove hmove) 0).trans (congrArg Host.Outcome.next hdone)⟩
  | succ n ih =>
    intro k u hk hu hh
    rw [acknowledgeAll_succ] at hh
    have hu' := hu.setHost (.write 8 0 :: (acknowledgeAll n ++ rest))
    have hcount := hu'.outcnt_toNat (by omega)
    have he := hunit k _ hu' (by rw [hcount, hu'.unitTotal_eq]; omega)
    have hack := hu'.acknowledged hr he (acknowledgeAll n ++ rest)
    obtain ⟨t, ht, hrest, hrun⟩ := ih (k + 1) _ (by omega) hack rfl
    refine ⟨t, ht, hrest, ?_⟩
    have hsteps : 2 * (n + 1) + 1 = 2 * n + 1 + 1 + 1 := by omega
    rw [hsteps, run_succ_of_step (step_of_engineMove hh), run_succ_of_step (step_of_ack he.host_eq he.eng_eq), hrun]

end Stream

/-- A host that starts a stream and acknowledges every unit receives the events of all of them, after which the engine
is idle, every unit is counted, and the external memories are as they were. -/
theorem run_delivers {s u : State} {event : Nat → Event} {rest : List HostMove} (hstart : step s = .next u)
    (hr : u.eng = .run) (hc : u.outcnt = 0) (hready : u.streamReady)
    (hunit : ∀ k v, u.AtUnit event k v → v.outcnt.toNat < v.unitTotal → v.Emits (event k))
    (hh : u.host = acknowledgeAll u.unitTotal ++ rest) :
    ∃ t, Host.Core.run Sys2Proof.core (2 * u.unitTotal + 2) s = .next t ∧ t.eng = .idle ∧ t.host = rest ∧
      t.outcnt.toNat = u.unitTotal ∧ (∀ sp, t.memory sp = u.memory sp) ∧
      t.out = u.out ++ (List.range u.unitTotal).map event := by
  have hlt := State.unitTotal_lt hready
  obtain ⟨t, ht, hrest, hrun⟩ := State.AtUnit.run_acknowledgeAll hr hlt hunit rest u.unitTotal 0 u (Nat.zero_add _)
    (State.atUnit_zero hc) hh
  have hcount := ht.outcnt_toNat hlt
  refine ⟨t.setEng .idle, (run_succ_of_step hstart _).trans hrun, rfl, hrest, hcount, ?_⟩
  obtain ⟨_, _, _, _, _, rfl⟩ := ht
  exact ⟨fun sp => by cases sp <;> rfl, rfl⟩

/-! ### The three stream commands -/

theorem getElem?_map_range {α : Type} {f : Nat → α} {n k : Nat} {v : α} (h : ((List.range n).map f)[k]? = some v) :
    k < n ∧ f k = v := by
  obtain ⟨hlt, hv⟩ := List.getElem?_eq_some_iff.1 h
  rw [List.getElem_map, List.getElem_range] at hv
  exact ⟨by simpa using hlt, hv⟩

/-- Settles O30: the events of a stream of `SCAN` units are its scanlines, in order. -/
theorem toidxDeliversEveryScanline : Obligations.ToidxDeliversEveryScanline := by
  unfold Obligations.ToidxDeliversEveryScanline
  intro s rest hi hd hlen hh
  obtain ⟨hdec, hstarts, _⟩ := toidxStartsStream { s with host := acknowledgeAll (scanlines s) ++ rest }
  have hstart := (cmdWriteRunsDecodedCommand s 0x30 .toidx _ hh hi hdec).trans (hstarts hd hlen)
  obtain ⟨t, hrun, heng, hrest, hcount, hmem, hout⟩ := run_delivers hstart rfl rfl ⟨(depthSupported_iff _).2 hd, hlen⟩
    (fun _ _ hu hlt => hu.emits_scan rfl rfl hlt) rfl
  refine ⟨t, hrun, heng, hrest, hcount, hmem .chrmem, (List.range (scanlines s)).map fun k => (s.atCount k).unitScan,
    ?_, ?_, fun k v hv => ?_⟩
  · rw [hout, List.map_map]; rfl
  · rw [List.length_map, List.length_range]
  · obtain ⟨_, rfl⟩ := getElem?_map_range hv
    exact State.unitScan_isScanline (s := s.atCount k) hd

/-- Settles O58: as O30, every index of a scanline being below `2^BPP` and so in the palette. -/
theorem torgbaDeliversEveryScanline : Obligations.TorgbaDeliversEveryScanline := by
  unfold Obligations.TorgbaDeliversEveryScanline
  intro s rest hi hd hlen hpal hh
  have hall (k : Nat) (x : Fin 128) : (s.atCount k).unitScan[x].toNat < s.palsize.val :=
    Nat.lt_of_lt_of_le (State.unitScan_lt (s := s.atCount k) hd x) hpal
  obtain ⟨hdec, hstarts, _⟩ := torgbaStartsStream { s with host := acknowledgeAll (scanlines s) ++ rest }
  have hstart := (cmdWriteRunsDecodedCommand s 0x31 .torgba _ hh hi hdec).trans (hstarts hd hlen)
  obtain ⟨t, hrun, heng, hrest, hcount, hmem, hout⟩ := run_delivers hstart rfl rfl ⟨(depthSupported_iff _).2 hd, hlen⟩
    (fun k _ hu hlt => hu.emits_cscan rfl rfl hlt (hall k)) rfl
  refine ⟨t, hrun, heng, hrest, hcount, hmem .chrmem,
    (List.range (scanlines s)).map fun k => ((s.atCount k).unitScan, ((s.atCount k).unitCscan 128).map Color.unpack),
    ?_, ?_, fun k v cs hv => ?_⟩
  · simp only [hout, List.map_map, Function.comp_def, Vector.toList_map]; rfl
  · rw [List.length_map, List.length_range]
  · obtain ⟨_, hu⟩ := getElem?_map_range hv
    cases hu
    refine ⟨State.unitScan_isScanline (s := s.atCount k) hd, fun x i hx => ?_⟩
    rw [← Color.pack_eq, Fin.getElem_fin, Vector.getElem_map, Color.pack_unpack]
    exact (s.atCount k).unitCscan_below x.isLt hx (hall k x)

/-- Settles O31: the events of a stream of `TILE` units are the encodings of its blocks, in row-major order. -/
theorem tochrDeliversEveryTile : Obligations.TochrDeliversEveryTile := by
  unfold Obligations.TochrDeliversEveryTile
  intro s rest hi hd hw hht hp hcap hh
  obtain ⟨hdec, _, _, hvalid⟩ := tochrValidatesThenStarts { s with host := acknowledgeAll (tiles s) ++ rest }
  have hstart := (cmdWriteRunsDecodedCommand s 0x32 .tochr _ hh hi hdec).trans ((hvalid hd hw hht).1 ⟨hp, hcap⟩)
  obtain ⟨t, hrun, heng, hrest, hcount, hmem, hout⟩ := run_delivers hstart rfl rfl
    ⟨(depthSupported_iff _).2 hd, hw, hht, hp, hcap⟩ (fun _ _ hu hlt => hu.emits_tile rfl rfl hlt hd) rfl
  refine ⟨t, hrun, heng, hrest, hcount, hmem .pixmem, (List.range (tiles s)).map fun k => (s.atCount k).unitTile,
    ?_, ?_, fun k v hv => ?_⟩
  · rw [hout, List.map_map]; rfl
  · rw [List.length_map, List.length_range]
  · obtain ⟨hk, rfl⟩ := getElem?_map_range hv
    have hunit : (s.atCount k).outcnt.toNat = k :=
      word_toNat (Nat.lt_trans hk (lt_of_eq_of_lt hcount.symm t.outcnt.isLt))
    have hblock := (s.atCount k).loadBlock_isBlock
    rw [hunit] at hblock
    exact ⟨(s.atCount k).loadBlock.grid, s.tile, hblock, (s.atCount k).loadBlock.encodeGrid_isTileOf⟩

end Sys2Proof.Machine
end

section
/-! PROOF. CanvasLayout (43_canvaslayout.md): the rounded-up quotient as the least count that suffices (R9), from which
the laws of `requiredHeight` (R200, R201) and the value of `REQH` (R202) follow. -/

namespace Sys2Proof.Machine

open Sys2Proof.Rules

/-! ### The rounded-up quotient (R9, R302) -/

section
variable {b : Nat} (hb : 0 < b)
include hb

/-- `ceilDiv a b` is the least count of `b`s that holds `a`. -/
theorem ceilDiv_le_iff {a k : Nat} : ceilDiv a b ≤ k ↔ a ≤ k * b := by
  rw [ceilDiv, Nat.div_le_iff_le_mul hb]
  omega

theorem le_ceilDiv_mul (a : Nat) : a ≤ ceilDiv a b * b :=
  (ceilDiv_le_iff hb).1 (Nat.le_refl _)

/-- The last of the `b`s that `ceilDiv` counts is not empty. -/
theorem ceilDiv_mul_lt (a : Nat) : ceilDiv a b * b < a + b := by
  have hle : ceilDiv a b * b ≤ a + b - 1 := Nat.div_mul_le_self (a + b - 1) b
  omega

theorem ceilDiv_mono {m n : Nat} (h : m ≤ n) : ceilDiv m b ≤ ceilDiv n b :=
  (ceilDiv_le_iff hb).2 (Nat.le_trans h (le_ceilDiv_mul hb n))

theorem ceilDiv_mul_self (k : Nat) : ceilDiv (k * b) b = k :=
  Nat.le_antisymm ((ceilDiv_le_iff hb).2 (Nat.le_refl _)) (Nat.le_of_mul_le_mul_right (le_ceilDiv_mul hb (k * b)) hb)

theorem ceilDiv_eq_one {a : Nat} (ha : 0 < a) (hab : a ≤ b) : ceilDiv a b = 1 := by
  have hpos : ¬ceilDiv a b ≤ 0 := by
    rw [ceilDiv_le_iff hb]
    omega
  have hone : ceilDiv a b ≤ 1 := by
    rw [ceilDiv_le_iff hb]
    omega
  omega

end

/-! ### The required height (R200, R201) -/

theorem rowBytes_pos {bpp : Nat} (h : 1 ≤ bpp) : 0 < rowBytes bpp :=
  Nat.mul_pos (by decide) h

theorem requiredHeight_mod (n bpp : Nat) : requiredHeight n bpp % 8 = 0 :=
  Nat.mul_mod_right 8 _

theorem requiredHeight_div (n bpp : Nat) : requiredHeight n bpp / 8 = ceilDiv n (rowBytes bpp) :=
  Nat.mul_div_cancel_left _ (by decide)

/-- A 32-bit count fills at most `2^24` tile-rows of at least 256 bytes. -/
theorem requiredHeight_le {n bpp : Nat} (hn : n < 2 ^ 32) (h : 2 ≤ bpp) : requiredHeight n bpp ≤ 2 ^ 27 := by
  have hrows : ceilDiv n (rowBytes bpp) ≤ 2 ^ 24 := by
    rw [ceilDiv_le_iff (rowBytes_pos (by omega)), rowBytes]
    omega
  rw [requiredHeight]
  omega

/-- Settles O33: the laws of `ceilDiv`, eight rows to a tile-row. -/
theorem requiredHeightLaws : Obligations.RequiredHeightLaws := by
  unfold Obligations.RequiredHeightLaws
  intro bpp hbpp
  have hrow := rowBytes_pos hbpp
  refine ⟨fun m n hmn => Nat.mul_le_mul_left 8 (ceilDiv_mono hrow hmn), fun n => requiredHeight_mod n bpp, fun k => ?_,
    fun n hpos hn => ?_, fun s hs hk => ?_, fun n hn h2 => requiredHeight_le hn h2⟩
  · have hbytes : k * bpp * 8 * 16 = k * rowBytes bpp := by
      rw [rowBytes, Nat.mul_assoc, Nat.mul_assoc, Nat.mul_comm 128]
    rw [requiredHeight, hbytes, ceilDiv_mul_self hrow, Nat.mul_comm]
  · rw [requiredHeight, ceilDiv_eq_one hrow hpos hn]
  · rw [State.unitTotal_scanlines (.inl hk), ← hs]
    rfl

/-! ### `REQH` (R202) -/

theorem two_le_of_supported {bpp : Nat} (h : supported bpp) : 2 ≤ bpp := by
  omega

/-- Settles O32: at a supported depth the required height fits `R0`, and its tile-rows are the rounded-up quotient. -/
theorem reqhRoundsUpToTileRows : Obligations.ReqhRoundsUpToTileRows := by
  unfold Obligations.ReqhRoundsUpToTileRows
  intro s
  refine ⟨decode_eq_command_iff.2 rfl, fun h => ?_, exec_of_not_supported trivial⟩
  have h2 := two_le_of_supported h
  have hrow := rowBytes_pos (Nat.le_of_succ_le h2)
  have hle : requiredHeight s.a0.toNat s.bpp.toNat ≤ 2 ^ 27 := requiredHeight_le s.a0.isLt h2
  refine ⟨word (requiredHeight s.a0.toNat s.bpp.toNat), State.next_accept_withDepth h _, ?_⟩
  rw [word_toNat (Nat.lt_of_le_of_lt hle (by decide)), requiredHeight_div]
  exact ⟨requiredHeight_mod _ _, le_ceilDiv_mul hrow _, ceilDiv_mul_lt hrow _⟩

end Sys2Proof.Machine
end

section
/-! PROOF. Palette and ColorConversion (44_palette_color.md): the packed colour as a number (R211), the seven commands
(R220 to R226), and that no other command and no engine turn writes the palette (R227). -/

namespace Sys2Proof

theorem encode_colch (ch : Fin 16) : encode (.colch ch) = BitVec.ofNat 32 (0x54 + ch.val * 2 ^ 14) :=
  assemble_eq_add (by decide) (by decide : 0 < 2 ^ 3) ch.val

theorem encode_pix2idx (ch : Fin 16) : encode (.pix2idx ch) = BitVec.ofNat 32 (0x55 + ch.val * 2 ^ 14) :=
  assemble_eq_add (by decide) (by decide : 0 < 2 ^ 3) ch.val

end Sys2Proof

namespace Sys2Proof.Machine

open Sys2Proof.Rules

/-! ### Packed colours (R211) -/

/-- Settles O34: the packed colour is its four bytes in a row, and each direction undoes the other. -/
theorem packedColourBijection : Obligations.PackedColourBijection := by
  unfold Obligations.PackedColourBijection
  exact ⟨fun c => ⟨Color.pack_eq c, Color.unpack_pack c⟩, fun w => ⟨Color.pack_unpack w, rfl, rfl, rfl, rfl⟩⟩

/-- The packed colour as a number. -/
theorem Color.pack_toNat (c : Color) :
    c.pack.toNat = ((c.r.toNat * 2 ^ 8 + c.g.toNat) * 2 ^ 8 + c.b.toNat) * 2 ^ 8 + c.a.toNat := by
  rw [Color.pack_eq, BitVec.toNat_append, ← Nat.shiftLeft_add_eq_or_of_lt c.a.isLt, BitVec.toNat_append,
    ← Nat.shiftLeft_add_eq_or_of_lt c.b.isLt, BitVec.toNat_append, ← Nat.shiftLeft_add_eq_or_of_lt c.g.isLt]
  simp only [Nat.shiftLeft_eq]

/-! ### The default ramp (R214, R220) -/

/-- Depth 3's step (decision D14, log 9) is what the quotient of the other depths gives there too. -/
theorem rampStep_eq (bpp : Nat) : rampStep bpp = 255 / (2 ^ bpp - 1) := by
  unfold rampStep
  split
  · next h => rw [h]; rfl
  · rfl

/-- A gray of the ramp is a byte. -/
theorem mul_rampStep_lt {bpp i : Nat} (h : i < 2 ^ bpp) : i * rampStep bpp < 2 ^ 8 := by
  have hi : i ≤ 2 ^ bpp - 1 := by omega
  calc i * rampStep bpp ≤ (2 ^ bpp - 1) * (255 / (2 ^ bpp - 1)) := by
        rw [rampStep_eq]; exact Nat.mul_le_mul_right _ hi
    _ ≤ 255 := Nat.mul_div_le _ _
    _ < 2 ^ 8 := by decide

theorem defaultColour_pack_toNat {bpp i : Nat} (h : i < 2 ^ bpp) :
    (defaultColour bpp i).pack.toNat = i * (255 / (2 ^ bpp - 1)) * (2 ^ 24 + 2 ^ 16 + 2 ^ 8) + 255 := by
  have halpha : (255 : Byte).toNat = 255 := rfl
  rw [Color.pack_toNat]
  simp only [defaultColour, byte_toNat (mul_rampStep_lt h), halpha]
  rw [rampStep_eq]
  omega

theorem State.installDefault_of_supported {s : State} (h : supported s.bpp.toNat) :
    s.installDefault = (s.setPal (2 ^ s.bpp.toNat) fun i => (defaultColour s.bpp.toNat i.val).pack).setPalsize
      (Fin.ofNat 257 (2 ^ s.bpp.toNat)) := by
  have hd : depthSupported s.bpp.toNat = true := (depthSupported_iff _).2 h
  rw [State.installDefault, State.depth, if_pos hd, installedSize_of_supported hd, palSize]

theorem State.installDefault_of_not_supported {s : State} (h : ¬supported s.bpp.toNat) :
    s.installDefault = s.setPalsize 0 := by
  have hd : depthSupported s.bpp.toNat = false := eq_false_of_ne_true (mt (depthSupported_iff _).1 h)
  rw [State.installDefault, State.depth, if_neg (by simp [hd]), installedSize_of_unsupported hd]

/-- Settles O35: the entries of the ramp are written, those above are kept, and an unsupported depth writes none. -/
theorem defpalInstallsRamp : Obligations.DefpalInstallsRamp := by
  unfold Obligations.DefpalInstallsRamp
  intro s
  refine ⟨decode_eq_command_iff.2 rfl, fun h => ?_, fun h => ?_⟩
  · refine ⟨_, congrArg _ (State.installDefault_of_supported (s := s.accept) h), fun i => ⟨fun hi => ?_, fun hi => ?_⟩⟩
    · rw [State.setPal_pal, tabulate_getFin, State.accept_bpp, if_pos hi, defaultColour_pack_toNat hi]
    · rw [State.setPal_pal, tabulate_getFin, State.accept_bpp, if_neg (Nat.not_lt.2 hi), State.accept_pal]
  · exact congrArg _ (State.installDefault_of_not_supported (s := s.accept) h)

/-- Settles O36: at a supported depth the size installed is `2^BPP`. -/
theorem palcommitInstallsPalette : Obligations.PalcommitInstallsPalette := by
  unfold Obligations.PalcommitInstallsPalette
  intro s
  refine ⟨decode_eq_command_iff.2 rfl, fun h => ?_, exec_of_not_supported trivial⟩
  have hsize := installedSize_of_supported ((depthSupported_iff _).2 h)
  rw [exec, execPalcommit, State.next_accept_withDepth h, State.depth, State.accept_bpp, hsize]
  rfl

/-! ### Lookup by index and by colour (R216, R217, R222, R223) -/

/-- Settles O37: the lookup answers the entry below `PALSIZE` and nothing from there on. -/
theorem lookupReadsEntryOrFaults : Obligations.LookupReadsEntryOrFaults := by
  unfold Obligations.LookupReadsEntryOrFaults
  intro s
  refine ⟨decode_eq_command_iff.2 rfl, fun i hi hlt => ?_, fun hle => ?_⟩
  · simp only [exec, execLookup, State.accept_a0, hi, s.accept.lookupByIndex_of_lt hlt]
    rfl
  · simp only [exec, execLookup, State.accept_a0, s.accept.lookupByIndex_of_le hle]
    rfl

theorem State.palette_getElem?_eq_some {s : State} {i : Nat} {w : Word} :
    s.palette[i]? = some w ↔ i < s.palsize.val ∧ s.pal.toList[i]? = some w := by
  simp [State.palette, List.getElem?_take]

/-- Below `PALSIZE` the palette's elements are the entries of `PAL`. -/
theorem State.palette_getElem?_val_eq_some {s : State} {i : Fin 256} {w : Word} :
    s.palette[i.val]? = some w ↔ i.val < s.palsize.val ∧ s.pal[i] = w := by
  simp [State.palette_getElem?_eq_some]

theorem State.mem_palette {s : State} {w : Word} :
    w ∈ s.palette ↔ ∃ i : Fin 256, i.val < s.palsize.val ∧ s.pal[i] = w := by
  have hsize := s.palsize.isLt
  rw [List.mem_iff_getElem?]
  refine ⟨fun ⟨i, hi⟩ => ?_, fun ⟨i, hi⟩ => ⟨i.val, palette_getElem?_val_eq_some.2 hi⟩⟩
  have hlt := (palette_getElem?_eq_some.1 hi).1
  exact ⟨⟨i, by omega⟩, palette_getElem?_val_eq_some.1 hi⟩

/-- Settles O38: the index found is the lowest that matches, and none is found only where none matches. -/
theorem findReturnsLowestIndex : Obligations.FindReturnsLowestIndex := by
  unfold Obligations.FindReturnsLowestIndex
  intro s
  refine ⟨decode_eq_command_iff.2 rfl, fun i hi hw hlow => ?_, fun hnone => ?_⟩
  · have hfind : findIndex s.accept.a0 s.accept.palette = some i.val :=
      findIndex_eq_some.2 ⟨State.palette_getElem?_val_eq_some.2 ⟨hi, hw⟩, fun j hj hjw =>
        hlow ⟨j, Nat.lt_trans hj i.isLt⟩ hj (State.palette_getElem?_val_eq_some.1 hjw).2⟩
    simp only [exec, execFind, hfind]
    rfl
  · have hfind : findIndex s.accept.a0 s.accept.palette = none :=
      findIndex_eq_none.2 fun hmem => (State.mem_palette.1 hmem).elim fun i ⟨hi, hw⟩ => hnone i hi hw
    simp only [exec, execFind, hfind]
    rfl

/-! ### Channel counts (R103, R212, R224) -/

/-- The three counts are taken. -/
theorem exists_channelsOfField {ch : Fin 16} (h : ch.val = 1 ∨ ch.val = 3 ∨ ch.val = 4) :
    ∃ n, channelsOfField ch = some n ∧ n.count = ch.val := by
  obtain ⟨n, hn⟩ : ∃ n, channelsOfField ch = some n := by
    rw [← Option.isSome_iff_exists, channelsOfField_isSome]
    simpa [Instr.channelsInRange, or_assoc] using h
  exact ⟨n, hn, channelsOfField_count hn⟩

theorem channelsOfField_eq_none {ch : Fin 16} (h : ch.val ≠ 1 ∧ ch.val ≠ 3 ∧ ch.val ≠ 4) :
    channelsOfField ch = none := by
  rw [← Option.not_isSome_iff_eq_none, channelsOfField_isSome]
  simpa [Instr.channelsInRange, and_assoc] using h

/-- A count that is taken puts the four bytes of its colour into `R0`, red first. -/
theorem exec_colch {ch : Fin 16} {n : Channels} (h : channelsOfField ch = some n) (s : State) :
    exec (.colch ch) s =
      .next (s.accept.setR0 ((n.colour s.channelOperand).r ++ (n.colour s.channelOperand).g
        ++ (n.colour s.channelOperand).b ++ (n.colour s.channelOperand).a)) := by
  rw [exec, execColch, h, ← Color.pack_eq]

/-- Settles O39: each count packs its colour, and any other fails the operand check. -/
theorem colchBuildsColour : Obligations.ColchBuildsColour := by
  unfold Obligations.ColchBuildsColour
  intro ch s
  refine ⟨decode_eq_command_iff.2 (encode_colch ch).symm, fun h => ?_, fun h => ?_, fun h => ?_, fun h => ?_⟩
  · obtain rfl : ch = 1 := Fin.ext h
    exact exec_colch (n := .one) rfl s
  · obtain rfl : ch = 3 := Fin.ext h
    exact exec_colch (n := .three) rfl s
  · obtain rfl : ch = 4 := Fin.ext h
    exact exec_colch (n := .four) rfl s
  · rw [exec, execColch, channelsOfField_eq_none h]
    exact congrArg _ (s.raiseOperand_of_encode (encode_colch ch))

/-! ### `PIX2IDX` (R218, R225) -/

theorem rawPixel_count (s : State) (n : Channels) (k : Nat) : rawPixel s n.count k = s.rawColour n k := by
  cases n <;> simp [rawPixel, State.rawColour, Channels.colour, Channels.count, Nat.mul_comm k]

/-- The lowest matching index is what the model's search finds. -/
theorem lowestIndex_eq_findIndex (s : State) (c : Color) : lowestIndex s c = findIndex c.pack s.palette := by
  refine Option.ext fun i => ?_
  rw [lowestIndex, List.find?_range_eq_some, findIndex_eq_some, Color.pack_eq]
  simp only [ne_eq, State.palette_getElem?_eq_some, beq_iff_eq, List.mem_range, Bool.not_eq_true',
    beq_eq_false_iff_ne]
  constructor
  · rintro ⟨hw, hi, hlow⟩
    exact ⟨⟨hi, hw⟩, fun j hj h => hlow j hj h.2⟩
  · rintro ⟨⟨hi, hw⟩, hlow⟩
    exact ⟨hw, hi, fun j hj h => hlow j hj ⟨Nat.lt_trans hj hi, h⟩⟩

theorem lowestIndex_rawPixel (s : State) (n : Channels) (k : Nat) :
    lowestIndex s (rawPixel s n.count k) = s.pixelIndex n k := by
  rw [rawPixel_count, lowestIndex_eq_findIndex, State.pixelIndex]

theorem misses_eq_filterMap_pixelMiss (s : State) (n : Channels) (np : Nat) :
    misses s n.count np = (List.range' 0 np).filterMap (s.pixelMiss n) := by
  rw [misses, List.range_eq_range']
  refine congrArg (List.filterMap · _) (funext fun k => ?_)
  rw [lowestIndex_rawPixel, rawPixel_count, State.pixelMiss]

/-- A palette has at most 256 entries, so that the index stored is a byte. -/
theorem State.pixelIndex_getD_lt (s : State) (n : Channels) (k : Nat) : (s.pixelIndex n k).getD 0 < 2 ^ 8 := by
  cases h : s.pixelIndex n k with
  | none => decide
  | some i =>
    have hsize := s.palsize.isLt
    have hi := (palette_getElem?_eq_some.1 (findIndex_eq_some.1 h).1).1
    show i < 256
    omega

theorem State.pixelsToIndexed_rawBounds {s : State} (h : s.cfg.rawcap.toNat < s.rawlen.toNat) (n : Channels) :
    s.pixelsToIndexed n = ({ s with misscnt := 0 } : State).raiseFault .bounds 3 :=
  if_pos h

theorem State.pixelsToIndexed_pixBounds {s : State} {n : Channels} (hraw : s.rawlen.toNat ≤ s.cfg.rawcap.toNat)
    (h : s.cfg.pixcap.toNat < s.rawlen.toNat / n.count) :
    s.pixelsToIndexed n = ({ s with misscnt := 0 } : State).raiseFault .bounds 2 :=
  (if_neg (Nat.not_lt.2 hraw)).trans (if_pos h)

theorem State.pixelsToIndexed_of_room {s : State} {n : Channels} (hraw : s.rawlen.toNat ≤ s.cfg.rawcap.toNat)
    (hpix : s.rawlen.toNat / n.count ≤ s.cfg.pixcap.toNat) :
    s.pixelsToIndexed n =
      { State.convertPixels n (s.rawlen.toNat / n.count) 0 { s with misscnt := 0 } with
        pixlen := word (s.rawlen.toNat / n.count) } :=
  (if_neg (Nat.not_lt.2 hraw)).trans (if_neg (Nat.not_lt.2 hpix))

/-- With room for both buffers every pixel is converted. -/
theorem State.pixelsToIndexed_converts {s : State} {n : Channels} (hraw : s.rawlen.toNat ≤ s.cfg.rawcap.toNat)
    (hpix : s.rawlen.toNat / n.count ≤ s.cfg.pixcap.toNat) (hwf : s.pixmem.wf) :
    ∃ m : Memory,
      s.pixelsToIndexed n =
        { s with pixmem := m,
                 misscnt := word (misses s n.count (s.rawlen.toNat / n.count)).length,
                 out := s.out ++ misses s n.count (s.rawlen.toNat / n.count),
                 pixlen := word (s.rawlen.toNat / n.count) } ∧
      (∀ k, k < s.rawlen.toNat / n.count → (m.read k).toNat = (lowestIndex s (rawPixel s n.count k)).getD 0) ∧
      ∀ a, s.rawlen.toNat / n.count ≤ a → m.read a = s.pixmem.read a := by
  obtain ⟨m, he, hm, -⟩ := State.convertPixels_spec n (s.rawlen.toNat / n.count) 0 { s with misscnt := 0 }
  obtain ⟨-, hpixels, hrest⟩ := hm hwf
  rw [Nat.zero_add] at hpixels hrest
  refine ⟨m, ?_, fun k hk => ?_, fun a ha => hrest a (.inr ha)⟩
  · rw [State.pixelsToIndexed_of_room hraw hpix, he, misses_eq_filterMap_pixelMiss]
    simp only [BitVec.ofNat_eq_ofNat, BitVec.zero_add]
    rfl
  · rw [hpixels k (Nat.zero_le k) hk, lowestIndex_rawPixel]
    exact byte_toNat (s.pixelIndex_getD_lt n k)

/-- Settles O40: a channel count that is not taken fails the operand check, a buffer that is too large faults, and
otherwise every pixel is converted. -/
theorem pix2idxConvertsPixels : Obligations.Pix2idxConvertsPixels := by
  unfold Obligations.Pix2idxConvertsPixels
  intro ch s
  refine ⟨decode_eq_command_iff.2 (encode_pix2idx ch).symm, fun h => ?_, fun h => ?_⟩
  · rw [exec, execPix2idx, channelsOfField_eq_none h]
    exact congrArg _ (s.raiseOperand_of_encode (encode_pix2idx ch))
  · obtain ⟨n, hn, hcount⟩ := exists_channelsOfField h
    rw [exec, execPix2idx, hn, ← hcount]
    refine ⟨fun hraw => ?_, fun hraw hpix => ?_, fun hraw hpix hwf => ?_⟩
    · exact congrArg _ (State.pixelsToIndexed_rawBounds (s := s.accept) hraw n)
    · exact congrArg _ (State.pixelsToIndexed_pixBounds (s := s.accept) hraw hpix)
    · obtain ⟨m, he, hpixels, hrest⟩ := State.pixelsToIndexed_converts (s := s.accept) hraw hpix hwf
      exact ⟨m, congrArg _ he, hpixels, hrest⟩

/-! ### `IDX2COL` (R219, R226) -/

theorem State.indexedToColors_pixBounds {s : State} (h : s.cfg.pixcap.toNat < s.pixlen.toNat) :
    s.indexedToColors = s.raiseFault .bounds 2 :=
  if_pos h

theorem State.indexedToColors_colBounds {s : State} (hpix : s.pixlen.toNat ≤ s.cfg.pixcap.toNat)
    (h : s.cfg.colcap.toNat < 4 * s.pixlen.toNat) : s.indexedToColors = s.raiseFault .bounds 4 :=
  (if_neg (Nat.not_lt.2 hpix)).trans (if_pos h)

theorem State.indexedToColors_of_room {s : State} (hpix : s.pixlen.toNat ≤ s.cfg.pixcap.toNat)
    (hcol : 4 * s.pixlen.toNat ≤ s.cfg.colcap.toNat) :
    s.indexedToColors = State.convertIndices s.pixlen.toNat 0 s :=
  (if_neg (Nat.not_lt.2 hpix)).trans (if_neg (Nat.not_lt.2 hcol))

/-- The loop over `len` pixels of which the first `n` are in the palette and, with pixels left, the next is not: the
bytes of the `n` entries, and `COLLEN` or the fault. -/
theorem State.convertIndices_leading {s : State} (hwf : s.colmem.wf) {n len : Nat} (hn : n ≤ len)
    (hin : ∀ k, k < n → (s.pixmem.read k).toNat < s.palsize.val)
    (hend : n = len ∨ s.palsize.val ≤ (s.pixmem.read n).toNat) :
    ∃ m : Memory,
      State.convertIndices len 0 s =
        (if n = len then { s with colmem := m, collen := word (4 * n) }
          else ({ s with colmem := m } : State).raiseFault .palidx (s.pixmem.read n).toNat) ∧
      (∀ (k : Nat) (i : Fin 256), k < n → (s.pixmem.read k).toNat = i.val →
        m.read (4 * k) = s.pal[i].extractLsb' 24 8 ∧ m.read (4 * k + 1) = s.pal[i].extractLsb' 16 8 ∧
        m.read (4 * k + 2) = s.pal[i].extractLsb' 8 8 ∧ m.read (4 * k + 3) = s.pal[i].extractLsb' 0 8) ∧
      ∀ a, 4 * n ≤ a → m.read a = s.colmem.read a := by
  have hin' : ∀ k, 0 ≤ k → k < 0 + n → (s.pixmem.read k).toNat < s.palsize.val :=
    fun k _ hk => hin k (by omega)
  obtain ⟨m, he, -, hm⟩ := State.convertIndices_complete n 0 s hin'
  obtain ⟨-, hentries, hrest⟩ := hm hwf
  rw [Nat.zero_add] at he hentries hrest
  refine ⟨m, ?_, fun k i hk hi => ?_, fun a ha => hrest a (.inr ha)⟩
  · split
    · next heq => rw [← heq, he]
    · next hne =>
      obtain ⟨more, rfl⟩ : ∃ more, len = n + (more + 1) := ⟨len - n - 1, by omega⟩
      have hbad : s.palsize.val ≤ (s.pixmem.read (0 + n)).toNat := by
        rw [Nat.zero_add]; exact hend.resolve_left hne
      rw [State.convertIndices_stopped n 0 more s hin' hbad, he, Nat.zero_add]
  · have hentry : s.lookupByIndex (s.pixmem.read k).toNat = some s.pal[i] := by
      rw [s.lookupByIndex_of_lt (hin k hk)]
      exact congrArg some (getElem_congr_idx hi)
    exact hentries k _ (Nat.zero_le k) hk hentry

/-- Settles O41: a buffer that is too large faults, and otherwise the leading pixels in the palette are converted. -/
theorem idx2colConvertsIndices : Obligations.Idx2colConvertsIndices := by
  unfold Obligations.Idx2colConvertsIndices
  intro s
  refine ⟨decode_eq_command_iff.2 rfl, fun hpix => ?_, fun hpix hcol => ?_, fun hpix hcol hwf n hn hin hend => ?_⟩
  · exact congrArg _ (State.indexedToColors_pixBounds (s := s.accept) hpix)
  · exact congrArg _ (State.indexedToColors_colBounds (s := s.accept) hpix hcol)
  · obtain ⟨m, he, hentries, hrest⟩ := State.convertIndices_leading (s := s.accept) hwf hn hin hend
    refine ⟨m, ?_, hentries, hrest⟩
    exact congrArg _ ((State.indexedToColors_of_room (s := s.accept) hpix hcol).trans he)

/-! ### Who writes the palette (R27, R227) -/

theorem State.Completes.palette_eq {s t : State} {i : Instr} (h : s.Completes i t) (hd : i ≠ .defpal)
    (hp : i ≠ .palcommit) : t.pal = s.pal ∧ t.palsize = s.palsize := by
  cases h with
  | ramp => exact absurd rfl hd
  | palsize hi => exact absurd hi (not_or.2 ⟨hd, hp⟩)
  | _ => exact ⟨rfl, rfl⟩

theorem exec_palette_eq {i : Instr} {s t : State} (h : exec i s = .next t) (hd : i ≠ .defpal) (hp : i ≠ .palcommit) :
    t.pal = s.pal ∧ t.palsize = s.palsize := by
  rcases exec_cases h with ⟨_, rfl⟩ | ⟨_, hc⟩
  · exact ⟨rfl, rfl⟩
  · exact hc.palette_eq hd hp

theorem State.engineTurn_palette_eq (s : State) : s.engineTurn.pal = s.pal ∧ s.engineTurn.palsize = s.palsize := by
  rcases s.engineTurn_cases with
    he | ⟨_, _, he⟩ | ⟨_, _, ⟨_, he⟩ | ⟨_, he⟩ | ⟨_, ⟨_, _, he⟩ | ⟨_, he⟩⟩⟩ <;> rw [he] <;> exact ⟨rfl, rfl⟩

/-- Settles O44: of the ways a command completes only those of `DEFPAL` and `PALCOMMIT` write the palette. -/
theorem onlyPaletteCommandsWritePalette : Obligations.OnlyPaletteCommandsWritePalette := by
  unfold Obligations.OnlyPaletteCommandsWritePalette
  rintro s t (rfl | ⟨i, hd, hp, h⟩)
  · exact s.engineTurn_palette_eq
  · exact exec_palette_eq h hd hp

end Sys2Proof.Machine
end

section
/-! PROOF. Faults and stops: the depth check (R253), the freeze in `FAULT` (R258, R263), and that no command ends a run
(R255, R259). -/

namespace Sys2Proof.Machine

open Sys2Proof.Rules

/-- Settles O7: behind acceptance the depth check stands first in every command that has one. -/
theorem unsupportedDepthFaults : Obligations.UnsupportedDepthFaults := by
  unfold Obligations.UnsupportedDepthFaults
  intro i s hi hd
  exact exec_of_not_supported hi hd

/-- Settles O9: the commands that check an operand field or search the palette answer a next state on either side of the
check; every other command's meaning is a next state outright. -/
theorem everyCommandAnswersNextState : Obligations.EveryCommandAnswersNextState := by
  unfold Obligations.EveryCommandAnswersNextState
  intro i s
  cases i with
  | getbits | setbits => simp only [exec, execGetbits, execSetbits]; split <;> exact ⟨_, rfl⟩
  | colch | pix2idx => simp only [exec, execColch, execPix2idx]; split <;> exact ⟨_, rfl⟩
  | lookup | find => simp only [exec, execLookup, execFind]; split <;> exact ⟨_, rfl⟩
  | _ => exact ⟨_, rfl⟩

/-! ### The block in `FAULT` (R258, R263) -/

/-- No engine step is enabled (R185). -/
theorem State.engineTurn_of_fault {s : State} (h : s.eng = .fault) : s.engineTurn = s := by
  simp only [State.engineTurn, h]

/-- A port write is ignored, `ACK` and `CMD` included (R50, R258). -/
theorem writePort_of_fault {s : State} (h : s.eng = .fault) (offset w : Word) : writePort offset w s = .next s := by
  simp only [writePort, h]

/-- A byte write is not a move of the block outside `IDLE` (R84; log 8). -/
theorem hostWriteByte_of_fault {s : State} (h : s.eng = .fault) (space : Space) (offset : Nat) (v : Byte) :
    hostWriteByte space offset v s = .refused .hostMemoryWriteOutsideIdle :=
  if_pos (by rw [h]; decide)

/-- A byte read that answers only records a value (R49). -/
theorem hostReadByte_next {space : Space} {offset : Nat} {s t : State} (h : hostReadByte space offset s = .next t) :
    ∃ w, t = s.record w := by
  unfold hostReadByte at h
  split at h <;> cases h
  exact ⟨_, rfl⟩

/-- Every move but a reset leaves the block as it is; a read adds to the values the host has read (R258). -/
theorem takeMove_of_fault {m : HostMove} {s t : State} (h : s.eng = .fault) (hm : m ≠ .reset)
    (ht : takeMove m s = .next t) : t = { s with reads := t.reads } := by
  cases m with
  | write offset w => cases (writePort_of_fault h offset w).symm.trans ht; rfl
  | read offset => cases ht; rfl
  | memWrite space offset v => cases (hostWriteByte_of_fault h space offset v).symm.trans ht
  | memRead space offset => obtain ⟨w, rfl⟩ := hostReadByte_next ht; rfl
  | reset => exact absurd rfl hm
  | engine => cases (congrArg Host.Outcome.next (State.engineTurn_of_fault h)).symm.trans ht; rfl

/-- Settles O47: without a move it is the engine's turn, which is not enabled; with one, by the move. -/
theorem faultFreezesBlock : Obligations.FaultFreezesBlock := by
  unfold Obligations.FaultFreezesBlock
  intro s h
  refine ⟨fun hh => ?_, fun offset w rest hh => ?_, fun m rest t hh hm ht => ?_⟩
  · rw [step_of_noMove hh, State.engineTurn_of_fault h]
  · exact (step_of_move hh).trans (writePort_of_fault (s := { s with host := rest }) h offset w)
  · exact takeMove_of_fault (s := { s with host := rest }) h hm ((step_of_move hh).symm.trans ht)

end Sys2Proof.Machine
end

section
/-! PROOF. The reset input (R280): outside the buffers, the external memories and the model's own fields, what it leaves
is the state after reset, so that the rows of R51 (O55) are its values too. -/

namespace Sys2Proof.Machine

/-- `STATUS` reads after a reset input as it reads after reset (R24, R280): the buffers and memories are no part of it. -/
@[simp] theorem State.resetInput_statusWord (s : State) : s.resetInput.statusWord = State.reset.statusWord := rfl

/-- Settles O54: the reset input answers in any engine state; every register and `OUT` are State.reset's, whose values
O55 gives, and the memories and the model's own fields are the ones the move found. -/
theorem resetInputRestoresRegisters : Obligations.ResetInputRestoresRegisters := by
  unfold Obligations.ResetInputRestoresRegisters
  intro s rest hh
  obtain ⟨heng, hstatus, hcause, hfinfo, hbpp, hlayout, hpalsize, hmisscnt, houtcnt, hchrlen, hpixlen, hrawlen, hcollen,
    hwidth, hheight, ha0, ha1, hr0, hout⟩ := resetStateHasSpecifiedValues
  let moved : State := { s with host := rest }
  have hstep : step s = .next moved.resetInput := step_of_move hh
  have hstatus' : moved.resetInput.statusWord = 0 := moved.resetInput_statusWord.trans hstatus
  have hmemory : ∀ space, moved.resetInput.memory space = s.memory space := moved.resetInput_memory
  exact ⟨moved.resetInput, hstep, heng, hstatus', hcause, hfinfo, hbpp, hlayout, hpalsize, hmisscnt, houtcnt, hchrlen,
    hpixlen, hrawlen, hcollen, hwidth, hheight, ha0, ha1, hr0, hout, hmemory, rfl, rfl, rfl⟩

end Sys2Proof.Machine
end

section
/-! PROOF. The host's placement of a word (log 2): it is the write to `CMD` of O4, of the word the table decoder reads. -/

namespace Sys2Proof

/-- The table decoder is `decode` on the 32-bit word, with the reason of an illegal word dropped. -/
theorem decodeTableWord_eq_some_iff {nbits w : Nat} {i : Instr} :
    decodeTableWord nbits w = some i ↔ decode (commandWord nbits w) = .command i := by
  unfold decodeTableWord
  cases decode (commandWord nbits w) with
  | command j => simp
  | illegal r => simp

end Sys2Proof

namespace Sys2Proof.Machine

/-- Settles O5, by O4: the placed word is the next write to `CMD` and the engine is idle, and the state without that
move is the one before the placement with the engine idle. -/
theorem placedWordRunsNext : Obligations.PlacedWordRunsNext := by
  unfold Obligations.PlacedWordRunsNext
  intro s nbits w i h
  have hword : decode (commandWord nbits w) = .command i := decodeTableWord_eq_some_iff.1 h
  exact cmdWriteRunsDecodedCommand (s.withFetchWord nbits w) (commandWord nbits w) i s.host rfl rfl hword

end Sys2Proof.Machine
end
